-- ==== Sys2Proof/Word.lean ====
section
/-!
DEFINITION. The two word types of the block: a 32-bit word of the register window (R17) and a byte (R12).
-/
namespace Sys2Proof

/-- A word of the register window, a command word, or host write data (R17, R65). -/
abbrev Word := BitVec 32

/-- One byte of CAR, NAME or PAY, one 8-bit channel, or one byte of the encoded stream (R6, R12). -/
abbrev Byte := BitVec 8

end Sys2Proof
end

