-- ==== Sys2Proof/Syntax.lean ====
section
/-!
DEFINITION. The command set: one constructor for each row of spec/opcode_table.json (30_encoding.md R68).
-/
namespace Sys2Proof

/-- The 11 commands of R68, in the table's order. The byte operand of format F8 is a byte whose bits are spread
over channels, so it is a bit vector; the operand of format F24 is a count that enters exact arithmetic (R9, R93),
so it is a natural number, and `Instr.wellFormed` bounds it (R66). -/
inductive Instr where
  /-- R83 -/
  | nop
  /-- R84 -/
  | clrStatus
  /-- R91 -/
  | curReset
  /-- R92 -/
  | curAdvance
  /-- R93 -/
  | curAdvanceBy (n : Nat)
  /-- R102 -/
  | packByte (c : Byte)
  /-- R104 -/
  | unpackByte
  /-- R110 -/
  | planEncode
  /-- R112 -/
  | planDecode
  /-- R126 -/
  | encode
  /-- R127 -/
  | decode
  deriving DecidableEq, Repr

end Sys2Proof
end

