-- ==== Sys2Proof/WellFormed.lean ====
section
/-!
DEFINITION. Which commands have an encoding (30_encoding.md R66, R73).
-/
namespace Sys2Proof

/-- A command is well formed when its operand fits its field: the count of format F24 is w[23:0], so at most
16 777 215 (R66, R67). The byte operand of format F8 fits by its type. -/
def Instr.wellFormed : Instr → Bool
  | .nop => true
  | .clrStatus => true
  | .curReset => true
  | .curAdvance => true
  | .curAdvanceBy n => decide (n ≤ 16777215)
  | .packByte _ => true
  | .unpackByte => true
  | .planEncode => true
  | .planDecode => true
  | .encode => true
  | .decode => true

end Sys2Proof
end

