-- ==== Sys2Proof/Decode.lean ====
section
/-!
DEFINITION. The command word: fields and operand assembly (R65, R67), the decoder (R68 to R72), the encoder (R73),
and the opcode map as rows of match and mask (R68).
-/
namespace Sys2Proof

/-- OPC = w[31:24] (R65). -/
def opcField (w : Word) : Nat := w.toNat / 2 ^ 24

/-- IMM24 = w[23:0] (R65), which is also the count operand n of format F24 (R67). -/
def imm24Field (w : Word) : Nat := w.toNat % 2 ^ 24

/-- w[23:8], the bits that format F8 wants to be 0 (R66). -/
def upper16Field (w : Word) : Nat := imm24Field w / 2 ^ 8

/-- The byte operand c = w[7:0] of format F8 (R67). -/
def byteField (w : Word) : Byte := BitVec.ofNat 8 w.toNat

/-- The two kinds of illegal word of R70. -/
inductive IllegalWord where
  /-- The OPC is in no row of R68. -/
  | unassignedOpcode
  /-- The OPC is in the table and a must-be-zero bit of its format (R66) is 1. -/
  | mustBeZero
  deriving DecidableEq, Repr

/-- Format F0 (R66): no operand, IMM24 must be 0. -/
def formatF0 (w : Word) (i : Instr) : Except IllegalWord Instr :=
  if imm24Field w = 0 then .ok i else .error .mustBeZero

/-- Format F8 (R66): the operand is a byte, w[23:8] must be 0. -/
def formatF8 (w : Word) (f : Byte → Instr) : Except IllegalWord Instr :=
  if upper16Field w = 0 then .ok (f (byteField w)) else .error .mustBeZero

/-- Format F24 (R66): the operand is a count, no bit must be 0. -/
def formatF24 (w : Word) (f : Nat → Instr) : Except IllegalWord Instr :=
  .ok (f (imm24Field w))

/-- `decode(w)` of R69: total on all 2^32 words, and it reads no state. -/
def decode (w : Word) : Except IllegalWord Instr :=
  if opcField w = 0x00 then formatF0 w .nop
  else if opcField w = 0x01 then formatF0 w .clrStatus
  else if opcField w = 0x02 then formatF0 w .curReset
  else if opcField w = 0x03 then formatF0 w .curAdvance
  else if opcField w = 0x04 then formatF24 w .curAdvanceBy
  else if opcField w = 0x10 then formatF8 w .packByte
  else if opcField w = 0x11 then formatF0 w .unpackByte
  else if opcField w = 0x20 then formatF0 w .planEncode
  else if opcField w = 0x21 then formatF0 w .planDecode
  else if opcField w = 0x30 then formatF0 w .encode
  else if opcField w = 0x31 then formatF0 w .decode
  else .error .unassignedOpcode

/-- The OPC of each command (R68). -/
def Instr.opc : Instr → Nat
  | .nop => 0x00
  | .clrStatus => 0x01
  | .curReset => 0x02
  | .curAdvance => 0x03
  | .curAdvanceBy _ => 0x04
  | .packByte _ => 0x10
  | .unpackByte => 0x11
  | .planEncode => 0x20
  | .planDecode => 0x21
  | .encode => 0x30
  | .decode => 0x31

/-- The operand as R73 encodes it; a missing operand counts as 0. -/
def Instr.operand : Instr → Nat
  | .nop => 0
  | .clrStatus => 0
  | .curReset => 0
  | .curAdvance => 0
  | .curAdvanceBy n => n
  | .packByte c => c.toNat
  | .unpackByte => 0
  | .planEncode => 0
  | .planDecode => 0
  | .encode => 0
  | .decode => 0

/-- The encoder of R73: `w = (OPC << 24) OR operand`; for an operand below 2^24 the OR is a sum. -/
def encode (i : Instr) : Word := BitVec.ofNat 32 (i.opc * 2 ^ 24 + i.operand)

/-- One row of the opcode map of R68: a word `w` selects it exactly when `(w AND mask) = match`. -/
structure OpcodeRow where
  mnemonic : String
  matchBits : Word
  mask : Word
  deriving DecidableEq, Repr

/-- Whether a word selects a row (R68). -/
def OpcodeRow.selectedBy (r : OpcodeRow) (w : Word) : Bool := w &&& r.mask == r.matchBits

/-- The opcode map of R68, row by row. -/
def opcodeRows : List OpcodeRow :=
  [⟨"NOP", 0x00000000, 0xFFFFFFFF⟩,
   ⟨"CLR_STATUS", 0x01000000, 0xFFFFFFFF⟩,
   ⟨"CUR_RESET", 0x02000000, 0xFFFFFFFF⟩,
   ⟨"CUR_ADVANCE", 0x03000000, 0xFFFFFFFF⟩,
   ⟨"CUR_ADVANCE_BY", 0x04000000, 0xFF000000⟩,
   ⟨"PACK_BYTE", 0x10000000, 0xFFFFFF00⟩,
   ⟨"UNPACK_BYTE", 0x11000000, 0xFFFFFFFF⟩,
   ⟨"PLAN_ENCODE", 0x20000000, 0xFFFFFFFF⟩,
   ⟨"PLAN_DECODE", 0x21000000, 0xFFFFFFFF⟩,
   ⟨"ENCODE", 0x30000000, 0xFFFFFFFF⟩,
   ⟨"DECODE", 0x31000000, 0xFFFFFFFF⟩]

/-- The mnemonic of each command (R68). -/
def Instr.mnemonic : Instr → String
  | .nop => "NOP"
  | .clrStatus => "CLR_STATUS"
  | .curReset => "CUR_RESET"
  | .curAdvance => "CUR_ADVANCE"
  | .curAdvanceBy _ => "CUR_ADVANCE_BY"
  | .packByte _ => "PACK_BYTE"
  | .unpackByte => "UNPACK_BYTE"
  | .planEncode => "PLAN_ENCODE"
  | .planDecode => "PLAN_DECODE"
  | .encode => "ENCODE"
  | .decode => "DECODE"

/-- The decoder on a word given as spec/opcode_table.json numbers it: a command is one 32-bit word (R72), so bits
above bit 31 belong to no command. -/
def decodeTableWord (nbits w : Nat) : Option Instr :=
  if nbits ≤ 32 ∧ w < 2 ^ 32 then
    match decode (BitVec.ofNat 32 w) with
    | .ok i => some i
    | .error _ => none
  else none

end Sys2Proof
end

