-- ==== Sys2Proof/Config.lean ====
section
/-!
DEFINITION. What is fixed for the block: the parameters of 00_scope.md R6 and R7, the magic tag of R116, and the
constants the spec leaves open (power-up memory, R168; bus bases, R58), which have no body.
-/
namespace Sys2Proof

/-- The three byte-addressed spaces the block reaches (20_memory.md R45); the register window is the fourth. -/
inductive Space where
  | car
  | name
  | pay
  deriving DecidableEq, Repr

/-- CHANNELS of R6. -/
def Config.channels : Nat := 4

/-- PIXELS_PER_BYTE of R6. -/
def Config.pixelsPerByte : Nat := 2

/-- HDR_FIXED of R6: 12 magic bytes, 2 length bytes, 4 length bytes. -/
def Config.hdrFixed : Nat := 18

/-- MIN_DECODE_PIXELS of R6. -/
def Config.minDecodePixels : Nat := 36

/-- MAGIC_LEN of R6. -/
def Config.magicLen : Nat := 12

/-- NPIX_MAX of R7. -/
def Config.npixMax : Nat := 65535 * 65535

/-- How many bytes each space has (R45). For CAR, whose size is 4 x NPIX, this is the size at the largest
geometry of R7 (assumption log 4); the block's own accesses stay below 4 x NPIX by the bounds rule R90. -/
def Config.spaceSize : Space → Nat
  | .car => 4 * Config.npixMax
  | .name => 2 ^ 16
  | .pay => 2 ^ 32

/-- The magic tag `EasyBMPstego` in stream order (44_header.md R116). -/
def Config.magic : List Byte :=
  [0x45, 0x61, 0x73, 0x79, 0x42, 0x4D, 0x50, 0x73, 0x74, 0x65, 0x67, 0x6F]

/-- MAGIC[i] of R116. -/
def Config.magicAt (i : Nat) : Byte := Config.magic.getD i 0

/-- FREE VALUE. What a byte that nothing has written holds: R168 and U4 of 93_implementation_defined.md give it
any value, so it has no body, and nothing can be proved about it (assumption log 1). -/
opaque Config.powerUpByte : Space → Nat → Byte

/-- Bus base of the register window, an open parameter of R58. -/
opaque Config.regBase : Nat
/-- Bus base of CAR, an open parameter of R58. -/
opaque Config.carBase : Nat
/-- Bus base of NAME, an open parameter of R58. -/
opaque Config.nameBase : Nat
/-- Bus base of PAY, an open parameter of R58. -/
opaque Config.payBase : Nat

/-- Where a platform that places the spaces on one bus puts byte `a` of a space (R58). No rule of the spec, and
no definition of this model, depends on it. -/
def Config.busAddress : Space → Nat → Nat
  | .car, a => Config.carBase + a
  | .name, a => Config.nameBase + a
  | .pay, a => Config.payBase + a

/-- Where such a platform puts the register at a window offset (R58). -/
def Config.busRegister (offset : Nat) : Nat := Config.regBase + offset

end Sys2Proof
end

