-- ==== Sys2Proof/Machine/State.lean ====
section
/-!
DEFINITION. The machine's state (10_state.md), its turns (R16, R85), its faults and refusals, and the state after
power-up reset (R168).
-/
namespace Sys2Proof.Machine

/-- The values of STATUS.ERR (60_exceptions.md R151). Codes 10 to 15 are reserved and never written (U9). -/
inductive ErrCode where
  | noError
  | capHeader
  | capCarrier
  | capOverrun
  | fmtMagic
  | fmtDepth
  /-- Reserved for the host; the block never writes it (R152). -/
  | io
  | bounds
  | illegal
  | config
  deriving DecidableEq, Repr

/-- The values of SESSION.STATE (10_state.md R25). Codes 10 to 13 are reserved and never entered (U9). -/
inductive SeqState where
  | idle
  | ePlan
  | eHdr
  | ePay
  | dDepth
  | dSize
  | dMagic
  | dHdr
  | dSkip
  | dPay
  | done
  | abort
  deriving DecidableEq, Repr

/-- Bytes of one space: address and byte pairs, addresses strictly rising. An address that is not listed holds
nothing that was ever written; what the machine reads there is the free value `Config.powerUpByte` (log 1). -/
abbrev Memory := List Host.Cell

/-- One turn of the run (R16, R85): a step kind of the host, the engine's step, or the platform's reset (R168).
A register access carries its width in bytes, because R18 distinguishes accesses by width. -/
inductive Turn where
  /-- The host reads `nbytes` bytes at window offset `offset` (R18). -/
  | regRead (offset nbytes : Nat)
  /-- The host writes `nbytes` bytes at window offset `offset`; at offset 0 this issues a command (R19, R81). -/
  | regWrite (offset nbytes : Nat) (data : Word)
  /-- The host reads one byte of a space (R46, R85). -/
  | memRead (sp : Space) (a : Nat)
  /-- The host writes one byte of a space (R46, R85). -/
  | memWrite (sp : Space) (a : Nat) (v : Byte)
  /-- The host reads STATUS until BUSY = 0 (R74). -/
  | poll
  /-- The engine moves before the host's next action (R85, R128). -/
  | engine
  /-- The platform asserts reset (R168). -/
  | reset
  deriving DecidableEq, Repr

/-- Everything the spec gives the block (R17, R44, R45), and the model's own `turns` and `got`. -/
structure State where
  /-- STATUS.ERR (R20) -/
  err : ErrCode
  /-- STATUS.TRUNC_WARN (R21) -/
  truncWarn : Bool
  /-- STATUS.DONE (R22) -/
  done : Bool
  /-- STATUS.DROPPED (R24) -/
  dropped : Bool
  /-- SESSION.STATE (R25) -/
  seq : SeqState
  /-- SESSION.MISMATCH (R26) -/
  mismatch : Bool
  /-- IDX (R27) -/
  idx : BitVec 32
  /-- WIDTH (R28) -/
  width : BitVec 16
  /-- HEIGHT (R29) -/
  height : BitVec 16
  /-- CFG.ALPHA_PRESENT (R30) -/
  alphaPresent : Bool
  /-- CUR_COL (R31) -/
  curCol : BitVec 16
  /-- CUR_ROW (R31) -/
  curRow : BitVec 17
  /-- FNLEN (R33) -/
  fnlen : BitVec 16
  /-- FILESIZE (R34) -/
  filesize : BitVec 32
  /-- MAXBYTES (R35) -/
  maxbytes : BitVec 32
  /-- HDRCNT (R36) -/
  hdrcnt : BitVec 17
  /-- PAYCNT (R37) -/
  paycnt : BitVec 32
  /-- DATA_OUT (R38) -/
  dataOut : BitVec 8
  /-- CAR (R47) -/
  car : Memory
  /-- NAME (R48) -/
  name : Memory
  /-- PAY (R49) -/
  pay : Memory
  /-- The turns still to come, first one first (the model's own, log 2). -/
  turns : List Turn
  /-- What the host's reads have returned, newest first (the model's own, log 3). -/
  got : List Word
  deriving DecidableEq, Repr

/-- Why a run stops because it leaves the spec. No command's meaning raises one. -/
inductive Fault where
  /-- Raised by the host turns `memRead` and `memWrite` while BUSY = 1: R62, R178 row 10 and U3 give that access no
  step. Safe: the machine stops where the hardware would race. -/
  | hostMemoryWhileBusy
  /-- Raised by the same turns at an address outside the space (R45). Safe: no such byte exists. -/
  | addressOutsideSpace
  deriving DecidableEq, Repr

/-- What the model refuses. No command's meaning raises one. -/
inductive Refusal where
  /-- Raised by a dispatch arm of a command without a meaning; no arm does. Safe. -/
  | notModelled (mnemonic : String)
  /-- Raised by a register access that is narrower or wider than 32 bits, misaligned, or at offset 0x40 or more:
  R18 says the model refuses it. Safe. -/
  | registerAccess
  deriving DecidableEq, Repr

/-- The machine right after reset at power-up (R168): every register 0, STATE = IDLE, memory with nothing written. -/
def State.reset : State where
  err := .noError
  truncWarn := false
  done := false
  dropped := false
  seq := .idle
  mismatch := false
  idx := 0
  width := 0
  height := 0
  alphaPresent := false
  curCol := 0
  curRow := 0
  fnlen := 0
  filesize := 0
  maxbytes := 0
  hdrcnt := 0
  paycnt := 0
  dataOut := 0
  car := []
  name := []
  pay := []
  turns := []
  got := []

end Sys2Proof.Machine
end

