-- ==== Sys2Proof/Machine/Ops.lean ====
section
/-!
DEFINITION. The shared operations: byte memories (R12), error entry (R13, R157) and its return (R84, R158), cursor
and sequencer writes (R11, R14), and reset (R168).
-/
namespace Sys2Proof.Machine

/-! ### Byte memories (20_memory.md) -/

/-- The byte last written at an address, if any was. -/
def Memory.find : Memory → Nat → Option Byte
  | [], _ => none
  | (b, v) :: m, a => if a = b then some v else Memory.find m a

/-- `MemWrite` of R12 on one space: the cell goes to its place in address order. -/
def Memory.put : Memory → Nat → Byte → Memory
  | [], a, v => [(a, v)]
  | (b, w) :: m, a, v =>
    if a < b then (a, v) :: (b, w) :: m
    else if a = b then (a, v) :: m
    else (b, w) :: Memory.put m a v

/-- The canonical form: addresses strictly rising. A listed cell always differs from an unlisted one, which holds
nothing written. -/
def Memory.wf : Memory → Bool
  | [] => true
  | [_] => true
  | (a, _) :: (b, w) :: m => decide (a < b) && Memory.wf ((b, w) :: m)

/-- `MemRead` of R12: what reading one byte of a space gives. A byte nothing has written is the free value (R168,
U4; log 1). -/
def memByte (sp : Space) (m : Memory) (a : Nat) : Byte :=
  match m.find a with
  | some v => v
  | none => Config.powerUpByte sp a

/-- The memory of a space. -/
def State.memory (s : State) : Space → Memory
  | .car => s.car
  | .name => s.name
  | .pay => s.pay

/-- `MemRead(space, addr, 1)` of R12. -/
def State.memRead (s : State) (sp : Space) (a : Nat) : Byte := memByte sp (s.memory sp) a

/-- `MemWrite(space, addr, 1, v)` of R12. -/
def State.memWrite (s : State) (sp : Space) (a : Nat) (v : Byte) : State :=
  match sp with
  | .car => { s with car := s.car.put a v }
  | .name => { s with name := s.name.put a v }
  | .pay => { s with pay := s.pay.put a v }

/-! ### Sequencer state (10_state.md R23, R25) -/

/-- BUSY = 1 exactly in the states with codes 1 to 9 (R23). -/
def SeqState.isBusy : SeqState → Bool
  | .idle => false
  | .ePlan => true
  | .eHdr => true
  | .ePay => true
  | .dDepth => true
  | .dSize => true
  | .dMagic => true
  | .dHdr => true
  | .dSkip => true
  | .dPay => true
  | .done => false
  | .abort => false

/-- STATUS.BUSY (R23). -/
def State.busy (s : State) : Bool := s.seq.isBusy

/-- `goto S` of R14. -/
def State.goto (s : State) (q : SeqState) : State := { s with seq := q, idx := 0 }

/-- `IDX <- i` (R27). -/
def State.setIdx (s : State) (i : BitVec 32) : State := { s with idx := i }

/-! ### Errors (60_exceptions.md R157, R158) -/

/-- Error entry (R13, R157): `raise Err(code)` in a command writes STATUS.ERR and nothing else. -/
def State.raise (s : State) (code : ErrCode) : State := { s with err := code }

/-- Error entry in a sequencer step (R13, R157): STATE goes to ABORT as well, which makes BUSY 0. -/
def State.raiseInStep (s : State) (code : ErrCode) : State := { s.raise code with seq := .abort }

/-- Return from an error (R84, R158): what CLR_STATUS writes. -/
def State.clearStatus (s : State) : State :=
  { s with
    err := .noError, truncWarn := false, done := false, dropped := false
    seq := .idle, mismatch := false, idx := 0 }

/-- A dropped access changes nothing but DROPPED (R24, R40). -/
def State.markDropped (s : State) : State := { s with dropped := true }

/-- Step 5 of command acceptance clears DONE (R81). -/
def State.clearDone (s : State) : State := { s with done := false }

/-! ### Cursor and host side -/

/-- `(CUR_COL, CUR_ROW) <- c` (R31). Every position the rules store fits the fields (R32, D32). -/
def State.setCursor (s : State) (c : Nat × Nat) : State :=
  { s with curCol := BitVec.ofNat 16 c.1, curRow := BitVec.ofNat 17 c.2 }

/-- The turns still to come become `ts` (log 2). -/
def State.withTurns (s : State) (ts : List Turn) : State := { s with turns := ts }

/-- The host gets a value back from a read (log 3). -/
def State.give (s : State) (v : Word) : State := { s with got := v :: s.got }

/-! ### Reset (70_reset_and_hazards.md R168) -/

/-- Reset of the block: every register takes its reset value, no memory is written, and the turns still to come and
what the host has already read are not the block's. -/
def State.resetBlock (s : State) : State :=
  { State.reset with car := s.car, name := s.name, pay := s.pay, turns := s.turns, got := s.got }

end Sys2Proof.Machine
end

