-- ==== Sys2Proof/Machine/Operands.lean ====
section
/-!
DEFINITION. What commands and steps take as operands besides the word's own (R67): the geometry, the pixel indices
(00_scope.md R11) and the pair at the cursor (45_session.md R130).
-/
namespace Sys2Proof.Machine

/-- `W` of R11. -/
def State.W (s : State) : Nat := s.width.toNat

/-- `H` of R11. -/
def State.H (s : State) : Nat := s.height.toNat

/-- `NPIX = W * H` of R11. -/
def State.npix (s : State) : Nat := s.W * s.H

/-- `lin(col,row) = row * W + col` of R11. -/
def lin (w col row : Nat) : Nat := row * w + col

/-- `pix(p) = (p mod W, p div W)` of R11. -/
def pix (w p : Nat) : Nat × Nat := (p % w, p / w)

/-- `lin(CUR_COL, CUR_ROW)`: the linear index of the cursor. -/
def State.cursor (s : State) : Nat := lin s.W s.curCol.toNat s.curRow.toNat

/-- `pairAtCursor()` of R130, in continuation form: a step that needs the pixel pair at the cursor raises BOUNDS
before any memory access when P2 does not exist, and otherwise goes on with the index of P1. -/
def State.withPair (s : State) (k : Nat → State) : State :=
  if s.cursor + 2 > s.npix then s.raiseInStep .bounds else k s.cursor

/-- `passPair(p)` of R130. -/
def State.passPair (s : State) (p : Nat) : State := s.setCursor (pix s.W (p + 2))

end Sys2Proof.Machine
end

