-- ==== Sys2Proof/Machine/Flags.lean ====
section
/-!
DEFINITION. Status bits and codes: the code tables of R25 and R151, the words a read of STATUS and SESSION gives
(R17), and the rules of TRUNC_WARN (R21) and MISMATCH (R26).
-/
namespace Sys2Proof.Machine

/-- The code of STATUS.ERR (R151). -/
def ErrCode.code : ErrCode → BitVec 4
  | .noError => 0
  | .capHeader => 1
  | .capCarrier => 2
  | .capOverrun => 3
  | .fmtMagic => 4
  | .fmtDepth => 5
  | .io => 6
  | .bounds => 7
  | .illegal => 8
  | .config => 9

/-- The code of SESSION.STATE (R25). -/
def SeqState.code : SeqState → BitVec 4
  | .idle => 0
  | .ePlan => 1
  | .eHdr => 2
  | .ePay => 3
  | .dDepth => 4
  | .dSize => 5
  | .dMagic => 6
  | .dHdr => 7
  | .dSkip => 8
  | .dPay => 9
  | .done => 14
  | .abort => 15

/-- The word a read of STATUS gives (R17): [3:0] ERR, [4] TRUNC_WARN, [5] DONE, [6] BUSY, [7] DROPPED. -/
def State.statusWord (s : State) : Word :=
  BitVec.ofNat 32 (s.err.code.toNat + 16 * s.truncWarn.toNat + 32 * s.done.toNat + 64 * s.busy.toNat
    + 128 * s.dropped.toNat)

/-- The word a read of SESSION gives (R17): [3:0] STATE, [4] MISMATCH. -/
def State.sessionWord (s : State) : Word :=
  BitVec.ofNat 32 (s.seq.code.toNat + 16 * s.mismatch.toNat)

/-- TRUNC_WARN is written with 1 exactly when FILESIZE exceeds what remains (R21, R109). -/
def truncWarns (fileSize remaining : Nat) : Bool := decide (fileSize > remaining)

/-- MISMATCH after one magic byte: ORs in whether the byte differs from the tag's byte at that position (R26, R137). -/
def mismatchAfter (old : Bool) (c : Byte) (i : Nat) : Bool := old || c != Config.magicAt i

end Sys2Proof.Machine
end

