-- ==== Sys2Proof/Machine/Control.lean ====
section
/-!
DEFINITION. Command acceptance (40_control.md R81), NOP (R83) and CLR_STATUS (R84).
-/
namespace Sys2Proof.Machine

/-- Steps 1, 4 and the head of 5 of R81, for any word but NOP and CLR_STATUS: dropped while BUSY = 1 or ERR ≠ 0,
else DONE is cleared and `k` goes on. -/
def State.gate (s : State) (k : State → State) : State :=
  if s.busy then s.markDropped
  else if s.err ≠ .noError then s.markDropped
  else k s.clearDone

/-- Step 6 of R81: CONFIG when the geometry is zero; else step 7 performs the command. -/
def State.withGeometry (s : State) (perform : State → State) : State :=
  if s.W = 0 ∨ s.H = 0 then s.raise .config else perform s

/-- Acceptance of a legal command other than NOP and CLR_STATUS (R81). -/
def State.accept (s : State) (perform : State → State) : State :=
  s.gate fun s => s.withGeometry perform

/-- Acceptance of an illegal word (R81 step 5, R70). -/
def State.acceptIllegal (s : State) : State :=
  s.gate fun s => s.raise .illegal

/-- NOP (R83): nothing, in every state. -/
def execNop (s : State) : Host.Outcome State Fault Refusal := .next s

/-- CLR_STATUS (R84): dropped while BUSY = 1, accepted in every other state, whatever ERR and the geometry are. -/
def execClrStatus (s : State) : Host.Outcome State Fault Refusal :=
  .next (if s.busy then s.markDropped else s.clearStatus)

end Sys2Proof.Machine
end

