-- ==== Sys2Proof/Machine/Codec.lean ====
section
/-!
DEFINITION. The bit-packing engine (42_bitcodec.md R98 to R104).
-/
namespace Sys2Proof.Machine

/-- `CarRead(p, ch)` of R12. -/
def carRead (m : Memory) (p ch : Nat) : Byte := memByte .car m (4 * p + ch)

/-- `CarWrite(p, ch, v)` of R12. -/
def carWrite (m : Memory) (p ch : Nat) (v : Byte) : Memory := m.put (4 * p + ch) v

/-- Bit i of a byte, as R99 computes it: `(c div 2^i) mod 2`. -/
def bitOf (c : Byte) (i : Nat) : Nat := c.toNat / 2 ^ i % 2

/-- `setLSB(v, t) = v - (v mod 2) + t` of R98. -/
def setLSB (v : Byte) (t : Nat) : Byte := BitVec.ofNat 8 (v.toNat - v.toNat % 2 + t)

/-- One round of the loop of R99: bit i of c goes to channel `i mod 4` of pixel `p + (i div 4)`. -/
def packChannel (p : Nat) (c : Byte) (m : Memory) (i : Nat) : Memory :=
  carWrite m (p + i / 4) (i % 4) (setLSB (carRead m (p + i / 4) (i % 4)) (bitOf c i))

/-- `packPair(p, c)` of R99: b0 first. -/
def packPair (p : Nat) (c : Byte) (m : Memory) : Memory :=
  (List.range 8).foldl (packChannel p c) m

/-- `unpackPair(p)` of R100. -/
def unpackPair (p : Nat) (m : Memory) : Byte :=
  BitVec.ofNat 8 ((List.range 8).foldl
    (fun c i => c + (carRead m (p + i / 4) (i % 4)).toNat % 2 * 2 ^ i) 0)

/-- `packPair(p, c) ; passPair(p)` of R102, R131 and R132. -/
def State.packAt (s : State) (p : Nat) (c : Byte) : State :=
  { s with car := packPair p c s.car }.passPair p

/-- `DATA_OUT <- unpackPair(p) ; passPair(p)` of R104. -/
def State.unpackAt (s : State) (p : Nat) : State :=
  { s with dataOut := unpackPair p s.car }.passPair p

/-- What PACK_BYTE c performs (R102): the bounds check comes before the first write. -/
def performPackByte (c : Byte) (s : State) : State :=
  if s.cursor + 2 > s.npix then s.raise .bounds
  else s.packAt s.cursor c

/-- What UNPACK_BYTE performs (R104). -/
def performUnpackByte (s : State) : State :=
  if s.cursor + 2 > s.npix then s.raise .bounds
  else s.unpackAt s.cursor

/-- PACK_BYTE c (R102). -/
def execPackByte (c : Byte) (s : State) : Host.Outcome State Fault Refusal :=
  .next (s.accept (performPackByte c))

/-- UNPACK_BYTE (R104). -/
def execUnpackByte (s : State) : Host.Outcome State Fault Refusal :=
  .next (s.accept performUnpackByte)

end Sys2Proof.Machine
end

