-- ==== Sys2Proof/Machine/Cursor.lean ====
section
/-!
DEFINITION. The pixel cursor's commands (41_cursor.md R89 to R93).
-/
namespace Sys2Proof.Machine

/-- `step1(col, row)` of R89. -/
def step1 (w col row : Nat) : Nat × Nat :=
  if col + 1 = w then (0, row + 1) else (col + 1, row)

/-- One `(CUR_COL, CUR_ROW) <- step1(CUR_COL, CUR_ROW)` (R92, R93). -/
def State.advance (s : State) : State :=
  s.setCursor (step1 s.W s.curCol.toNat s.curRow.toNat)

/-- `repeat n times` of R93. -/
def State.advanceTimes : Nat → State → State
  | 0, s => s
  | n + 1, s => State.advanceTimes n s.advance

/-- What CUR_RESET performs (R91). -/
def performCurReset (s : State) : State := s.setCursor (0, 0)

/-- What CUR_ADVANCE performs (R92). -/
def performCurAdvance (s : State) : State :=
  if s.curRow.toNat ≥ s.H then s.raise .bounds else s.advance

/-- What CUR_ADVANCE_BY n performs (R93): the bounds check comes before the first move. -/
def performCurAdvanceBy (n : Nat) (s : State) : State :=
  if s.cursor + n > s.npix then s.raise .bounds else State.advanceTimes n s

/-- CUR_RESET (R91). -/
def execCurReset (s : State) : Host.Outcome State Fault Refusal :=
  .next (s.accept performCurReset)

/-- CUR_ADVANCE (R92). -/
def execCurAdvance (s : State) : Host.Outcome State Fault Refusal :=
  .next (s.accept performCurAdvance)

/-- CUR_ADVANCE_BY n (R93). -/
def execCurAdvanceBy (n : Nat) (s : State) : Host.Outcome State Fault Refusal :=
  .next (s.accept (performCurAdvanceBy n))

end Sys2Proof.Machine
end

