-- ==== Sys2Proof/Machine/Header.lean ====
section
/-!
DEFINITION. The header frame serializer and parser (44_header.md R116 to R125).
-/
namespace Sys2Proof.Machine

/-- Digit k of a number in base 256, low digit first (R50, R120). -/
def digit256 (n k : Nat) : Byte := BitVec.ofNat 8 (n / 256 ^ k % 256)

/-- `headerBytes(F, name, L)` of R118, with F the length of the name. -/
def headerBytes (name : List Byte) (payloadLength : Nat) : List Byte :=
  Config.magic ++ [digit256 name.length 0, digit256 name.length 1] ++ name
    ++ [digit256 payloadLength 0, digit256 payloadLength 1, digit256 payloadLength 2, digit256 payloadLength 3]

/-- `hbyte(i)` of R118: byte i of the header that the registers and NAME describe. -/
def State.hbyte (s : State) (i : Nat) : Byte :=
  if i < 12 then Config.magicAt i
  else if i = 12 then digit256 s.fnlen.toNat 0
  else if i = 13 then digit256 s.fnlen.toNat 1
  else if i < 14 + s.fnlen.toNat then s.memRead .name (i - 14)
  else digit256 s.paycnt.toNat (i - 14 - s.fnlen.toNat)

/-- The value of little-endian bytes: `b0 + 256·b1 + ...` (R50, R122, R123). -/
def littleEndian : List Byte → Nat
  | [] => 0
  | b :: bs => b.toNat + 256 * littleEndian bs

/-- A parsed frame: the filename, the payload length and the stream after the header (R117). -/
structure Frame where
  name : List Byte
  payloadLength : Nat
  rest : List Byte
  deriving DecidableEq, Repr

/-- The parser of R121 to R123 on a stream of bytes: `none` where the first 12 bytes are not the magic tag or the
stream ends inside the header. -/
def parseFrame (stream : List Byte) : Option Frame :=
  if stream.take 12 ≠ Config.magic then none
  else
    let f := littleEndian ((stream.drop 12).take 2)
    if stream.length < 18 + f then none
    else some
      { name := (stream.drop 14).take f
        payloadLength := littleEndian ((stream.drop (14 + f)).take 4)
        rest := stream.drop (18 + f) }

end Sys2Proof.Machine
end

