-- ==== Sys2Proof/Machine/Planner.lean ====
section
/-!
DEFINITION. The capacity planner (43_planner.md R109 to R112).
-/
namespace Sys2Proof.Machine

/-- The result of `planEncode` (R109), in exact numbers. -/
structure EncodePlan where
  maxB : Nat
  hdr : Nat
  pay : Nat
  warn : Bool
  err : ErrCode
  deriving DecidableEq, Repr

/-- `planEncode(W, H, F, S)` of R109. -/
def planEncode (w h f size : Nat) : EncodePlan :=
  let maxB := w * h / 2
  let hdr := 12 + 2 + f + 4
  if hdr > maxB then
    { maxB := maxB, hdr := hdr, pay := 0, warn := false, err := .capHeader }
  else
    let remaining := maxB - hdr
    { maxB := maxB, hdr := hdr, pay := if size > remaining then remaining else size
      warn := truncWarns size remaining, err := .noError }

/-- `planDecode(W, H)` of R111: maxB, and whether the carrier is too small. -/
def planDecode (w h : Nat) : Nat × ErrCode :=
  (w * h / 2, if w * h < 2 * (12 + 2 + 4) then .capCarrier else .noError)

/-- The plan the registers ask for: W, H, FNLEN and FILESIZE (R110, R129). -/
def State.encodePlan (s : State) : EncodePlan :=
  planEncode s.W s.H s.fnlen.toNat s.filesize.toNat

/-- The four writes of R110 and R129, which survive a raise. -/
def State.writePlan (s : State) (r : EncodePlan) : State :=
  { s with
    maxbytes := BitVec.ofNat 32 r.maxB, hdrcnt := BitVec.ofNat 17 r.hdr
    paycnt := BitVec.ofNat 32 r.pay, truncWarn := r.warn }

/-- The write of R112 and R136, which survives a raise. -/
def State.writeMaxBytes (s : State) (maxB : Nat) : State :=
  { s with maxbytes := BitVec.ofNat 32 maxB }

/-- What PLAN_ENCODE performs (R110). -/
def performPlanEncode (s : State) : State :=
  let r := s.encodePlan
  if r.err ≠ .noError then (s.writePlan r).raise r.err else s.writePlan r

/-- What PLAN_DECODE performs (R112). -/
def performPlanDecode (s : State) : State :=
  let r := planDecode s.W s.H
  if r.2 ≠ .noError then (s.writeMaxBytes r.1).raise r.2 else s.writeMaxBytes r.1

/-- PLAN_ENCODE (R110). -/
def execPlanEncode (s : State) : Host.Outcome State Fault Refusal :=
  .next (s.accept performPlanEncode)

/-- PLAN_DECODE (R112). -/
def execPlanDecode (s : State) : Host.Outcome State Fault Refusal :=
  .next (s.accept performPlanDecode)

end Sys2Proof.Machine
end

