-- ==== Sys2Proof/Machine/Session.lean ====
section
/-!
DEFINITION. The session commands ENCODE and DECODE (45_session.md R126, R127) and the engine's steps (R128 to R141).
-/
namespace Sys2Proof.Machine

/-! ### Session commands -/

/-- What ENCODE performs at acceptance (R126). -/
def performEncode (s : State) : State := { s with seq := .ePlan, mismatch := false, idx := 0 }

/-- What DECODE performs at acceptance (R127). -/
def performDecode (s : State) : State := { s with seq := .dDepth, mismatch := false, idx := 0 }

/-- ENCODE (R126): the command's own effect is acceptance; the session's steps are the engine's (R82). -/
def execEncode (s : State) : Host.Outcome State Fault Refusal :=
  .next (s.accept performEncode)

/-- DECODE (R127): the command's own effect is acceptance; the session's steps are the engine's (R82). -/
def execDecode (s : State) : Host.Outcome State Fault Refusal :=
  .next (s.accept performDecode)

/-! ### Byte movement shared by the steps (R130, R131, R132) -/

/-- `packPair(p, c) ; passPair(p) ; IDX <- IDX + 1` of R131 and R132. -/
def State.packNext (s : State) (p : Nat) (c : Byte) : State :=
  (s.packAt p c).setIdx (s.idx + 1)

/-- `enterDone()` of R133: IDX keeps its value. -/
def State.enterDone (s : State) : State := { s with seq := .done, done := true }

/-! ### The encode steps -/

/-- E_PLAN (R129). -/
def stepEPlan (s : State) : State :=
  let r := s.encodePlan
  if r.err ≠ .noError then (s.writePlan r).raiseInStep r.err
  else ((s.writePlan r).setCursor (0, 0)).goto .eHdr

/-- E_HDR (R131). -/
def stepEHdr (s : State) : State :=
  s.withPair fun p =>
    let t := s.packNext p (s.hbyte s.idx.toNat)
    if t.idx.toNat = t.hdrcnt.toNat then t.goto .ePay else t

/-- E_PAY (R132). -/
def stepEPay (s : State) : State :=
  if s.idx = s.paycnt then s.enterDone
  else s.withPair fun p => s.packNext p (s.memRead .pay s.idx.toNat)

/-! ### The decode steps -/

/-- D_DEPTH (R135). -/
def stepDDepth (s : State) : State :=
  if s.alphaPresent then s.goto .dSize else s.raiseInStep .fmtDepth

/-- D_SIZE (R136). -/
def stepDSize (s : State) : State :=
  let r := planDecode s.W s.H
  if r.2 ≠ .noError then (s.writeMaxBytes r.1).raiseInStep r.2
  else ((s.writeMaxBytes r.1).setCursor (0, 0)).goto .dMagic

/-- A magic byte taken: MISMATCH and IDX move on (R137). -/
def State.takeMagicByte (s : State) (c : Byte) : State :=
  { s with mismatch := mismatchAfter s.mismatch c s.idx.toNat, idx := s.idx + 1 }

/-- The verdict after the twelfth magic byte (R137, R121). -/
def State.magicVerdict (s : State) : State :=
  if s.idx = 12 then
    if s.mismatch then s.raiseInStep .fmtMagic else s.goto .dHdr
  else s

/-- D_MAGIC (R137): all 12 bytes are read before the verdict. -/
def stepDMagic (s : State) : State :=
  s.withPair fun p => ((s.passPair p).takeMagicByte (unpackPair p s.car)).magicVerdict

/-- The first byte of the filename length (R139, IDX = 0). -/
def State.takeFnlenLow (s : State) (c : Byte) : State :=
  { s with fnlen := BitVec.ofNat 16 c.toNat, idx := 1 }

/-- The writes of R139 at IDX = 1: FNLEN is complete, and HDRCNT follows from it. -/
def State.writeFnlenHigh (s : State) (c : Byte) : State :=
  let f : BitVec 16 := BitVec.ofNat 16 (s.fnlen.toNat + 256 * c.toNat)
  { s with fnlen := f, hdrcnt := BitVec.ofNat 17 (18 + f.toNat) }

/-- The second byte of the filename length (R139, IDX = 1), with the first CAP_OVERRUN check, which comes after the
writes of FNLEN and HDRCNT and before the write of IDX. -/
def State.takeFnlenHigh (s : State) (c : Byte) : State :=
  let t := s.writeFnlenHigh c
  if t.hdrcnt.toNat > t.maxbytes.toNat then t.raiseInStep .capOverrun
  else t.setIdx 2

/-- A filename byte (R139, 2 ≤ IDX < 2 + FNLEN). -/
def State.takeNameByte (s : State) (c : Byte) : State :=
  (s.memWrite .name (s.idx.toNat - 2) c).setIdx (s.idx + 1)

/-- The write of R139 at IDX = 2 + FNLEN + k: digit k of PAYCNT. -/
def State.writePaylen (s : State) (k : Nat) (c : Byte) : State :=
  { s with paycnt := BitVec.ofNat 32 (if k = 0 then c.toNat else s.paycnt.toNat + c.toNat * 256 ^ k) }

/-- A byte of the payload length (R139, IDX ≥ 2 + FNLEN), with the second CAP_OVERRUN check after the fourth. -/
def State.takePaylen (s : State) (c : Byte) : State :=
  let k := s.idx.toNat - 2 - s.fnlen.toNat
  let t := s.writePaylen k c
  if k < 3 then t.setIdx (s.idx + 1)
  else if t.hdrcnt.toNat + t.paycnt.toNat > t.maxbytes.toNat then t.raiseInStep .capOverrun
  else t.goto .dSkip

/-- D_HDR (R139). -/
def stepDHdr (s : State) : State :=
  s.withPair fun p =>
    let c := unpackPair p s.car
    let t := s.passPair p
    if s.idx = 0 then t.takeFnlenLow c
    else if s.idx = 1 then t.takeFnlenHigh c
    else if s.idx.toNat < 2 + s.fnlen.toNat then t.takeNameByte c
    else t.takePaylen c

/-- D_SKIP (R140). -/
def stepDSkip (s : State) : State :=
  let n := 2 * s.hdrcnt.toNat
  if n > s.npix then s.raiseInStep .bounds
  else (s.setCursor (pix s.W n)).goto .dPay

/-- D_PAY (R141). -/
def stepDPay (s : State) : State :=
  if s.idx = s.paycnt then s.enterDone
  else s.withPair fun p =>
    ((s.passPair p).memWrite .pay s.idx.toNat (unpackPair p s.car)).setIdx (s.idx + 1)

/-! ### Scheduling -/

/-- The engine's one enabled step (R128): the rule for the current SESSION.STATE, and none in IDLE, DONE and ABORT. -/
def engineStep (s : State) : State :=
  match s.seq with
  | .idle => s
  | .ePlan => stepEPlan s
  | .eHdr => stepEHdr s
  | .ePay => stepEPay s
  | .dDepth => stepDDepth s
  | .dSize => stepDSize s
  | .dMagic => stepDMagic s
  | .dHdr => stepDHdr s
  | .dSkip => stepDSkip s
  | .dPay => stepDPay s
  | .done => s
  | .abort => s

end Sys2Proof.Machine
end

