-- ==== Sys2Proof/Machine/Dispatch.lean ====
section
/-!
DEFINITION. The dispatch of commands to their meanings: one arm per constructor of Instr.
-/
namespace Sys2Proof.Machine

/-- What a command does in a state, acceptance included (40_control.md R81). -/
def exec (i : Instr) (s : State) : Host.Outcome State Fault Refusal :=
  match i with
  | .nop => Sys2Proof.Machine.execNop s
  | .clrStatus => Sys2Proof.Machine.execClrStatus s
  | .curReset => Sys2Proof.Machine.execCurReset s
  | .curAdvance => Sys2Proof.Machine.execCurAdvance s
  | .curAdvanceBy n => Sys2Proof.Machine.execCurAdvanceBy n s
  | .packByte c => Sys2Proof.Machine.execPackByte c s
  | .unpackByte => Sys2Proof.Machine.execUnpackByte s
  | .planEncode => Sys2Proof.Machine.execPlanEncode s
  | .planDecode => Sys2Proof.Machine.execPlanDecode s
  | .encode => Sys2Proof.Machine.execEncode s
  | .decode => Sys2Proof.Machine.execDecode s

end Sys2Proof.Machine
end

