-- ==== Sys2Proof/Machine/Window.lean ====
section
/-!
DEFINITION. The host's side of the block: the register window (10_state.md R17 to R40), the command register (R19),
the host's accesses to the byte spaces (20_memory.md R46, R62), and what one turn does (40_control.md R85).
-/
namespace Sys2Proof.Machine

/-- The registers of the window, by name (R17). -/
inductive Reg where
  | cmd
  | status
  | session
  | idx
  | width
  | height
  | cfg
  | curCol
  | curRow
  | fnlen
  | filesize
  | maxbytes
  | hdrcnt
  | paycnt
  | dataOut
  | reserved
  deriving DecidableEq, Repr

/-- The offset of a register (R17). -/
def Reg.offset : Reg → Nat
  | .cmd => 0x00
  | .status => 0x04
  | .session => 0x08
  | .idx => 0x0C
  | .width => 0x10
  | .height => 0x14
  | .cfg => 0x18
  | .curCol => 0x1C
  | .curRow => 0x20
  | .fnlen => 0x24
  | .filesize => 0x28
  | .maxbytes => 0x2C
  | .hdrcnt => 0x30
  | .paycnt => 0x34
  | .dataOut => 0x38
  | .reserved => 0x3C

/-- The registers in the order of their offsets (R17). -/
def Reg.all : List Reg :=
  [.cmd, .status, .session, .idx, .width, .height, .cfg, .curCol, .curRow, .fnlen, .filesize, .maxbytes, .hdrcnt,
   .paycnt, .dataOut, .reserved]

/-- The register an access reaches: 32 bits wide, at a multiple of 4 below 0x40 (R18). Any other access reaches
none. -/
def regAt (offset nbytes : Nat) : Option Reg :=
  if nbytes = 4 ∧ offset % 4 = 0 then Reg.all[offset / 4]? else none

/-- The word a read of a register gives (R17): a field in its place, every other bit 0. CMD and the reserved word
hold nothing (R19, R39). -/
def State.readReg (s : State) : Reg → Word
  | .cmd => 0
  | .status => s.statusWord
  | .session => s.sessionWord
  | .idx => s.idx
  | .width => s.width.setWidth 32
  | .height => s.height.setWidth 32
  | .cfg => BitVec.ofNat 32 s.alphaPresent.toNat
  | .curCol => s.curCol.setWidth 32
  | .curRow => s.curRow.setWidth 32
  | .fnlen => s.fnlen.setWidth 32
  | .filesize => s.filesize
  | .maxbytes => s.maxbytes
  | .hdrcnt => s.hdrcnt.setWidth 32
  | .paycnt => s.paycnt
  | .dataOut => s.dataOut.setWidth 32
  | .reserved => 0

/-- A word delivered to CMD (R19, R81): a legal word runs its command, an illegal one is accepted as illegal. -/
def issueWord (w : Word) (s : State) : Host.Outcome State Fault Refusal :=
  match decode w with
  | .ok i => exec i s
  | .error _ => .next s.acceptIllegal

/-- A host write to a read-write register: dropped while BUSY = 1 (R40), else it takes effect (R28 to R34). -/
def State.hostWrite (s : State) (effect : State → State) : State :=
  if s.busy then s.markDropped else effect s

/-- A host write of `data` to a register. A write to a read-only register or to the reserved word has no effect
and does not set DROPPED (R18). -/
def writeReg (r : Reg) (data : Word) (s : State) : Host.Outcome State Fault Refusal :=
  match r with
  | .cmd => issueWord data s
  | .status => .next s
  | .session => .next s
  | .idx => .next s
  | .width => .next (s.hostWrite fun s => { s with width := data.setWidth 16 }.setCursor (0, 0))
  | .height => .next (s.hostWrite fun s => { s with height := data.setWidth 16 }.setCursor (0, 0))
  | .cfg => .next (s.hostWrite fun s => { s with alphaPresent := data.getLsbD 0 })
  | .curCol => .next s
  | .curRow => .next s
  | .fnlen => .next (s.hostWrite fun s => { s with fnlen := data.setWidth 16 })
  | .filesize => .next (s.hostWrite fun s => { s with filesize := data })
  | .maxbytes => .next s
  | .hdrcnt => .next s
  | .paycnt => .next s
  | .dataOut => .next s
  | .reserved => .next s

/-- A host access to a byte space: not while BUSY = 1 (R62, R178 row 10), and not outside the space (R45). -/
def State.hostByte (s : State) (sp : Space) (a : Nat) (k : State) : Host.Outcome State Fault Refusal :=
  if s.busy then .fault .hostMemoryWhileBusy
  else if a ≥ Config.spaceSize sp then .fault .addressOutsideSpace
  else .next k

/-- What one turn does, in a state whose `turns` no longer holds it (R85, R128, R168). The engine's turn does
nothing while BUSY = 0, because the engine has no step then (R128). A POLL that finds BUSY = 1 lets the engine step
and stays the next turn; one that finds BUSY = 0 ends with the STATUS word it read (R74, R181). -/
def runTurn (t : Turn) (s : State) : Host.Outcome State Fault Refusal :=
  match t with
  | .regRead offset nbytes =>
    match regAt offset nbytes with
    | some r => .next (s.give (s.readReg r))
    | none => .refused .registerAccess
  | .regWrite offset nbytes data =>
    match regAt offset nbytes with
    | some r => writeReg r data s
    | none => .refused .registerAccess
  | .memRead sp a => s.hostByte sp a (s.give ((s.memRead sp a).setWidth 32))
  | .memWrite sp a v => s.hostByte sp a (s.memWrite sp a v)
  | .poll =>
    if s.busy then .next ((engineStep s).withTurns (.poll :: s.turns))
    else .next (s.give s.statusWord)
  | .engine => .next (engineStep s)
  | .reset => .next s.resetBlock

/-- One transition: the next turn if one is listed; else the engine's step, which is no change while BUSY = 0, for
the run has then ended (R179). -/
def nextTransition (s : State) : Host.Outcome State Fault Refusal :=
  match s.turns with
  | [] => .next (engineStep s)
  | t :: rest => runTurn t (s.withTurns rest)

end Sys2Proof.Machine
end

