-- ==== Sys2Proof/Machine/Step.lean ====
section
/-!
DEFINITION. One step of the machine, and how a command word is put where the next step takes it.
-/
namespace Sys2Proof.Machine

/-- One step (40_control.md R85, 45_session.md R128, 70_reset_and_hazards.md R168). -/
def step (s : State) : Host.Outcome State Fault Refusal := nextTransition s

/-- The command word `w` as the host's very next action: a 32-bit write of it to CMD (R19). The block fetches
nothing (R42, R64), so this is how a command reaches it; bits above bit 31 belong to no command (R72). -/
def State.withFetchWord (s : State) (_nbits w : Nat) : State :=
  s.withTurns (.regWrite 0x00 4 (BitVec.ofNat 32 w) :: s.turns)

end Sys2Proof.Machine
end

