-- ==== Sys2Proof/Machine/Program.lean ====
section
/-!
DEFINITION. How host programs are written (30_encoding.md R73 to R75, 70_reset_and_hazards.md R171, R172): the
assembler's checks and text, host actions, and pseudo-instructions, each with the turns it stands for. None of these is a command (R74, R75), and a
program enters the machine as a list of turns (log 2).
-/
namespace Sys2Proof.Machine

/-- Why the assembler refuses a line (R73). -/
inductive AsmError where
  | unknownMnemonic
  | missingOperand
  | surplusOperand
  | operandTooLarge
  | badNumber
  deriving DecidableEq, Repr

/-- A command of format F0 takes no operand (R73). -/
def asmF0 (i : Instr) : List Nat → Except AsmError Instr
  | [] => .ok i
  | _ :: _ => .error .surplusOperand

/-- A command of format F8 or F24 takes one operand, at most `bound` (R73). -/
def asmOne (bound : Nat) (f : Nat → Instr) : List Nat → Except AsmError Instr
  | [] => .error .missingOperand
  | [n] => if n ≤ bound then .ok (f n) else .error .operandTooLarge
  | _ :: _ :: _ => .error .surplusOperand

/-- The command that a mnemonic and its operands name (R73). -/
def assemble (mnemonic : List Char) (operands : List Nat) : Except AsmError Instr :=
  if mnemonic = "NOP".toList then asmF0 .nop operands
  else if mnemonic = "CLR_STATUS".toList then asmF0 .clrStatus operands
  else if mnemonic = "CUR_RESET".toList then asmF0 .curReset operands
  else if mnemonic = "CUR_ADVANCE".toList then asmF0 .curAdvance operands
  else if mnemonic = "CUR_ADVANCE_BY".toList then asmOne 16777215 .curAdvanceBy operands
  else if mnemonic = "PACK_BYTE".toList then asmOne 255 (fun n => .packByte (BitVec.ofNat 8 n)) operands
  else if mnemonic = "UNPACK_BYTE".toList then asmF0 .unpackByte operands
  else if mnemonic = "PLAN_ENCODE".toList then asmF0 .planEncode operands
  else if mnemonic = "PLAN_DECODE".toList then asmF0 .planDecode operands
  else if mnemonic = "ENCODE".toList then asmF0 .encode operands
  else if mnemonic = "DECODE".toList then asmF0 .decode operands
  else .error .unknownMnemonic

/-- The value of a hexadecimal digit; a decimal digit is one below 10 (R73). -/
def digitValue (c : Char) : Option Nat :=
  if '0'.toNat ≤ c.toNat ∧ c.toNat ≤ '9'.toNat then some (c.toNat - '0'.toNat)
  else if 'a'.toNat ≤ c.toNat ∧ c.toNat ≤ 'f'.toNat then some (c.toNat - 'a'.toNat + 10)
  else if 'A'.toNat ≤ c.toNat ∧ c.toNat ≤ 'F'.toNat then some (c.toNat - 'A'.toNat + 10)
  else none

/-- The number that digits of a base write, most significant first. -/
def digitsValue (base : Nat) (acc : Nat) : List Char → Option Nat
  | [] => some acc
  | c :: cs =>
    match digitValue c with
    | some d => if d < base then digitsValue base (acc * base + d) cs else none
    | none => none

/-- An operand: decimal, or hexadecimal with `0x` (R73). -/
def parseNumber : List Char → Option Nat
  | [] => none
  | ['0', 'x'] => none
  | '0' :: 'x' :: cs => digitsValue 16 0 cs
  | cs => digitsValue 10 0 cs

/-- The words of a line, without its comment, which `;` starts (R73). -/
def lineWords : List Char → List (List Char)
  | [] => []
  | ';' :: _ => []
  | ' ' :: cs => [] :: lineWords cs
  | c :: cs =>
    match lineWords cs with
    | [] => [[c]]
    | w :: ws => (c :: w) :: ws

/-- One line of a command program: no command on a line of spaces and comment, else one command (R73). -/
def assembleLine (line : List Char) : Except AsmError (Option Instr) :=
  match (lineWords line).filter (fun w => !w.isEmpty) with
  | [] => .ok none
  | mnemonic :: operands =>
    match operands.mapM parseNumber with
    | none => .error .badNumber
    | some ns => (assemble mnemonic ns).map some

/-- Host actions (R74) and pseudo-instructions (R75). -/
inductive HostAction where
  /-- `WR REG, v` -/
  | wr (r : Reg) (v : Word)
  /-- `RD REG` -/
  | rd (r : Reg)
  /-- `POLL` -/
  | poll
  /-- `LOAD space[a..b) = bytes` -/
  | load (sp : Space) (a : Nat) (bytes : List Byte)
  /-- a command on its own line, for `WR CMD, <its encoding>` -/
  | command (i : Instr)
  /-- `SEEK p` -/
  | seek (p : Nat)
  /-- `SKIP_HEADER f` -/
  | skipHeader (f : Nat)
  /-- `PACK_STR b0, b1, ...` -/
  | packStr (bytes : List Byte)
  /-- `UNPACK_N k` -/
  | unpackN (k : Nat)
  /-- `RUN_ENCODE` -/
  | runEncode
  /-- `RUN_DECODE` -/
  | runDecode
  deriving DecidableEq, Repr

/-- The condition R75 puts on a pseudo-instruction, and R73 on a command. -/
def HostAction.wellFormed : HostAction → Bool
  | .wr _ _ => true
  | .rd _ => true
  | .poll => true
  | .load _ _ _ => true
  | .command i => i.wellFormed
  | .seek p => decide (p ≤ 16777215)
  | .skipHeader f => decide (f ≤ 65535)
  | .packStr _ => true
  | .unpackN _ => true
  | .runEncode => true
  | .runDecode => true

/-- A 32-bit access to a register (R18, R74). -/
def Reg.writeTurn (r : Reg) (v : Word) : Turn := .regWrite r.offset 4 v

/-- A 32-bit read of a register (R18, R74). -/
def Reg.readTurn (r : Reg) : Turn := .regRead r.offset 4

/-- `WR CMD, <encoding>` (R74). -/
def commandTurn (i : Instr) : Turn := Reg.cmd.writeTurn (encode i)

/-- `LOAD`, byte by byte (R74, R85). -/
def loadTurns (sp : Space) : Nat → List Byte → List Turn
  | _, [] => []
  | a, b :: bs => .memWrite sp a b :: loadTurns sp (a + 1) bs

/-- The expansion of R75, in turns. -/
def HostAction.turns : HostAction → List Turn
  | .wr r v => [r.writeTurn v]
  | .rd r => [r.readTurn]
  | .poll => [.poll]
  | .load sp a bytes => loadTurns sp a bytes
  | .command i => [commandTurn i]
  | .seek p => [commandTurn .curReset, commandTurn (.curAdvanceBy p)]
  | .skipHeader f => [commandTurn (.curAdvanceBy (2 * (18 + f)))]
  | .packStr bytes => bytes.map fun b => commandTurn (.packByte b)
  | .unpackN k => (List.replicate k [commandTurn .unpackByte, Reg.dataOut.readTurn]).flatten
  | .runEncode => [commandTurn .encode, .poll]
  | .runDecode => [commandTurn .decode, .poll]

/-- The FILESIZE the host writes for a payload file of this size: larger sizes than the register holds are written as
its largest value (R34, R171, R178). -/
def clampFileSize (size : Nat) : Word := BitVec.ofNat 32 (min size (2 ^ 32 - 1))

/-- The host program of R171 for an ENCODE. -/
def encodeProgram (w h : BitVec 16) (carrier name payload : List Byte) : List HostAction :=
  [.load .car 0 carrier, .load .name 0 name, .load .pay 0 payload,
   .wr .width (w.setWidth 32), .wr .height (h.setWidth 32), .wr .fnlen (BitVec.ofNat 32 name.length),
   .wr .filesize (clampFileSize payload.length), .runEncode, .rd .status]

/-- The host program of R172 for a DECODE, up to the reads of NAME and PAY, whose extent FNLEN and PAYCNT tell. -/
def decodeProgram (w h : BitVec 16) (alphaPresent : Bool) (carrier : List Byte) : List HostAction :=
  [.load .car 0 carrier, .wr .width (w.setWidth 32), .wr .height (h.setWidth 32),
   .wr .cfg (BitVec.ofNat 32 alphaPresent.toNat), .runDecode, .rd .status, .rd .fnlen, .rd .paycnt]

/-- The turns of a host program (R74, R75). -/
def programTurns (p : List HostAction) : List Turn := p.flatMap HostAction.turns

end Sys2Proof.Machine
end

