-- ==== Sys2Proof/Safety.lean ====
section
/-!
DEFINITION. The terms that claims use: command acceptance written out as R81 writes it, runs of the engine, the
encoded stream, the cursor invariant (R32) and the invariant of a whole run.
-/
namespace Sys2Proof.Machine

/-! ### Acceptance, as 40_control.md R81 writes it -/

/-- Step 7 of R81: `perform r with its operand`. NOP and CLR_STATUS return at steps 2 and 3. -/
def perform : Instr → State → State
  | .nop => id
  | .clrStatus => State.clearStatus
  | .curReset => performCurReset
  | .curAdvance => performCurAdvance
  | .curAdvanceBy n => performCurAdvanceBy n
  | .packByte c => performPackByte c
  | .unpackByte => performUnpackByte
  | .planEncode => performPlanEncode
  | .planDecode => performPlanDecode
  | .encode => performEncode
  | .decode => performDecode

/-- The pseudocode of R81, line by line, on the word itself. -/
def acceptanceR81 (w : Word) (s : State) : State :=
  if s.busy then
    if w ≠ 0x00000000 then { s with dropped := true } else s
  else if w = 0x00000000 then s
  else if w = 0x01000000 then s.clearStatus
  else if s.err ≠ .noError then { s with dropped := true }
  else
    let s1 := { s with done := false }
    match decode w with
    | .error _ => { s1 with err := .illegal }
    | .ok i =>
      if s1.width = 0 ∨ s1.height = 0 then { s1 with err := .config }
      else perform i s1

/-- When a command other than NOP and CLR_STATUS reaches step 7 of R81. -/
def State.ready (s : State) : Prop :=
  s.busy = false ∧ s.err = .noError ∧ s.width ≠ 0 ∧ s.height ≠ 0

/-- When such a command stops at step 6 of R81. -/
def State.zeroGeometry (s : State) : Prop :=
  s.busy = false ∧ s.err = .noError ∧ (s.width = 0 ∨ s.height = 0)

/-- The same command run again and again, each run in the state the one before left. -/
def execTimes (i : Instr) : Nat → State → Host.Outcome State Fault Refusal
  | 0, s => .next s
  | n + 1, s =>
    match exec i s with
    | .next t => execTimes i n t
    | .fault r => .fault r
    | .refused r => .refused r

/-! ### Runs of the engine and the stream (45_session.md) -/

/-- `k` steps of the engine (R128). -/
def engineRun : Nat → State → State
  | 0, s => s
  | k + 1, s => engineRun k (engineStep s)

/-- The first `n` bytes of a space. -/
def State.bytes (s : State) (sp : Space) (n : Nat) : List Byte :=
  (List.range n).map (s.memRead sp)

/-- The stream S of R134: `headerBytes(FNLEN, NAME[0..FNLEN), L) ∥ PAY[0..L)`. -/
def State.stream (s : State) (L : Nat) : List Byte :=
  headerBytes (s.bytes .name s.fnlen.toNat) L ++ s.bytes .pay L

/-! ### Invariants -/

/-- The cursor invariant of R32; with a zero geometry the cursor is at the origin (R28, R29). -/
def State.CursorOk (s : State) : Prop :=
  if s.W = 0 ∨ s.H = 0 then s.curCol = 0 ∧ s.curRow = 0
  else s.curCol.toNat < s.W ∧ s.curRow.toNat ≤ s.H ∧ (s.curRow.toNat = s.H → s.curCol = 0)

/-- Every listed address is an address of the space (R45). -/
def Memory.inside (m : Memory) (size : Nat) : Prop := ∀ c ∈ m, c.1 < size

/-- The three memories are canonical and inside their spaces. -/
def State.MemOk (s : State) : Prop :=
  ∀ sp, (s.memory sp).wf = true ∧ (s.memory sp).inside (Config.spaceSize sp)

/-- The plan of the running session fits the carrier (R109, R139). -/
def State.Planned (s : State) : Prop :=
  s.maxbytes.toNat = s.npix / 2 ∧ s.hdrcnt.toNat = 18 + s.fnlen.toNat
    ∧ s.hdrcnt.toNat + s.paycnt.toNat ≤ s.maxbytes.toNat

/-- Where the sequencer stands in the stream: the cursor is two pixels past for each byte moved (R103, R138, R142),
and what has been parsed so far fits (R139). -/
def State.SeqOk (s : State) : Prop :=
  match s.seq with
  | .idle => True
  | .ePlan => True
  | .eHdr => s.Planned ∧ s.idx.toNat < s.hdrcnt.toNat ∧ s.cursor = 2 * s.idx.toNat
  | .ePay => s.Planned ∧ s.idx.toNat ≤ s.paycnt.toNat ∧ s.cursor = 2 * (s.hdrcnt.toNat + s.idx.toNat)
  | .dDepth => True
  | .dSize => True
  | .dMagic => s.maxbytes.toNat = s.npix / 2 ∧ 18 ≤ s.maxbytes.toNat ∧ s.idx.toNat < 12
      ∧ s.cursor = 2 * s.idx.toNat
  | .dHdr => s.maxbytes.toNat = s.npix / 2 ∧ 18 ≤ s.maxbytes.toNat
      ∧ s.cursor = 2 * (12 + s.idx.toNat)
      ∧ (s.idx.toNat = 1 → s.fnlen.toNat < 256)
      ∧ (2 ≤ s.idx.toNat → s.hdrcnt.toNat = 18 + s.fnlen.toNat ∧ s.hdrcnt.toNat ≤ s.maxbytes.toNat
          ∧ s.idx.toNat < 6 + s.fnlen.toNat)
      ∧ (2 + s.fnlen.toNat < s.idx.toNat → s.paycnt.toNat < 256 ^ (s.idx.toNat - 2 - s.fnlen.toNat))
  | .dSkip => s.Planned ∧ s.cursor = 2 * s.hdrcnt.toNat
  | .dPay => s.Planned ∧ s.idx.toNat ≤ s.paycnt.toNat ∧ s.cursor = 2 * (s.hdrcnt.toNat + s.idx.toNat)
  | .done => True
  | .abort => True

/-- STATUS and SESSION agree: an error means the engine is idle (R42), IO is never raised (R152), DONE means the
session is in state DONE without error (R22), ABORT means an error (R13), a mismatch is seen only by the magic
compare and its abort (R26), and a running session has a geometry (R81). -/
def State.StatusOk (s : State) : Prop :=
  (s.err ≠ .noError → s.busy = false) ∧ s.err ≠ .io
    ∧ (s.done = true → s.seq = .done ∧ s.err = .noError)
    ∧ (s.seq = .abort → s.err ≠ .noError)
    ∧ (s.mismatch = true → s.seq = .dMagic ∨ s.seq = .abort)
    ∧ (s.busy = true → s.width ≠ 0 ∧ s.height ≠ 0)

/-- The invariant of a run. -/
structure State.Inv (s : State) : Prop where
  mem : s.MemOk
  cursorOk : s.CursorOk
  statusOk : s.StatusOk
  seqOk : s.SeqOk

/-! ### Safe runs -/

/-- The host keeps its duty in the next step (R178 row 10, R18): the step neither faults nor is refused. -/
def State.safeStep (s : State) : Prop := ∃ t, step s = .next t

end Sys2Proof.Machine
end

