-- ==== Sys2Proof/Certificates/Slice0/Obligations.lean ====
section
/-!
DEFINITION. The statements for the provers. Each docstring names the rule of spec/ it formalises.
-/
open Sys2Proof Sys2Proof.Machine

/-! ### The command word -/

/-- R65 to R67, R73: decoding the encoding of a well-formed command gives the command, operand and all. -/
def Obligations.DecodeOfEncodeIsTheCommand : Prop :=
  ∀ i : Instr, i.wellFormed = true → decode (encode i) = .ok i

/-- R65 to R68, R73: a word that decodes is the encoding of the command it decodes to, and that command is well
formed, so no bit of a legal word is dropped. -/
def Obligations.EncodeOfDecodeIsTheWord : Prop :=
  ∀ (w : Word) (i : Instr), decode w = .ok i → encode i = w ∧ i.wellFormed = true

/-- R69: the decoded command is the one row of the opcode map whose match the masked word equals, and a word that
selects no row is illegal. -/
def Obligations.DecodedRowIsTheOneSelected : Prop :=
  ∀ w : Word, (opcodeRows.filter fun r => w &&& r.mask == r.matchBits).map OpcodeRow.mnemonic =
    match decode w with
    | .ok i => [i.mnemonic]
    | .error _ => []

/-- R70: the two kinds of illegal word, and what accepting one does. -/
def Obligations.IllegalWordsRaiseIllegal : Prop :=
  ∀ w : Word,
    (decode w = .error .unassignedOpcode ↔
      let opc := w.toNat / 2 ^ 24
      (0x05 ≤ opc ∧ opc ≤ 0x0F) ∨ (0x12 ≤ opc ∧ opc ≤ 0x1F) ∨ (0x22 ≤ opc ∧ opc ≤ 0x2F) ∨ (0x32 ≤ opc ∧ opc ≤ 0xFF))
    ∧ (decode w = .error .mustBeZero ↔
      let opc := w.toNat / 2 ^ 24
      (opc ∈ [0x00, 0x01, 0x02, 0x03, 0x11, 0x20, 0x21, 0x30, 0x31] ∧ w.toNat % 2 ^ 24 ≠ 0)
        ∨ (opc = 0x10 ∧ w.toNat / 2 ^ 8 % 2 ^ 16 ≠ 0))
    ∧ ∀ (e : IllegalWord) (s : State), decode w = .error e →
      issueWord w s =
        .next (if s.busy = true ∨ s.err ≠ .noError then { s with dropped := true }
          else { s with done := false, err := .illegal })

/-- R68, R70, on a few words written out from the opcode map: one of each format, an unassigned opcode, and a set
must-be-zero bit of each kind. -/
def Obligations.SpecWordsDecodeAsWritten : Prop :=
  decode 0x00000000 = .ok .nop ∧ decode 0x01000000 = .ok .clrStatus ∧ decode 0x04000024 = .ok (.curAdvanceBy 36)
    ∧ decode 0x10000041 = .ok (.packByte 0x41) ∧ decode 0x21000000 = .ok .planDecode
    ∧ decode 0x31000000 = .ok .decode ∧ decode 0xFF000000 = .error .unassignedOpcode
    ∧ decode 0x10000100 = .error .mustBeZero ∧ decode 0x11000001 = .error .mustBeZero

/-! ### Command acceptance and control -/

/-- R81: a word delivered to CMD does what the pseudocode of R81 says. -/
def Obligations.AcceptanceFollowsR81 : Prop :=
  ∀ (w : Word) (s : State), issueWord w s = .next (acceptanceR81 w s)

/-- R19, R85: when the next turn is a 32-bit write of a legal word to CMD, the step is the meaning of the command
that the word decodes to, in the state without that turn. (The list of turns is
the model's own, log 2.) -/
def Obligations.StepRunsTheDecodedCommand : Prop :=
  ∀ (s : State) (w : Word) (rest : List Turn) (i : Instr),
    s.turns = .regWrite 0x00 4 w :: rest → decode w = .ok i → step s = exec i { s with turns := rest }

/-- R19, R73: writing the encoding of a well-formed command to CMD runs that command. (The list of turns is the model's
own, log 2.) -/
def Obligations.StepRunsAnEncodedCommand : Prop :=
  ∀ (s : State) (i : Instr), i.wellFormed = true →
    step (s.withFetchWord 32 (encode i).toNat) = exec i s

/-- R82, R28 to R34, R48, R49: no command stops the machine (each acceptance is one complete transition of the block,
R82), and no command writes a read-write register, NAME or PAY. (That it leaves the turns to come and the record of
reads is about fields of the model's own, logs 2 and 3.) -/
def Obligations.CommandsAnswerAndKeepHostRegisters : Prop :=
  ∀ (i : Instr) (s : State), ∃ t, exec i s = .next t
    ∧ t.width = s.width ∧ t.height = s.height ∧ t.alphaPresent = s.alphaPresent ∧ t.fnlen = s.fnlen
    ∧ t.filesize = s.filesize ∧ t.name = s.name ∧ t.pay = s.pay ∧ t.turns = s.turns ∧ t.got = s.got

/-- R25, R82, D39: the commands other than CLR_STATUS, ENCODE and DECODE leave SESSION and IDX as they are, even
when they raise. -/
def Obligations.PrimitiveCommandsLeaveTheSession : Prop :=
  ∀ (i : Instr) (s t : State), i ≠ .clrStatus → i ≠ .encode → i ≠ .decode → exec i s = .next t →
    t.seq = s.seq ∧ t.mismatch = s.mismatch ∧ t.idx = s.idx

/-- R24, R40, R159: a command other than NOP while BUSY = 1, and one other than NOP and CLR_STATUS while ERR ≠ 0,
changes nothing but DROPPED. -/
def Obligations.DroppedCommandOnlySetsDropped : Prop :=
  ∀ (i : Instr) (s : State), i ≠ .nop → (s.busy = true ∨ (s.err ≠ .noError ∧ i ≠ .clrStatus)) →
    exec i s = .next { s with dropped := true }

/-- R83: NOP changes nothing, in every state, and the words 0x00000001 to 0x00FFFFFF are not NOP. -/
def Obligations.NopDoesNothing : Prop :=
  encode .nop = 0x00000000 ∧ (∀ s : State, exec .nop s = .next s)
    ∧ ∀ w : Word, 0x00000001 ≤ w.toNat → w.toNat ≤ 0x00FFFFFF → decode w = .error .mustBeZero

/-- R84: CLR_STATUS in every state: dropped while BUSY = 1, else it clears ERR, TRUNC_WARN, DONE, DROPPED, STATE,
MISMATCH and IDX and keeps everything else. -/
def Obligations.ClrStatusReturnsToIdle : Prop :=
  encode .clrStatus = 0x01000000 ∧ ∀ s : State,
    (s.busy = true → exec .clrStatus s = .next { s with dropped := true })
    ∧ (s.busy = false → exec .clrStatus s = .next
        { s with
          err := .noError, truncWarn := false, done := false, dropped := false
          seq := .idle, mismatch := false, idx := 0 })

/-! ### Cursor commands -/

/-- R91: CUR_RESET moves the cursor to (0,0), clears DONE and keeps everything else; with a zero geometry it raises
CONFIG. -/
def Obligations.CurResetMovesToOrigin : Prop :=
  encode .curReset = 0x02000000 ∧ ∀ s : State,
    (s.ready → exec .curReset s = .next { s with done := false, curCol := 0, curRow := 0 })
    ∧ (s.zeroGeometry → exec .curReset s = .next { s with done := false, err := .config })

/-- R92: CUR_ADVANCE moves the cursor one pixel, to column 0 of the next row from the last column; from row H it raises
BOUNDS and does not move; with a zero geometry it raises CONFIG. Everything else but DONE is kept. -/
def Obligations.CurAdvanceMovesOnePixel : Prop :=
  encode .curAdvance = 0x03000000 ∧ ∀ s : State,
    (s.ready → s.curRow.toNat < s.height.toNat → exec .curAdvance s = .next
      { s with
        done := false
        curCol := if s.curCol.toNat + 1 = s.width.toNat then 0 else s.curCol + 1
        curRow := if s.curCol.toNat + 1 = s.width.toNat then s.curRow + 1 else s.curRow })
    ∧ (s.ready → s.height.toNat ≤ s.curRow.toNat →
        exec .curAdvance s = .next { s with done := false, err := .bounds })
    ∧ (s.zeroGeometry → exec .curAdvance s = .next { s with done := false, err := .config })

/-- R94: from linear index p, CUR_ADVANCE_BY n with p + n ≤ NPIX gives the cursor pix(p + n), and SEEK p, which is
CUR_RESET and then CUR_ADVANCE_BY p, reaches pix(p) for every p ≤ NPIX. -/
def Obligations.CurAdvanceByReachesPix : Prop :=
  ∀ (s : State) (n : Nat), s.ready → s.CursorOk →
    (s.cursor + n ≤ s.npix → exec (.curAdvanceBy n) s = .next
      { s with
        done := false
        curCol := BitVec.ofNat 16 ((s.cursor + n) % s.width.toNat)
        curRow := BitVec.ofNat 17 ((s.cursor + n) / s.width.toNat) })
    ∧ (n ≤ s.npix → ∃ t, exec .curReset s = .next t ∧ exec (.curAdvanceBy n) t = .next
      { s with
        done := false
        curCol := BitVec.ofNat 16 (n % s.width.toNat)
        curRow := BitVec.ofNat 17 (n / s.width.toNat) })

/-- R93, R90: CUR_ADVANCE_BY's encoding and errors: BOUNDS before any move, and CONFIG. -/
def Obligations.CurAdvanceByChecksFirst : Prop :=
  (∀ n : Nat, n ≤ 16777215 → encode (.curAdvanceBy n) = 0x04000000 ||| BitVec.ofNat 32 n)
  ∧ ∀ (s : State) (n : Nat),
    (s.ready → s.npix < s.cursor + n → exec (.curAdvanceBy n) s = .next { s with done := false, err := .bounds })
    ∧ (s.zeroGeometry → exec (.curAdvanceBy n) s = .next { s with done := false, err := .config })

/-- R93: CUR_ADVANCE_BY n is n CUR_ADVANCE commands when none of them would raise. -/
def Obligations.CurAdvanceByIsRepeatedCurAdvance : Prop :=
  ∀ (s : State) (n : Nat), s.ready → s.CursorOk → 1 ≤ n → s.cursor + n ≤ s.npix →
    exec (.curAdvanceBy n) s = execTimes .curAdvance n s

/-! ### Bit codec -/

/-- R98: setLSB is exact and in range, equals `(v AND 0xFE) OR t`, keeps bits [7:1], moves v by at most 1, and
changes it exactly when the parity differs from t. -/
def Obligations.SetLsbSetsOnlyTheParity : Prop :=
  ∀ (v : Byte) (t : Nat), t < 2 →
    (setLSB v t).toNat = v.toNat - v.toNat % 2 + t
    ∧ setLSB v t = (v &&& 0xFE) ||| BitVec.ofNat 8 t
    ∧ (setLSB v t).toNat / 2 = v.toNat / 2
    ∧ (setLSB v t).toNat ≤ v.toNat + 1 ∧ v.toNat ≤ (setLSB v t).toNat + 1
    ∧ (setLSB v t = v ↔ v.toNat % 2 = t)

/-- R101: after packing c a pair unpacks to c; each byte of CAR moves by at most 1 and keeps bits [7:1], and only the
pair's eight can change; packing twice is packing once; the last pack wins. -/
def Obligations.PackUnpackProperties : Prop :=
  ∀ (p : Nat) (c : Byte) (m : Memory),
    unpackPair p (packPair p c m) = c
    ∧ (∀ a : Nat,
        (memByte .car (packPair p c m) a).toNat ≤ (memByte .car m a).toNat + 1
        ∧ (memByte .car m a).toNat ≤ (memByte .car (packPair p c m) a).toNat + 1
        ∧ (memByte .car (packPair p c m) a).toNat / 2 = (memByte .car m a).toNat / 2
        ∧ (¬(4 * p ≤ a ∧ a < 4 * p + 8) → memByte .car (packPair p c m) a = memByte .car m a))
    ∧ (m.wf = true → packPair p c (packPair p c m) = packPair p c m
        ∧ ∀ c2 : Byte, packPair p c2 (packPair p c m) = packPair p c2 m)

/-- R102: PACK_BYTE. Each byte of CAR is given: bit i of c goes into the LSB of channel byte 4p + i of the pair that
starts at the cursor's pixel p, and every other byte reads as before. -/
def Obligations.PackByteEmbedsTheByte : Prop :=
  (∀ (w : Word) (c : Byte), decode w = .ok (.packByte c) ↔ w = 0x10000000 ||| c.setWidth 32)
  ∧ ∀ (s : State) (c : Byte),
    (s.ready → s.cursor + 2 ≤ s.npix → ∃ m : Memory,
      exec (.packByte c) s = .next
        { s with
          done := false, car := m
          curCol := BitVec.ofNat 16 ((s.cursor + 2) % s.width.toNat)
          curRow := BitVec.ofNat 17 ((s.cursor + 2) / s.width.toNat) }
      ∧ (∀ i : Nat, i < 8 → memByte .car m (4 * s.cursor + i) =
          setLSB (memByte .car s.car (4 * s.cursor + i)) (c.toNat / 2 ^ i % 2))
      ∧ (∀ a : Nat, a < 4 * s.cursor ∨ 4 * s.cursor + 8 ≤ a → memByte .car m a = memByte .car s.car a))
    ∧ (s.ready → s.npix < s.cursor + 2 →
        exec (.packByte c) s = .next { s with done := false, err := .bounds })
    ∧ (s.zeroGeometry → exec (.packByte c) s = .next { s with done := false, err := .config })

/-- R104: UNPACK_BYTE. DATA_OUT takes the byte whose bits are the parities of the pair's channels (R100). -/
def Obligations.UnpackByteReadsTheByte : Prop :=
  encode .unpackByte = 0x11000000 ∧ ∀ s : State,
    (s.ready → s.cursor + 2 ≤ s.npix → ∃ d : Byte,
      exec .unpackByte s = .next
        { s with
          done := false, dataOut := d
          curCol := BitVec.ofNat 16 ((s.cursor + 2) % s.width.toNat)
          curRow := BitVec.ofNat 17 ((s.cursor + 2) / s.width.toNat) }
      ∧ ∀ i : Nat, i < 8 → d.toNat / 2 ^ i % 2 = (memByte .car s.car (4 * s.cursor + i)).toNat % 2)
    ∧ (s.ready → s.npix < s.cursor + 2 →
        exec .unpackByte s = .next { s with done := false, err := .bounds })
    ∧ (s.zeroGeometry → exec .unpackByte s = .next { s with done := false, err := .config })

/-! ### Capacity planner -/

/-- R110: PLAN_ENCODE writes MAXBYTES, HDRCNT, PAYCNT and TRUNC_WARN with the plan of R109, written out here, raises
CAP_HEADER when the header does not fit and CONFIG on a zero geometry, and keeps everything else but DONE. -/
def Obligations.PlanEncodeWritesThePlan : Prop :=
  encode .planEncode = 0x20000000 ∧ ∀ s : State,
    let maxB := s.width.toNat * s.height.toNat / 2
    let hdr := 18 + s.fnlen.toNat
    (s.ready → hdr ≤ maxB → exec .planEncode s = .next
      { s with
        done := false
        maxbytes := BitVec.ofNat 32 maxB, hdrcnt := BitVec.ofNat 17 hdr
        paycnt := BitVec.ofNat 32 (min s.filesize.toNat (maxB - hdr))
        truncWarn := decide (maxB - hdr < s.filesize.toNat) })
    ∧ (s.ready → maxB < hdr → exec .planEncode s = .next
      { s with
        done := false
        maxbytes := BitVec.ofNat 32 maxB, hdrcnt := BitVec.ofNat 17 hdr, paycnt := 0, truncWarn := false
        err := .capHeader })
    ∧ (s.zeroGeometry → exec .planEncode s = .next { s with done := false, err := .config })

/-- R112: PLAN_DECODE writes MAXBYTES with the plan of R111, written out here, raises CAP_CARRIER below 36 pixels and
CONFIG on a zero geometry, and keeps everything else but DONE. -/
def Obligations.PlanDecodeWritesMaxbytes : Prop :=
  encode .planDecode = 0x21000000 ∧ ∀ s : State,
    let npix := s.width.toNat * s.height.toNat
    (s.ready → 36 ≤ npix → exec .planDecode s = .next
      { s with done := false, maxbytes := BitVec.ofNat 32 (npix / 2) })
    ∧ (s.ready → npix < 36 → exec .planDecode s = .next
      { s with done := false, maxbytes := BitVec.ofNat 32 (npix / 2), err := .capCarrier })
    ∧ (s.zeroGeometry → exec .planDecode s = .next { s with done := false, err := .config })

/-- R9, R35, R36, R109: after PLAN_ENCODE the registers hold the exact numbers of the plan, nothing having wrapped;
MAXBYTES is below 2^31, and a plan that succeeds fits the carrier. -/
def Obligations.PlanRegistersAreExact : Prop :=
  ∀ s : State, s.ready → ∃ t, exec .planEncode s = .next t
    ∧ t.maxbytes.toNat = s.width.toNat * s.height.toNat / 2 ∧ t.maxbytes.toNat < 2 ^ 31
    ∧ t.hdrcnt.toNat = 18 + s.fnlen.toNat ∧ t.hdrcnt.toNat ≤ 65553
    ∧ (t.err = .noError →
        t.paycnt.toNat = min s.filesize.toNat (t.maxbytes.toNat - t.hdrcnt.toNat)
        ∧ t.hdrcnt.toNat + t.paycnt.toNat ≤ t.maxbytes.toNat)
    ∧ (t.err ≠ .noError → t.err = .capHeader ∧ t.maxbytes.toNat < t.hdrcnt.toNat ∧ t.paycnt = 0)

/-! ### Header frame -/

/-- R118: byte i of the header that E_HDR fetches is byte i of the serialized header. -/
def Obligations.HeaderByteIsTheSerializedByte : Prop :=
  ∀ (s : State) (i : Nat), i < 18 + s.fnlen.toNat →
    (headerBytes (s.bytes .name s.fnlen.toNat) s.paycnt.toNat)[i]? = some (s.hbyte i)

/-- R125: parsing a serialized header gives back the name and the payload length and leaves the payload, and the
header is 18 + F bytes long. -/
def Obligations.ParsingTheFrameGivesItBack : Prop :=
  ∀ (name payload : List Byte) (L : Nat), name.length ≤ 65535 → L < 2 ^ 32 →
    (headerBytes name L).length = 18 + name.length
    ∧ parseFrame (headerBytes name L ++ payload) = some { name := name, payloadLength := L, rest := payload }

/-! ### Session commands and the engine's steps -/

/-- R126: acceptance of ENCODE sets STATE to E_PLAN, MISMATCH and IDX to 0 and DONE to 0, and keeps everything else; with
a zero geometry it raises CONFIG. -/
def Obligations.EncodeStartsASession : Prop :=
  encode .encode = 0x30000000 ∧ ∀ s : State,
    (s.ready → exec .encode s = .next { s with done := false, seq := .ePlan, mismatch := false, idx := 0 })
    ∧ (s.zeroGeometry → exec .encode s = .next { s with done := false, err := .config })

/-- R127: acceptance of DECODE sets STATE to D_DEPTH, MISMATCH and IDX to 0 and DONE to 0, and keeps everything else; with
a zero geometry it raises CONFIG. -/
def Obligations.DecodeStartsASession : Prop :=
  encode .decode = 0x31000000 ∧ ∀ s : State,
    (s.ready → exec .decode s = .next { s with done := false, seq := .dDepth, mismatch := false, idx := 0 })
    ∧ (s.zeroGeometry → exec .decode s = .next { s with done := false, err := .config })

/-- R128, R74, R179: when the engine moves. With no turn left every step is the engine's, which is no change while
BUSY = 0; an engine turn is one step of it; a POLL stays the next turn while BUSY = 1 and the engine moves, and ends
with the STATUS word when BUSY = 0. (The list of turns and the record of reads are the model's own, logs 2 and 3; that
a POLL stays first and takes exactly one engine step while BUSY = 1 is the model's inference, log 13.) -/
def Obligations.EngineMovesWhenItIsItsTurn : Prop :=
  (∀ s : State, s.busy = false → engineStep s = s)
  ∧ (∀ s : State, s.turns = [] → step s = .next (engineStep s))
  ∧ (∀ (s : State) (rest : List Turn), s.turns = .engine :: rest →
      step s = .next (engineStep { s with turns := rest }))
  ∧ ∀ (s : State) (rest : List Turn), s.turns = .poll :: rest →
      (s.busy = true → step s = .next { engineStep { s with turns := rest } with turns := .poll :: rest })
      ∧ (s.busy = false → step s = .next { s with turns := rest, got := s.statusWord :: s.got })

/-- R129: E_PLAN, with the plan of R109 written out; a header that does not fit aborts and touches no pixel. -/
def Obligations.EPlanPlansTheSession : Prop :=
  ∀ s : State, s.seq = .ePlan →
    let maxB := s.width.toNat * s.height.toNat / 2
    let hdr := 18 + s.fnlen.toNat
    (hdr ≤ maxB → engineStep s =
      { s with
        maxbytes := BitVec.ofNat 32 maxB, hdrcnt := BitVec.ofNat 17 hdr
        paycnt := BitVec.ofNat 32 (min s.filesize.toNat (maxB - hdr))
        truncWarn := decide (maxB - hdr < s.filesize.toNat)
        curCol := 0, curRow := 0, seq := .eHdr, idx := 0 })
    ∧ (maxB < hdr → engineStep s =
      { s with
        maxbytes := BitVec.ofNat 32 maxB, hdrcnt := BitVec.ofNat 17 hdr, paycnt := 0, truncWarn := false
        err := .capHeader, seq := .abort })

/-- R131, R130: E_HDR packs header byte IDX at the cursor's pair, or raises BOUNDS before any access. -/
def Obligations.EHdrPacksOneHeaderByte : Prop :=
  ∀ s : State, s.seq = .eHdr →
    (s.cursor + 2 ≤ s.npix → engineStep s =
      { s with
        car := packPair s.cursor (s.hbyte s.idx.toNat) s.car
        curCol := BitVec.ofNat 16 ((s.cursor + 2) % s.width.toNat)
        curRow := BitVec.ofNat 17 ((s.cursor + 2) / s.width.toNat)
        idx := if (s.idx + 1).toNat = s.hdrcnt.toNat then 0 else s.idx + 1
        seq := if (s.idx + 1).toNat = s.hdrcnt.toNat then .ePay else .eHdr })
    ∧ (s.npix < s.cursor + 2 → engineStep s = { s with err := .bounds, seq := .abort })

/-- R132, R133, R130: E_PAY packs payload byte IDX, or enters DONE when IDX = PAYCNT. -/
def Obligations.EPayPacksOnePayloadByte : Prop :=
  ∀ s : State, s.seq = .ePay →
    (s.idx = s.paycnt → engineStep s = { s with seq := .done, done := true })
    ∧ (s.idx ≠ s.paycnt → s.cursor + 2 ≤ s.npix → engineStep s =
      { s with
        car := packPair s.cursor (s.memRead .pay s.idx.toNat) s.car
        curCol := BitVec.ofNat 16 ((s.cursor + 2) % s.width.toNat)
        curRow := BitVec.ofNat 17 ((s.cursor + 2) / s.width.toNat)
        idx := s.idx + 1 })
    ∧ (s.idx ≠ s.paycnt → s.npix < s.cursor + 2 → engineStep s = { s with err := .bounds, seq := .abort })

/-- R135, R136: D_DEPTH aborts with FMT_DEPTH or goes to D_SIZE, which writes MAXBYTES with the plan of R111, written out
here, and aborts with CAP_CARRIER or puts the cursor at (0,0) and goes to D_MAGIC. -/
def Obligations.DecodeChecksDepthThenSize : Prop :=
  ∀ s : State,
    (s.seq = .dDepth →
      (s.alphaPresent = false → engineStep s = { s with err := .fmtDepth, seq := .abort })
      ∧ (s.alphaPresent = true → engineStep s = { s with seq := .dSize, idx := 0 }))
    ∧ (s.seq = .dSize →
      let npix := s.width.toNat * s.height.toNat
      (npix < 36 → engineStep s =
        { s with maxbytes := BitVec.ofNat 32 (npix / 2), err := .capCarrier, seq := .abort })
      ∧ (36 ≤ npix → engineStep s =
        { s with maxbytes := BitVec.ofNat 32 (npix / 2), curCol := 0, curRow := 0, seq := .dMagic, idx := 0 }))

/-- R137, R26: D_MAGIC unpacks one byte, passes the pair, ORs into MISMATCH whether it differs from the tag, and counts
IDX; after the twelfth byte, and not before, it aborts with FMT_MAGIC or goes to D_HDR. -/
def Obligations.DMagicComparesOneByte : Prop :=
  ∀ s : State, s.seq = .dMagic →
    let differs := s.mismatch || (unpackPair s.cursor s.car != Config.magic.getD s.idx.toNat 0)
    let moved : State :=
      { s with
        curCol := BitVec.ofNat 16 ((s.cursor + 2) % s.width.toNat)
        curRow := BitVec.ofNat 17 ((s.cursor + 2) / s.width.toNat)
        mismatch := differs }
    (s.cursor + 2 ≤ s.npix → s.idx + 1 ≠ 12 → engineStep s = { moved with idx := s.idx + 1 })
    ∧ (s.cursor + 2 ≤ s.npix → s.idx + 1 = 12 → differs = true →
        engineStep s = { moved with idx := 12, err := .fmtMagic, seq := .abort })
    ∧ (s.cursor + 2 ≤ s.npix → s.idx + 1 = 12 → differs = false →
        engineStep s = { moved with idx := 0, seq := .dHdr })
    ∧ (s.npix < s.cursor + 2 → engineStep s = { s with err := .bounds, seq := .abort })

/-- R139, R130: one step of D_HDR. Where the cursor has no pair left it raises BOUNDS before any access. Else it takes
one byte, for each range of IDX: the two bytes of the filename length with the first CAP_OVERRUN check, a filename
byte, and the four bytes of the payload length with the second check. (The bounds on FNLEN at IDX = 1 and on PAYCNT at
the last byte hold in every run; without them the numbers of R139 do not fit their fields, log 11.) -/
def Obligations.DHdrParsesOneByte : Prop :=
  ∀ s : State, s.seq = .dHdr →
    (s.npix < s.cursor + 2 → engineStep s = { s with err := .bounds, seq := .abort })
    ∧ (s.cursor + 2 ≤ s.npix →
      let c := unpackPair s.cursor s.car
      let f := s.fnlen.toNat
      let moved : State :=
        { s with
          curCol := BitVec.ofNat 16 ((s.cursor + 2) % s.width.toNat)
          curRow := BitVec.ofNat 17 ((s.cursor + 2) / s.width.toNat) }
      (s.idx.toNat = 0 → engineStep s = { moved with fnlen := c.setWidth 16, idx := 1 })
      ∧ (s.idx.toNat = 1 → f < 256 →
          let f' := f + 256 * c.toNat
          (18 + f' ≤ s.maxbytes.toNat → engineStep s =
            { moved with fnlen := BitVec.ofNat 16 f', hdrcnt := BitVec.ofNat 17 (18 + f'), idx := 2 })
          ∧ (s.maxbytes.toNat < 18 + f' → engineStep s =
            { moved with
              fnlen := BitVec.ofNat 16 f', hdrcnt := BitVec.ofNat 17 (18 + f'), err := .capOverrun, seq := .abort }))
      ∧ (2 ≤ s.idx.toNat → s.idx.toNat < 2 + f → engineStep s =
          { moved with name := s.name.put (s.idx.toNat - 2) c, idx := s.idx + 1 })
      ∧ (2 ≤ s.idx.toNat → s.idx.toNat = 2 + f → engineStep s =
          { moved with paycnt := c.setWidth 32, idx := s.idx + 1 })
      ∧ (∀ k : Nat, 1 ≤ k → k < 3 → s.idx.toNat = 2 + f + k → engineStep s =
          { moved with paycnt := BitVec.ofNat 32 (s.paycnt.toNat + c.toNat * 256 ^ k), idx := s.idx + 1 })
      ∧ (s.idx.toNat = 5 + f → s.paycnt.toNat < 16777216 →
          let l := s.paycnt.toNat + c.toNat * 16777216
          (s.hdrcnt.toNat + l ≤ s.maxbytes.toNat → engineStep s =
            { moved with paycnt := BitVec.ofNat 32 l, seq := .dSkip, idx := 0 })
          ∧ (s.maxbytes.toNat < s.hdrcnt.toNat + l → engineStep s =
            { moved with paycnt := BitVec.ofNat 32 l, err := .capOverrun, seq := .abort })))

/-- R140: D_SKIP puts the cursor at pix(2 x HDRCNT) and goes to D_PAY, or raises BOUNDS when that is past NPIX. -/
def Obligations.DSkipGoesToThePayload : Prop :=
  ∀ s : State, s.seq = .dSkip →
    (2 * s.hdrcnt.toNat ≤ s.npix → engineStep s =
      { s with
        curCol := BitVec.ofNat 16 (2 * s.hdrcnt.toNat % s.width.toNat)
        curRow := BitVec.ofNat 17 (2 * s.hdrcnt.toNat / s.width.toNat)
        seq := .dPay, idx := 0 })
    ∧ (s.npix < 2 * s.hdrcnt.toNat → engineStep s = { s with err := .bounds, seq := .abort })

/-- R141, R133, R130: D_PAY unpacks payload byte IDX into PAY, or enters DONE when IDX = PAYCNT. -/
def Obligations.DPayUnpacksOnePayloadByte : Prop :=
  ∀ s : State, s.seq = .dPay →
    (s.idx = s.paycnt → engineStep s = { s with seq := .done, done := true })
    ∧ (s.idx ≠ s.paycnt → s.cursor + 2 ≤ s.npix → engineStep s =
      { s with
        pay := s.pay.put s.idx.toNat (unpackPair s.cursor s.car)
        curCol := BitVec.ofNat 16 ((s.cursor + 2) % s.width.toNat)
        curRow := BitVec.ofNat 17 ((s.cursor + 2) / s.width.toNat)
        idx := s.idx + 1 })
    ∧ (s.idx ≠ s.paycnt → s.npix < s.cursor + 2 → engineStep s = { s with err := .bounds, seq := .abort })

/-- R121, R137: from the start of the magic compare on a carrier of at least 36 pixels, twelve engine steps read the
first twelve bytes of the stream and decide: equal to the tag, they go on to D_HDR; else they abort with FMT_MAGIC.
Either way the cursor is at pixel 24. -/
def Obligations.MagicIsRecognisedExactly : Prop :=
  ∀ s : State, s.seq = .dMagic → s.idx = 0 → s.mismatch = false → s.cursor = 0 → 36 ≤ s.npix →
    let t := engineRun 12 s
    t.cursor = 24 ∧ t.car = s.car
    ∧ (((List.range 12).map fun k => unpackPair (2 * k) s.car) = Config.magic →
        t.seq = .dHdr ∧ t.idx = 0 ∧ t.err = s.err)
    ∧ (((List.range 12).map fun k => unpackPair (2 * k) s.car) ≠ Config.magic →
        t.seq = .abort ∧ t.err = .fmtMagic ∧ t.mismatch = true ∧ t.idx = 12)

/-! ### What steps leave alone -/

/-- R24, R28 to R30, R34, R38: no engine step writes WIDTH, HEIGHT, CFG, FILESIZE, DATA_OUT or DROPPED. (That it takes no
turn and gives the host no value is about fields of the model's own, logs 2 and 3.) -/
def Obligations.EngineKeepsHostRegisters : Prop :=
  ∀ s : State,
    (engineStep s).width = s.width ∧ (engineStep s).height = s.height
    ∧ (engineStep s).alphaPresent = s.alphaPresent ∧ (engineStep s).filesize = s.filesize
    ∧ (engineStep s).dataOut = s.dataOut ∧ (engineStep s).dropped = s.dropped
    ∧ (engineStep s).turns = s.turns ∧ (engineStep s).got = s.got

/-- R127, R48, R49: a DECODE step never writes CAR; an ENCODE step never writes NAME, PAY or FNLEN. -/
def Obligations.SessionsWriteOnlyTheirSide : Prop :=
  ∀ s : State,
    (s.seq ∈ [.dDepth, .dSize, .dMagic, .dHdr, .dSkip, .dPay] → (engineStep s).car = s.car)
    ∧ (s.seq ∈ [.ePlan, .eHdr, .ePay] →
        (engineStep s).name = s.name ∧ (engineStep s).pay = s.pay ∧ (engineStep s).fnlen = s.fnlen)

/-- R45, R113: a step that changes CAR is a PACK_BYTE command, an E_HDR or E_PAY step of the engine, or the host's
own write of a byte of CAR while BUSY = 0. (The engine moves when its turn is next, when no turn is left and while a
POLL waits: the list of turns is the model's own, log 2, and so is the waiting POLL, log 13.) -/
def Obligations.OnlyPackingAndTheHostChangeCar : Prop :=
  ∀ s t : State, step s = .next t → t.car ≠ s.car →
    ((s.seq = .eHdr ∨ s.seq = .ePay)
      ∧ (s.turns = [] ∨ ∃ rest : List Turn, s.turns = .engine :: rest ∨ s.turns = .poll :: rest))
    ∨ (∃ (w : Word) (c : Byte) (rest : List Turn), s.turns = .regWrite 0x00 4 w :: rest ∧ decode w = .ok (.packByte c))
    ∨ ∃ (a : Nat) (v : Byte) (rest : List Turn), s.busy = false ∧ s.turns = .memWrite .car a v :: rest

/-- R38, R168: DATA_OUT changes only by an UNPACK_BYTE command or by reset. -/
def Obligations.OnlyUnpackByteAndResetChangeDataOut : Prop :=
  ∀ s t : State, step s = .next t → t.dataOut ≠ s.dataOut →
    (∃ rest : List Turn, s.turns = .regWrite 0x00 4 0x11000000 :: rest) ∨ ∃ rest : List Turn, s.turns = .reset :: rest

/-- R28, R29, R96, R168: when WIDTH or HEIGHT changes, it is by a host write to that same register while BUSY = 0, whose
low 16 bits it takes, or by reset, and the cursor is at the origin after it. (The list of turns is the model's own,
log 2.) -/
def Obligations.GeometryChangesResetTheCursor : Prop :=
  ∀ s t : State, step s = .next t →
    (t.width ≠ s.width → t.curCol = 0 ∧ t.curRow = 0
      ∧ ((∃ (d : Word) (rest : List Turn), s.busy = false ∧ s.turns = .regWrite 0x10 4 d :: rest
            ∧ t.width = d.setWidth 16)
          ∨ ∃ rest : List Turn, s.turns = .reset :: rest))
    ∧ (t.height ≠ s.height → t.curCol = 0 ∧ t.curRow = 0
      ∧ ((∃ (d : Word) (rest : List Turn), s.busy = false ∧ s.turns = .regWrite 0x14 4 d :: rest
            ∧ t.height = d.setWidth 16)
          ∨ ∃ rest : List Turn, s.turns = .reset :: rest))

/-- R20, R159: while ERR holds an error and the engine is idle, a step keeps the code, unless it is CLR_STATUS or
reset, which set it to 0. -/
def Obligations.FirstErrorIsKept : Prop :=
  ∀ s t : State, s.err ≠ .noError → s.busy = false → step s = .next t →
    t.err = s.err
    ∨ (t.err = .noError ∧ ∃ rest : List Turn, s.turns = .regWrite 0x00 4 0x01000000 :: rest ∨ s.turns = .reset :: rest)

/-! ### Invariants -/

/-- R42: every step keeps that ERR ≠ 0 implies BUSY = 0. -/
def Obligations.ErrorMeansIdleIsKept : Prop :=
  ∀ s t : State, (s.err ≠ .noError → s.busy = false) → step s = .next t → (t.err ≠ .noError → t.busy = false)

/-- R32: reset meets the cursor invariant and every step keeps it, and the invariant gives the three bounds of R32 and
its linear form: while the geometry is not zero, the linear index of the cursor is at most NPIX. -/
def Obligations.CursorInvariantIsKept : Prop :=
  State.reset.CursorOk
  ∧ (∀ s t : State, s.CursorOk → step s = .next t → t.CursorOk)
  ∧ ∀ s : State, s.CursorOk → s.W ≠ 0 → s.H ≠ 0 →
      s.curCol.toNat < s.W ∧ s.curRow.toNat ≤ s.H ∧ (s.curRow.toNat = s.H → s.curCol = 0) ∧ s.cursor ≤ s.npix

/-- Every step, of host, engine or platform, keeps the invariant of a run: canonical memories inside their spaces,
the cursor invariant (R32), STATUS and SESSION in agreement (R22, R26, R42, R152), and the sequencer where R103, R138
and R142 put it. (The list form of a memory is the model's own, log 1, and so is the size of CAR, that of the largest
geometry, log 4.) -/
def Obligations.RunInvariantIsKept : Prop :=
  ∀ s t : State, s.Inv → step s = .next t → t.Inv

/-- R168, R170: the state after reset meets the invariant, and every register reads 0 in it. -/
def Obligations.ResetMeetsTheRunInvariant : Prop :=
  State.reset.Inv ∧ ∀ r : Reg, State.reset.readReg r = 0

/-- R145, R134: under the invariant, an engine step never raises BOUNDS. -/
def Obligations.SessionsNeverRaiseBounds : Prop :=
  ∀ s : State, s.Inv → s.busy = true → (engineStep s).err ≠ .bounds

/-! ### Whole sessions -/

/-- R134: an ENCODE from E_PLAN. With a plan that fits, BUSY stays 1 for 2 + HDRCNT + PAYCNT engine steps; after them
the session is DONE with IDX = PAYCNT and no error raised, pixels 2j and 2j + 1 hold stream byte j for every j below
N = HDRCNT + PAYCNT (bit i of it in CAR byte 8j + i), every other byte of CAR reads as before, NAME and PAY are as they
were, and the cursor is at pix(2N) with 2N ≤ NPIX. With a plan that does not fit, the first step aborts with CAP_HEADER
and CAR is as it was. -/
def Obligations.EncodeEmbedsTheStream : Prop :=
  ∀ s : State, s.seq = .ePlan →
    let maxB := s.width.toNat * s.height.toNat / 2
    let hdr := 18 + s.fnlen.toNat
    let L := min s.filesize.toNat (maxB - hdr)
    (maxB < hdr → (engineStep s).seq = .abort ∧ (engineStep s).err = .capHeader ∧ (engineStep s).car = s.car)
    ∧ (hdr ≤ maxB →
      let t := engineRun (2 + hdr + L) s
      (∀ k : Nat, k < 2 + hdr + L → (engineRun k s).busy = true)
      ∧ t.seq = .done ∧ t.done = true ∧ t.err = s.err
      ∧ t.maxbytes.toNat = maxB ∧ t.hdrcnt.toNat = hdr ∧ t.paycnt.toNat = L ∧ t.idx.toNat = L
      ∧ t.curCol.toNat = 2 * (hdr + L) % s.width.toNat ∧ t.curRow.toNat = 2 * (hdr + L) / s.width.toNat
      ∧ 2 * (hdr + L) ≤ s.npix
      ∧ (∀ j i : Nat, j < hdr + L → i < 8 →
          memByte .car t.car (8 * j + i) =
            setLSB (memByte .car s.car (8 * j + i)) (bitOf ((s.stream L).getD j 0) i))
      ∧ (∀ a : Nat, 8 * (hdr + L) ≤ a → memByte .car t.car a = memByte .car s.car a)
      ∧ t.name = s.name ∧ t.pay = s.pay)

/-- R144: the round trip. After a successful ENCODE from `s`, a DECODE from any state with CFG.ALPHA_PRESENT = 1, the
same geometry and a CAR that reads the same ends in DONE after 22 + F + L engine steps, with FNLEN, NAME[0..F),
PAYCNT and PAY[0..L) those that ENCODE embedded, and CAR as it was. -/
def Obligations.DecodeRecoversWhatEncodeEmbedded : Prop :=
  ∀ s u : State, s.seq = .ePlan →
    let maxB := s.width.toNat * s.height.toNat / 2
    let hdr := 18 + s.fnlen.toNat
    let L := min s.filesize.toNat (maxB - hdr)
    hdr ≤ maxB →
    u.seq = .dDepth → u.mismatch = false → u.alphaPresent = true → u.width = s.width → u.height = s.height →
    (∀ a : Nat, memByte .car u.car a = memByte .car (engineRun (2 + hdr + L) s).car a) →
    let v := engineRun (22 + s.fnlen.toNat + L) u
    v.seq = .done ∧ v.done = true ∧ v.err = u.err
    ∧ v.fnlen = s.fnlen ∧ v.paycnt.toNat = L
    ∧ (∀ i : Nat, i < s.fnlen.toNat → v.memRead .name i = s.memRead .name i)
    ∧ (∀ i : Nat, i < L → v.memRead .pay i = s.memRead .pay i)
    ∧ v.car = u.car

/-- R143, R179: under the invariant, with no turn left, a running session ends: within 2 + 65553 + 2^31 steps the
machine is in a state with BUSY = 0. (That the engine moves when no turn is listed is the model's own, log 2.) -/
def Obligations.EverySessionEnds : Prop :=
  ∀ s : State, s.Inv → s.turns = [] →
    ∃ k t, k ≤ 2 + 65553 + 2 ^ 31 ∧ Sys2Proof.core.run k s = .next t ∧ t.busy = false

/-! ### The register window and the byte spaces -/

/-- R18, R17: a 32-bit read at a register's offset gives the host that register's word, in any state, and changes
nothing else. The table gives each of the sixteen words its offset and its contents: every field at its place of R17,
every other bit 0, and CMD and the reserved word 0 (R19, R39). (The list of turns and the record of reads are the
model's own, logs 2 and 3.) -/
def Obligations.RegisterReadsHaveNoEffect : Prop :=
  ∀ s : State,
    (∀ (r : Reg) (rest : List Turn), s.turns = .regRead r.offset 4 :: rest →
      step s = .next { s with turns := rest, got := s.readReg r :: s.got })
    ∧ ∀ (r : Reg) (offset : Nat) (word : Word), (r, offset, word) ∈
        ([(.cmd, 0x00, 0),
          (.status, 0x04,
            (0 : BitVec 24) ++ BitVec.ofBool s.dropped ++ BitVec.ofBool s.busy ++ BitVec.ofBool s.done
              ++ BitVec.ofBool s.truncWarn ++ s.err.code),
          (.session, 0x08, (0 : BitVec 27) ++ BitVec.ofBool s.mismatch ++ s.seq.code),
          (.idx, 0x0C, s.idx),
          (.width, 0x10, (0 : BitVec 16) ++ s.width),
          (.height, 0x14, (0 : BitVec 16) ++ s.height),
          (.cfg, 0x18, (0 : BitVec 31) ++ BitVec.ofBool s.alphaPresent),
          (.curCol, 0x1C, (0 : BitVec 16) ++ s.curCol),
          (.curRow, 0x20, (0 : BitVec 15) ++ s.curRow),
          (.fnlen, 0x24, (0 : BitVec 16) ++ s.fnlen),
          (.filesize, 0x28, s.filesize),
          (.maxbytes, 0x2C, s.maxbytes),
          (.hdrcnt, 0x30, (0 : BitVec 15) ++ s.hdrcnt),
          (.paycnt, 0x34, s.paycnt),
          (.dataOut, 0x38, (0 : BitVec 24) ++ s.dataOut),
          (.reserved, 0x3C, 0)] : List (Reg × Nat × Word)) →
      r.offset = offset ∧ s.readReg r = word

/-- R28, R29, R30, R33, R34, R40, R18: a 32-bit host write to each register but CMD: what it stores while BUSY = 0,
that it is dropped while BUSY = 1, and that a read-only register and the reserved word ignore it in any state. -/
def Obligations.RegisterWritesFollowTheirRules : Prop :=
  ∀ (s : State) (d : Word) (rest : List Turn) (r : Reg), s.turns = .regWrite r.offset 4 d :: rest →
    (r ∈ [.width, .height, .cfg, .fnlen, .filesize] → s.busy = true →
      step s = .next { s with turns := rest, dropped := true })
    ∧ (s.busy = false →
      (r = .width → step s = .next { s with turns := rest, width := d.setWidth 16, curCol := 0, curRow := 0 })
      ∧ (r = .height → step s = .next { s with turns := rest, height := d.setWidth 16, curCol := 0, curRow := 0 })
      ∧ (r = .cfg → step s = .next { s with turns := rest, alphaPresent := d.getLsbD 0 })
      ∧ (r = .fnlen → step s = .next { s with turns := rest, fnlen := d.setWidth 16 })
      ∧ (r = .filesize → step s = .next { s with turns := rest, filesize := d }))
    ∧ (r ∈ [.status, .session, .idx, .curCol, .curRow, .maxbytes, .hdrcnt, .paycnt, .dataOut, .reserved] →
      step s = .next { s with turns := rest })

/-- R18, U10: any access that is not 32 bits wide, aligned and below offset 0x40 is refused. -/
def Obligations.OtherRegisterAccessesAreRefused : Prop :=
  ∀ (s : State) (offset nbytes : Nat) (rest : List Turn), (nbytes ≠ 4 ∨ offset % 4 ≠ 0 ∨ 0x40 ≤ offset) →
    (s.turns = .regRead offset nbytes :: rest → step s = .refused .registerAccess)
    ∧ ∀ d : Word, s.turns = .regWrite offset nbytes d :: rest → step s = .refused .registerAccess

/-- R46, R57, R62, R45: the host's byte accesses. While BUSY = 0 and inside the space, a read gives the byte and
changes nothing, and after a write that byte reads as written and every other byte of every space as before; while
BUSY = 1, and outside the space, the access has no step. (The record of reads, the size of CAR and
the named faults are the model's own, logs 3, 4, 5 and 8.) -/
def Obligations.HostByteAccesses : Prop :=
  ∀ (s : State) (sp : Space) (a : Nat) (v : Byte) (rest : List Turn),
    (s.turns = .memRead sp a :: rest →
      (s.busy = true → step s = .fault .hostMemoryWhileBusy)
      ∧ (s.busy = false → Config.spaceSize sp ≤ a → step s = .fault .addressOutsideSpace)
      ∧ (s.busy = false → a < Config.spaceSize sp →
          step s = .next { s with turns := rest, got := (s.memRead sp a).setWidth 32 :: s.got }))
    ∧ (s.turns = .memWrite sp a v :: rest →
      (s.busy = true → step s = .fault .hostMemoryWhileBusy)
      ∧ (s.busy = false → Config.spaceSize sp ≤ a → step s = .fault .addressOutsideSpace)
      ∧ (s.busy = false → a < Config.spaceSize sp → ∃ t, step s = .next t
          ∧ t = { s with turns := rest, car := t.car, name := t.name, pay := t.pay }
          ∧ ∀ sp' b, t.memRead sp' b = if sp' = sp ∧ b = a then v else s.memRead sp' b))

/-- R168: reset in any state sets every register to 0, so each reads 0, and leaves CAR, NAME and PAY as they were. (That
it leaves the turns to come and the record of reads is the model's inference, log 9. That a byte of them reads at
power-up as the free value, of which nothing is known, is the model's form of R168's unspecified contents, log 1.) -/
def Obligations.ResetClearsRegistersAndKeepsMemory : Prop :=
  (∀ (sp : Space) (a : Nat), State.reset.memRead sp a = Config.powerUpByte sp a)
  ∧ ∀ (s : State) (rest : List Turn), s.turns = .reset :: rest → ∃ t, step s = .next t
    ∧ t = { State.reset with car := s.car, name := s.name, pay := s.pay, turns := rest, got := s.got }
    ∧ (∀ r : Reg, t.readReg r = 0) ∧ t.busy = false
end

