-- ==== Sys2Proof/Laws/State.lean ====
section
/-!
SUPPORT. One lemma for each field of State under each named update: what the update leaves in that field.
-/
namespace Sys2Proof.Machine

/-! ### raise -/

@[simp] theorem State.raise_err (s : State) (c : ErrCode) : (s.raise c).err = c := rfl
@[simp] theorem State.raise_truncWarn (s : State) (c : ErrCode) : (s.raise c).truncWarn = s.truncWarn := rfl
@[simp] theorem State.raise_done (s : State) (c : ErrCode) : (s.raise c).done = s.done := rfl
@[simp] theorem State.raise_dropped (s : State) (c : ErrCode) : (s.raise c).dropped = s.dropped := rfl
@[simp] theorem State.raise_seq (s : State) (c : ErrCode) : (s.raise c).seq = s.seq := rfl
@[simp] theorem State.raise_mismatch (s : State) (c : ErrCode) : (s.raise c).mismatch = s.mismatch := rfl
@[simp] theorem State.raise_idx (s : State) (c : ErrCode) : (s.raise c).idx = s.idx := rfl
@[simp] theorem State.raise_width (s : State) (c : ErrCode) : (s.raise c).width = s.width := rfl
@[simp] theorem State.raise_height (s : State) (c : ErrCode) : (s.raise c).height = s.height := rfl
@[simp] theorem State.raise_alphaPresent (s : State) (c : ErrCode) : (s.raise c).alphaPresent = s.alphaPresent := rfl
@[simp] theorem State.raise_curCol (s : State) (c : ErrCode) : (s.raise c).curCol = s.curCol := rfl
@[simp] theorem State.raise_curRow (s : State) (c : ErrCode) : (s.raise c).curRow = s.curRow := rfl
@[simp] theorem State.raise_fnlen (s : State) (c : ErrCode) : (s.raise c).fnlen = s.fnlen := rfl
@[simp] theorem State.raise_filesize (s : State) (c : ErrCode) : (s.raise c).filesize = s.filesize := rfl
@[simp] theorem State.raise_maxbytes (s : State) (c : ErrCode) : (s.raise c).maxbytes = s.maxbytes := rfl
@[simp] theorem State.raise_hdrcnt (s : State) (c : ErrCode) : (s.raise c).hdrcnt = s.hdrcnt := rfl
@[simp] theorem State.raise_paycnt (s : State) (c : ErrCode) : (s.raise c).paycnt = s.paycnt := rfl
@[simp] theorem State.raise_dataOut (s : State) (c : ErrCode) : (s.raise c).dataOut = s.dataOut := rfl
@[simp] theorem State.raise_car (s : State) (c : ErrCode) : (s.raise c).car = s.car := rfl
@[simp] theorem State.raise_name (s : State) (c : ErrCode) : (s.raise c).name = s.name := rfl
@[simp] theorem State.raise_pay (s : State) (c : ErrCode) : (s.raise c).pay = s.pay := rfl
@[simp] theorem State.raise_turns (s : State) (c : ErrCode) : (s.raise c).turns = s.turns := rfl
@[simp] theorem State.raise_got (s : State) (c : ErrCode) : (s.raise c).got = s.got := rfl
@[simp] theorem State.raise_W (s : State) (c : ErrCode) : (s.raise c).W = s.W := rfl
@[simp] theorem State.raise_H (s : State) (c : ErrCode) : (s.raise c).H = s.H := rfl
@[simp] theorem State.raise_npix (s : State) (c : ErrCode) : (s.raise c).npix = s.npix := rfl
@[simp] theorem State.raise_cursor (s : State) (c : ErrCode) : (s.raise c).cursor = s.cursor := rfl
@[simp] theorem State.raise_memory (s : State) (c : ErrCode) (sp : Space) : (s.raise c).memory sp = s.memory sp := by cases sp <;> rfl
@[simp] theorem State.raise_busy (s : State) (c : ErrCode) : (s.raise c).busy = s.busy := rfl

/-! ### raiseInStep -/

@[simp] theorem State.raiseInStep_err (s : State) (c : ErrCode) : (s.raiseInStep c).err = c := rfl
@[simp] theorem State.raiseInStep_truncWarn (s : State) (c : ErrCode) : (s.raiseInStep c).truncWarn = s.truncWarn := rfl
@[simp] theorem State.raiseInStep_done (s : State) (c : ErrCode) : (s.raiseInStep c).done = s.done := rfl
@[simp] theorem State.raiseInStep_dropped (s : State) (c : ErrCode) : (s.raiseInStep c).dropped = s.dropped := rfl
@[simp] theorem State.raiseInStep_seq (s : State) (c : ErrCode) : (s.raiseInStep c).seq = .abort := rfl
@[simp] theorem State.raiseInStep_mismatch (s : State) (c : ErrCode) : (s.raiseInStep c).mismatch = s.mismatch := rfl
@[simp] theorem State.raiseInStep_idx (s : State) (c : ErrCode) : (s.raiseInStep c).idx = s.idx := rfl
@[simp] theorem State.raiseInStep_width (s : State) (c : ErrCode) : (s.raiseInStep c).width = s.width := rfl
@[simp] theorem State.raiseInStep_height (s : State) (c : ErrCode) : (s.raiseInStep c).height = s.height := rfl
@[simp] theorem State.raiseInStep_alphaPresent (s : State) (c : ErrCode) : (s.raiseInStep c).alphaPresent = s.alphaPresent := rfl
@[simp] theorem State.raiseInStep_curCol (s : State) (c : ErrCode) : (s.raiseInStep c).curCol = s.curCol := rfl
@[simp] theorem State.raiseInStep_curRow (s : State) (c : ErrCode) : (s.raiseInStep c).curRow = s.curRow := rfl
@[simp] theorem State.raiseInStep_fnlen (s : State) (c : ErrCode) : (s.raiseInStep c).fnlen = s.fnlen := rfl
@[simp] theorem State.raiseInStep_filesize (s : State) (c : ErrCode) : (s.raiseInStep c).filesize = s.filesize := rfl
@[simp] theorem State.raiseInStep_maxbytes (s : State) (c : ErrCode) : (s.raiseInStep c).maxbytes = s.maxbytes := rfl
@[simp] theorem State.raiseInStep_hdrcnt (s : State) (c : ErrCode) : (s.raiseInStep c).hdrcnt = s.hdrcnt := rfl
@[simp] theorem State.raiseInStep_paycnt (s : State) (c : ErrCode) : (s.raiseInStep c).paycnt = s.paycnt := rfl
@[simp] theorem State.raiseInStep_dataOut (s : State) (c : ErrCode) : (s.raiseInStep c).dataOut = s.dataOut := rfl
@[simp] theorem State.raiseInStep_car (s : State) (c : ErrCode) : (s.raiseInStep c).car = s.car := rfl
@[simp] theorem State.raiseInStep_name (s : State) (c : ErrCode) : (s.raiseInStep c).name = s.name := rfl
@[simp] theorem State.raiseInStep_pay (s : State) (c : ErrCode) : (s.raiseInStep c).pay = s.pay := rfl
@[simp] theorem State.raiseInStep_turns (s : State) (c : ErrCode) : (s.raiseInStep c).turns = s.turns := rfl
@[simp] theorem State.raiseInStep_got (s : State) (c : ErrCode) : (s.raiseInStep c).got = s.got := rfl
@[simp] theorem State.raiseInStep_W (s : State) (c : ErrCode) : (s.raiseInStep c).W = s.W := rfl
@[simp] theorem State.raiseInStep_H (s : State) (c : ErrCode) : (s.raiseInStep c).H = s.H := rfl
@[simp] theorem State.raiseInStep_npix (s : State) (c : ErrCode) : (s.raiseInStep c).npix = s.npix := rfl
@[simp] theorem State.raiseInStep_cursor (s : State) (c : ErrCode) : (s.raiseInStep c).cursor = s.cursor := rfl
@[simp] theorem State.raiseInStep_memory (s : State) (c : ErrCode) (sp : Space) : (s.raiseInStep c).memory sp = s.memory sp := by cases sp <;> rfl

/-! ### clearStatus -/

@[simp] theorem State.clearStatus_err (s : State) : (s.clearStatus).err = .noError := rfl
@[simp] theorem State.clearStatus_truncWarn (s : State) : (s.clearStatus).truncWarn = false := rfl
@[simp] theorem State.clearStatus_done (s : State) : (s.clearStatus).done = false := rfl
@[simp] theorem State.clearStatus_dropped (s : State) : (s.clearStatus).dropped = false := rfl
@[simp] theorem State.clearStatus_seq (s : State) : (s.clearStatus).seq = .idle := rfl
@[simp] theorem State.clearStatus_mismatch (s : State) : (s.clearStatus).mismatch = false := rfl
@[simp] theorem State.clearStatus_idx (s : State) : (s.clearStatus).idx = 0 := rfl
@[simp] theorem State.clearStatus_width (s : State) : (s.clearStatus).width = s.width := rfl
@[simp] theorem State.clearStatus_height (s : State) : (s.clearStatus).height = s.height := rfl
@[simp] theorem State.clearStatus_alphaPresent (s : State) : (s.clearStatus).alphaPresent = s.alphaPresent := rfl
@[simp] theorem State.clearStatus_curCol (s : State) : (s.clearStatus).curCol = s.curCol := rfl
@[simp] theorem State.clearStatus_curRow (s : State) : (s.clearStatus).curRow = s.curRow := rfl
@[simp] theorem State.clearStatus_fnlen (s : State) : (s.clearStatus).fnlen = s.fnlen := rfl
@[simp] theorem State.clearStatus_filesize (s : State) : (s.clearStatus).filesize = s.filesize := rfl
@[simp] theorem State.clearStatus_maxbytes (s : State) : (s.clearStatus).maxbytes = s.maxbytes := rfl
@[simp] theorem State.clearStatus_hdrcnt (s : State) : (s.clearStatus).hdrcnt = s.hdrcnt := rfl
@[simp] theorem State.clearStatus_paycnt (s : State) : (s.clearStatus).paycnt = s.paycnt := rfl
@[simp] theorem State.clearStatus_dataOut (s : State) : (s.clearStatus).dataOut = s.dataOut := rfl
@[simp] theorem State.clearStatus_car (s : State) : (s.clearStatus).car = s.car := rfl
@[simp] theorem State.clearStatus_name (s : State) : (s.clearStatus).name = s.name := rfl
@[simp] theorem State.clearStatus_pay (s : State) : (s.clearStatus).pay = s.pay := rfl
@[simp] theorem State.clearStatus_turns (s : State) : (s.clearStatus).turns = s.turns := rfl
@[simp] theorem State.clearStatus_got (s : State) : (s.clearStatus).got = s.got := rfl
@[simp] theorem State.clearStatus_W (s : State) : (s.clearStatus).W = s.W := rfl
@[simp] theorem State.clearStatus_H (s : State) : (s.clearStatus).H = s.H := rfl
@[simp] theorem State.clearStatus_npix (s : State) : (s.clearStatus).npix = s.npix := rfl
@[simp] theorem State.clearStatus_cursor (s : State) : (s.clearStatus).cursor = s.cursor := rfl
@[simp] theorem State.clearStatus_memory (s : State) (sp : Space) : (s.clearStatus).memory sp = s.memory sp := by cases sp <;> rfl

/-! ### markDropped -/

@[simp] theorem State.markDropped_err (s : State) : (s.markDropped).err = s.err := rfl
@[simp] theorem State.markDropped_truncWarn (s : State) : (s.markDropped).truncWarn = s.truncWarn := rfl
@[simp] theorem State.markDropped_done (s : State) : (s.markDropped).done = s.done := rfl
@[simp] theorem State.markDropped_dropped (s : State) : (s.markDropped).dropped = true := rfl
@[simp] theorem State.markDropped_seq (s : State) : (s.markDropped).seq = s.seq := rfl
@[simp] theorem State.markDropped_mismatch (s : State) : (s.markDropped).mismatch = s.mismatch := rfl
@[simp] theorem State.markDropped_idx (s : State) : (s.markDropped).idx = s.idx := rfl
@[simp] theorem State.markDropped_width (s : State) : (s.markDropped).width = s.width := rfl
@[simp] theorem State.markDropped_height (s : State) : (s.markDropped).height = s.height := rfl
@[simp] theorem State.markDropped_alphaPresent (s : State) : (s.markDropped).alphaPresent = s.alphaPresent := rfl
@[simp] theorem State.markDropped_curCol (s : State) : (s.markDropped).curCol = s.curCol := rfl
@[simp] theorem State.markDropped_curRow (s : State) : (s.markDropped).curRow = s.curRow := rfl
@[simp] theorem State.markDropped_fnlen (s : State) : (s.markDropped).fnlen = s.fnlen := rfl
@[simp] theorem State.markDropped_filesize (s : State) : (s.markDropped).filesize = s.filesize := rfl
@[simp] theorem State.markDropped_maxbytes (s : State) : (s.markDropped).maxbytes = s.maxbytes := rfl
@[simp] theorem State.markDropped_hdrcnt (s : State) : (s.markDropped).hdrcnt = s.hdrcnt := rfl
@[simp] theorem State.markDropped_paycnt (s : State) : (s.markDropped).paycnt = s.paycnt := rfl
@[simp] theorem State.markDropped_dataOut (s : State) : (s.markDropped).dataOut = s.dataOut := rfl
@[simp] theorem State.markDropped_car (s : State) : (s.markDropped).car = s.car := rfl
@[simp] theorem State.markDropped_name (s : State) : (s.markDropped).name = s.name := rfl
@[simp] theorem State.markDropped_pay (s : State) : (s.markDropped).pay = s.pay := rfl
@[simp] theorem State.markDropped_turns (s : State) : (s.markDropped).turns = s.turns := rfl
@[simp] theorem State.markDropped_got (s : State) : (s.markDropped).got = s.got := rfl
@[simp] theorem State.markDropped_W (s : State) : (s.markDropped).W = s.W := rfl
@[simp] theorem State.markDropped_H (s : State) : (s.markDropped).H = s.H := rfl
@[simp] theorem State.markDropped_npix (s : State) : (s.markDropped).npix = s.npix := rfl
@[simp] theorem State.markDropped_cursor (s : State) : (s.markDropped).cursor = s.cursor := rfl
@[simp] theorem State.markDropped_memory (s : State) (sp : Space) : (s.markDropped).memory sp = s.memory sp := by cases sp <;> rfl
@[simp] theorem State.markDropped_busy (s : State) : (s.markDropped).busy = s.busy := rfl

/-! ### clearDone -/

@[simp] theorem State.clearDone_err (s : State) : (s.clearDone).err = s.err := rfl
@[simp] theorem State.clearDone_truncWarn (s : State) : (s.clearDone).truncWarn = s.truncWarn := rfl
@[simp] theorem State.clearDone_done (s : State) : (s.clearDone).done = false := rfl
@[simp] theorem State.clearDone_dropped (s : State) : (s.clearDone).dropped = s.dropped := rfl
@[simp] theorem State.clearDone_seq (s : State) : (s.clearDone).seq = s.seq := rfl
@[simp] theorem State.clearDone_mismatch (s : State) : (s.clearDone).mismatch = s.mismatch := rfl
@[simp] theorem State.clearDone_idx (s : State) : (s.clearDone).idx = s.idx := rfl
@[simp] theorem State.clearDone_width (s : State) : (s.clearDone).width = s.width := rfl
@[simp] theorem State.clearDone_height (s : State) : (s.clearDone).height = s.height := rfl
@[simp] theorem State.clearDone_alphaPresent (s : State) : (s.clearDone).alphaPresent = s.alphaPresent := rfl
@[simp] theorem State.clearDone_curCol (s : State) : (s.clearDone).curCol = s.curCol := rfl
@[simp] theorem State.clearDone_curRow (s : State) : (s.clearDone).curRow = s.curRow := rfl
@[simp] theorem State.clearDone_fnlen (s : State) : (s.clearDone).fnlen = s.fnlen := rfl
@[simp] theorem State.clearDone_filesize (s : State) : (s.clearDone).filesize = s.filesize := rfl
@[simp] theorem State.clearDone_maxbytes (s : State) : (s.clearDone).maxbytes = s.maxbytes := rfl
@[simp] theorem State.clearDone_hdrcnt (s : State) : (s.clearDone).hdrcnt = s.hdrcnt := rfl
@[simp] theorem State.clearDone_paycnt (s : State) : (s.clearDone).paycnt = s.paycnt := rfl
@[simp] theorem State.clearDone_dataOut (s : State) : (s.clearDone).dataOut = s.dataOut := rfl
@[simp] theorem State.clearDone_car (s : State) : (s.clearDone).car = s.car := rfl
@[simp] theorem State.clearDone_name (s : State) : (s.clearDone).name = s.name := rfl
@[simp] theorem State.clearDone_pay (s : State) : (s.clearDone).pay = s.pay := rfl
@[simp] theorem State.clearDone_turns (s : State) : (s.clearDone).turns = s.turns := rfl
@[simp] theorem State.clearDone_got (s : State) : (s.clearDone).got = s.got := rfl
@[simp] theorem State.clearDone_W (s : State) : (s.clearDone).W = s.W := rfl
@[simp] theorem State.clearDone_H (s : State) : (s.clearDone).H = s.H := rfl
@[simp] theorem State.clearDone_npix (s : State) : (s.clearDone).npix = s.npix := rfl
@[simp] theorem State.clearDone_cursor (s : State) : (s.clearDone).cursor = s.cursor := rfl
@[simp] theorem State.clearDone_memory (s : State) (sp : Space) : (s.clearDone).memory sp = s.memory sp := by cases sp <;> rfl
@[simp] theorem State.clearDone_busy (s : State) : (s.clearDone).busy = s.busy := rfl

/-! ### setCursor -/

@[simp] theorem State.setCursor_err (s : State) (c : Nat × Nat) : (s.setCursor c).err = s.err := rfl
@[simp] theorem State.setCursor_truncWarn (s : State) (c : Nat × Nat) : (s.setCursor c).truncWarn = s.truncWarn := rfl
@[simp] theorem State.setCursor_done (s : State) (c : Nat × Nat) : (s.setCursor c).done = s.done := rfl
@[simp] theorem State.setCursor_dropped (s : State) (c : Nat × Nat) : (s.setCursor c).dropped = s.dropped := rfl
@[simp] theorem State.setCursor_seq (s : State) (c : Nat × Nat) : (s.setCursor c).seq = s.seq := rfl
@[simp] theorem State.setCursor_mismatch (s : State) (c : Nat × Nat) : (s.setCursor c).mismatch = s.mismatch := rfl
@[simp] theorem State.setCursor_idx (s : State) (c : Nat × Nat) : (s.setCursor c).idx = s.idx := rfl
@[simp] theorem State.setCursor_width (s : State) (c : Nat × Nat) : (s.setCursor c).width = s.width := rfl
@[simp] theorem State.setCursor_height (s : State) (c : Nat × Nat) : (s.setCursor c).height = s.height := rfl
@[simp] theorem State.setCursor_alphaPresent (s : State) (c : Nat × Nat) : (s.setCursor c).alphaPresent = s.alphaPresent := rfl
@[simp] theorem State.setCursor_curCol (s : State) (c : Nat × Nat) : (s.setCursor c).curCol = BitVec.ofNat 16 c.1 := rfl
@[simp] theorem State.setCursor_curRow (s : State) (c : Nat × Nat) : (s.setCursor c).curRow = BitVec.ofNat 17 c.2 := rfl
@[simp] theorem State.setCursor_fnlen (s : State) (c : Nat × Nat) : (s.setCursor c).fnlen = s.fnlen := rfl
@[simp] theorem State.setCursor_filesize (s : State) (c : Nat × Nat) : (s.setCursor c).filesize = s.filesize := rfl
@[simp] theorem State.setCursor_maxbytes (s : State) (c : Nat × Nat) : (s.setCursor c).maxbytes = s.maxbytes := rfl
@[simp] theorem State.setCursor_hdrcnt (s : State) (c : Nat × Nat) : (s.setCursor c).hdrcnt = s.hdrcnt := rfl
@[simp] theorem State.setCursor_paycnt (s : State) (c : Nat × Nat) : (s.setCursor c).paycnt = s.paycnt := rfl
@[simp] theorem State.setCursor_dataOut (s : State) (c : Nat × Nat) : (s.setCursor c).dataOut = s.dataOut := rfl
@[simp] theorem State.setCursor_car (s : State) (c : Nat × Nat) : (s.setCursor c).car = s.car := rfl
@[simp] theorem State.setCursor_name (s : State) (c : Nat × Nat) : (s.setCursor c).name = s.name := rfl
@[simp] theorem State.setCursor_pay (s : State) (c : Nat × Nat) : (s.setCursor c).pay = s.pay := rfl
@[simp] theorem State.setCursor_turns (s : State) (c : Nat × Nat) : (s.setCursor c).turns = s.turns := rfl
@[simp] theorem State.setCursor_got (s : State) (c : Nat × Nat) : (s.setCursor c).got = s.got := rfl
@[simp] theorem State.setCursor_W (s : State) (c : Nat × Nat) : (s.setCursor c).W = s.W := rfl
@[simp] theorem State.setCursor_H (s : State) (c : Nat × Nat) : (s.setCursor c).H = s.H := rfl
@[simp] theorem State.setCursor_npix (s : State) (c : Nat × Nat) : (s.setCursor c).npix = s.npix := rfl
@[simp] theorem State.setCursor_memory (s : State) (c : Nat × Nat) (sp : Space) : (s.setCursor c).memory sp = s.memory sp := by cases sp <;> rfl
@[simp] theorem State.setCursor_busy (s : State) (c : Nat × Nat) : (s.setCursor c).busy = s.busy := rfl

/-! ### goto -/

@[simp] theorem State.goto_err (s : State) (q : SeqState) : (s.goto q).err = s.err := rfl
@[simp] theorem State.goto_truncWarn (s : State) (q : SeqState) : (s.goto q).truncWarn = s.truncWarn := rfl
@[simp] theorem State.goto_done (s : State) (q : SeqState) : (s.goto q).done = s.done := rfl
@[simp] theorem State.goto_dropped (s : State) (q : SeqState) : (s.goto q).dropped = s.dropped := rfl
@[simp] theorem State.goto_seq (s : State) (q : SeqState) : (s.goto q).seq = q := rfl
@[simp] theorem State.goto_mismatch (s : State) (q : SeqState) : (s.goto q).mismatch = s.mismatch := rfl
@[simp] theorem State.goto_idx (s : State) (q : SeqState) : (s.goto q).idx = 0 := rfl
@[simp] theorem State.goto_width (s : State) (q : SeqState) : (s.goto q).width = s.width := rfl
@[simp] theorem State.goto_height (s : State) (q : SeqState) : (s.goto q).height = s.height := rfl
@[simp] theorem State.goto_alphaPresent (s : State) (q : SeqState) : (s.goto q).alphaPresent = s.alphaPresent := rfl
@[simp] theorem State.goto_curCol (s : State) (q : SeqState) : (s.goto q).curCol = s.curCol := rfl
@[simp] theorem State.goto_curRow (s : State) (q : SeqState) : (s.goto q).curRow = s.curRow := rfl
@[simp] theorem State.goto_fnlen (s : State) (q : SeqState) : (s.goto q).fnlen = s.fnlen := rfl
@[simp] theorem State.goto_filesize (s : State) (q : SeqState) : (s.goto q).filesize = s.filesize := rfl
@[simp] theorem State.goto_maxbytes (s : State) (q : SeqState) : (s.goto q).maxbytes = s.maxbytes := rfl
@[simp] theorem State.goto_hdrcnt (s : State) (q : SeqState) : (s.goto q).hdrcnt = s.hdrcnt := rfl
@[simp] theorem State.goto_paycnt (s : State) (q : SeqState) : (s.goto q).paycnt = s.paycnt := rfl
@[simp] theorem State.goto_dataOut (s : State) (q : SeqState) : (s.goto q).dataOut = s.dataOut := rfl
@[simp] theorem State.goto_car (s : State) (q : SeqState) : (s.goto q).car = s.car := rfl
@[simp] theorem State.goto_name (s : State) (q : SeqState) : (s.goto q).name = s.name := rfl
@[simp] theorem State.goto_pay (s : State) (q : SeqState) : (s.goto q).pay = s.pay := rfl
@[simp] theorem State.goto_turns (s : State) (q : SeqState) : (s.goto q).turns = s.turns := rfl
@[simp] theorem State.goto_got (s : State) (q : SeqState) : (s.goto q).got = s.got := rfl
@[simp] theorem State.goto_W (s : State) (q : SeqState) : (s.goto q).W = s.W := rfl
@[simp] theorem State.goto_H (s : State) (q : SeqState) : (s.goto q).H = s.H := rfl
@[simp] theorem State.goto_npix (s : State) (q : SeqState) : (s.goto q).npix = s.npix := rfl
@[simp] theorem State.goto_cursor (s : State) (q : SeqState) : (s.goto q).cursor = s.cursor := rfl
@[simp] theorem State.goto_memory (s : State) (q : SeqState) (sp : Space) : (s.goto q).memory sp = s.memory sp := by cases sp <;> rfl

/-! ### give -/

@[simp] theorem State.give_err (s : State) (v : Word) : (s.give v).err = s.err := rfl
@[simp] theorem State.give_truncWarn (s : State) (v : Word) : (s.give v).truncWarn = s.truncWarn := rfl
@[simp] theorem State.give_done (s : State) (v : Word) : (s.give v).done = s.done := rfl
@[simp] theorem State.give_dropped (s : State) (v : Word) : (s.give v).dropped = s.dropped := rfl
@[simp] theorem State.give_seq (s : State) (v : Word) : (s.give v).seq = s.seq := rfl
@[simp] theorem State.give_mismatch (s : State) (v : Word) : (s.give v).mismatch = s.mismatch := rfl
@[simp] theorem State.give_idx (s : State) (v : Word) : (s.give v).idx = s.idx := rfl
@[simp] theorem State.give_width (s : State) (v : Word) : (s.give v).width = s.width := rfl
@[simp] theorem State.give_height (s : State) (v : Word) : (s.give v).height = s.height := rfl
@[simp] theorem State.give_alphaPresent (s : State) (v : Word) : (s.give v).alphaPresent = s.alphaPresent := rfl
@[simp] theorem State.give_curCol (s : State) (v : Word) : (s.give v).curCol = s.curCol := rfl
@[simp] theorem State.give_curRow (s : State) (v : Word) : (s.give v).curRow = s.curRow := rfl
@[simp] theorem State.give_fnlen (s : State) (v : Word) : (s.give v).fnlen = s.fnlen := rfl
@[simp] theorem State.give_filesize (s : State) (v : Word) : (s.give v).filesize = s.filesize := rfl
@[simp] theorem State.give_maxbytes (s : State) (v : Word) : (s.give v).maxbytes = s.maxbytes := rfl
@[simp] theorem State.give_hdrcnt (s : State) (v : Word) : (s.give v).hdrcnt = s.hdrcnt := rfl
@[simp] theorem State.give_paycnt (s : State) (v : Word) : (s.give v).paycnt = s.paycnt := rfl
@[simp] theorem State.give_dataOut (s : State) (v : Word) : (s.give v).dataOut = s.dataOut := rfl
@[simp] theorem State.give_car (s : State) (v : Word) : (s.give v).car = s.car := rfl
@[simp] theorem State.give_name (s : State) (v : Word) : (s.give v).name = s.name := rfl
@[simp] theorem State.give_pay (s : State) (v : Word) : (s.give v).pay = s.pay := rfl
@[simp] theorem State.give_turns (s : State) (v : Word) : (s.give v).turns = s.turns := rfl
@[simp] theorem State.give_got (s : State) (v : Word) : (s.give v).got = v :: s.got := rfl
@[simp] theorem State.give_W (s : State) (v : Word) : (s.give v).W = s.W := rfl
@[simp] theorem State.give_H (s : State) (v : Word) : (s.give v).H = s.H := rfl
@[simp] theorem State.give_npix (s : State) (v : Word) : (s.give v).npix = s.npix := rfl
@[simp] theorem State.give_cursor (s : State) (v : Word) : (s.give v).cursor = s.cursor := rfl
@[simp] theorem State.give_memory (s : State) (v : Word) (sp : Space) : (s.give v).memory sp = s.memory sp := by cases sp <;> rfl
@[simp] theorem State.give_busy (s : State) (v : Word) : (s.give v).busy = s.busy := rfl

/-! ### withTurns -/

@[simp] theorem State.withTurns_err (s : State) (ts : List Turn) : (s.withTurns ts).err = s.err := rfl
@[simp] theorem State.withTurns_truncWarn (s : State) (ts : List Turn) : (s.withTurns ts).truncWarn = s.truncWarn := rfl
@[simp] theorem State.withTurns_done (s : State) (ts : List Turn) : (s.withTurns ts).done = s.done := rfl
@[simp] theorem State.withTurns_dropped (s : State) (ts : List Turn) : (s.withTurns ts).dropped = s.dropped := rfl
@[simp] theorem State.withTurns_seq (s : State) (ts : List Turn) : (s.withTurns ts).seq = s.seq := rfl
@[simp] theorem State.withTurns_mismatch (s : State) (ts : List Turn) : (s.withTurns ts).mismatch = s.mismatch := rfl
@[simp] theorem State.withTurns_idx (s : State) (ts : List Turn) : (s.withTurns ts).idx = s.idx := rfl
@[simp] theorem State.withTurns_width (s : State) (ts : List Turn) : (s.withTurns ts).width = s.width := rfl
@[simp] theorem State.withTurns_height (s : State) (ts : List Turn) : (s.withTurns ts).height = s.height := rfl
@[simp] theorem State.withTurns_alphaPresent (s : State) (ts : List Turn) : (s.withTurns ts).alphaPresent = s.alphaPresent := rfl
@[simp] theorem State.withTurns_curCol (s : State) (ts : List Turn) : (s.withTurns ts).curCol = s.curCol := rfl
@[simp] theorem State.withTurns_curRow (s : State) (ts : List Turn) : (s.withTurns ts).curRow = s.curRow := rfl
@[simp] theorem State.withTurns_fnlen (s : State) (ts : List Turn) : (s.withTurns ts).fnlen = s.fnlen := rfl
@[simp] theorem State.withTurns_filesize (s : State) (ts : List Turn) : (s.withTurns ts).filesize = s.filesize := rfl
@[simp] theorem State.withTurns_maxbytes (s : State) (ts : List Turn) : (s.withTurns ts).maxbytes = s.maxbytes := rfl
@[simp] theorem State.withTurns_hdrcnt (s : State) (ts : List Turn) : (s.withTurns ts).hdrcnt = s.hdrcnt := rfl
@[simp] theorem State.withTurns_paycnt (s : State) (ts : List Turn) : (s.withTurns ts).paycnt = s.paycnt := rfl
@[simp] theorem State.withTurns_dataOut (s : State) (ts : List Turn) : (s.withTurns ts).dataOut = s.dataOut := rfl
@[simp] theorem State.withTurns_car (s : State) (ts : List Turn) : (s.withTurns ts).car = s.car := rfl
@[simp] theorem State.withTurns_name (s : State) (ts : List Turn) : (s.withTurns ts).name = s.name := rfl
@[simp] theorem State.withTurns_pay (s : State) (ts : List Turn) : (s.withTurns ts).pay = s.pay := rfl
@[simp] theorem State.withTurns_turns (s : State) (ts : List Turn) : (s.withTurns ts).turns = ts := rfl
@[simp] theorem State.withTurns_got (s : State) (ts : List Turn) : (s.withTurns ts).got = s.got := rfl
@[simp] theorem State.withTurns_W (s : State) (ts : List Turn) : (s.withTurns ts).W = s.W := rfl
@[simp] theorem State.withTurns_H (s : State) (ts : List Turn) : (s.withTurns ts).H = s.H := rfl
@[simp] theorem State.withTurns_npix (s : State) (ts : List Turn) : (s.withTurns ts).npix = s.npix := rfl
@[simp] theorem State.withTurns_cursor (s : State) (ts : List Turn) : (s.withTurns ts).cursor = s.cursor := rfl
@[simp] theorem State.withTurns_memory (s : State) (ts : List Turn) (sp : Space) : (s.withTurns ts).memory sp = s.memory sp := by cases sp <;> rfl
@[simp] theorem State.withTurns_busy (s : State) (ts : List Turn) : (s.withTurns ts).busy = s.busy := rfl

/-! ### takeFnlenLow -/

@[simp] theorem State.takeFnlenLow_err (s : State) (c : Byte) : (s.takeFnlenLow c).err = s.err := rfl
@[simp] theorem State.takeFnlenLow_truncWarn (s : State) (c : Byte) : (s.takeFnlenLow c).truncWarn = s.truncWarn := rfl
@[simp] theorem State.takeFnlenLow_done (s : State) (c : Byte) : (s.takeFnlenLow c).done = s.done := rfl
@[simp] theorem State.takeFnlenLow_dropped (s : State) (c : Byte) : (s.takeFnlenLow c).dropped = s.dropped := rfl
@[simp] theorem State.takeFnlenLow_seq (s : State) (c : Byte) : (s.takeFnlenLow c).seq = s.seq := rfl
@[simp] theorem State.takeFnlenLow_mismatch (s : State) (c : Byte) : (s.takeFnlenLow c).mismatch = s.mismatch := rfl
@[simp] theorem State.takeFnlenLow_idx (s : State) (c : Byte) : (s.takeFnlenLow c).idx = 1 := rfl
@[simp] theorem State.takeFnlenLow_width (s : State) (c : Byte) : (s.takeFnlenLow c).width = s.width := rfl
@[simp] theorem State.takeFnlenLow_height (s : State) (c : Byte) : (s.takeFnlenLow c).height = s.height := rfl
@[simp] theorem State.takeFnlenLow_alphaPresent (s : State) (c : Byte) : (s.takeFnlenLow c).alphaPresent = s.alphaPresent := rfl
@[simp] theorem State.takeFnlenLow_curCol (s : State) (c : Byte) : (s.takeFnlenLow c).curCol = s.curCol := rfl
@[simp] theorem State.takeFnlenLow_curRow (s : State) (c : Byte) : (s.takeFnlenLow c).curRow = s.curRow := rfl
@[simp] theorem State.takeFnlenLow_fnlen (s : State) (c : Byte) : (s.takeFnlenLow c).fnlen = BitVec.ofNat 16 c.toNat := rfl
@[simp] theorem State.takeFnlenLow_filesize (s : State) (c : Byte) : (s.takeFnlenLow c).filesize = s.filesize := rfl
@[simp] theorem State.takeFnlenLow_maxbytes (s : State) (c : Byte) : (s.takeFnlenLow c).maxbytes = s.maxbytes := rfl
@[simp] theorem State.takeFnlenLow_hdrcnt (s : State) (c : Byte) : (s.takeFnlenLow c).hdrcnt = s.hdrcnt := rfl
@[simp] theorem State.takeFnlenLow_paycnt (s : State) (c : Byte) : (s.takeFnlenLow c).paycnt = s.paycnt := rfl
@[simp] theorem State.takeFnlenLow_dataOut (s : State) (c : Byte) : (s.takeFnlenLow c).dataOut = s.dataOut := rfl
@[simp] theorem State.takeFnlenLow_car (s : State) (c : Byte) : (s.takeFnlenLow c).car = s.car := rfl
@[simp] theorem State.takeFnlenLow_name (s : State) (c : Byte) : (s.takeFnlenLow c).name = s.name := rfl
@[simp] theorem State.takeFnlenLow_pay (s : State) (c : Byte) : (s.takeFnlenLow c).pay = s.pay := rfl
@[simp] theorem State.takeFnlenLow_turns (s : State) (c : Byte) : (s.takeFnlenLow c).turns = s.turns := rfl
@[simp] theorem State.takeFnlenLow_got (s : State) (c : Byte) : (s.takeFnlenLow c).got = s.got := rfl
@[simp] theorem State.takeFnlenLow_W (s : State) (c : Byte) : (s.takeFnlenLow c).W = s.W := rfl
@[simp] theorem State.takeFnlenLow_H (s : State) (c : Byte) : (s.takeFnlenLow c).H = s.H := rfl
@[simp] theorem State.takeFnlenLow_npix (s : State) (c : Byte) : (s.takeFnlenLow c).npix = s.npix := rfl
@[simp] theorem State.takeFnlenLow_cursor (s : State) (c : Byte) : (s.takeFnlenLow c).cursor = s.cursor := rfl
@[simp] theorem State.takeFnlenLow_memory (s : State) (c : Byte) (sp : Space) : (s.takeFnlenLow c).memory sp = s.memory sp := by cases sp <;> rfl
@[simp] theorem State.takeFnlenLow_busy (s : State) (c : Byte) : (s.takeFnlenLow c).busy = s.busy := rfl

/-! ### setIdx -/

@[simp] theorem State.setIdx_err (s : State) (i : BitVec 32) : (s.setIdx i).err = s.err := rfl
@[simp] theorem State.setIdx_truncWarn (s : State) (i : BitVec 32) : (s.setIdx i).truncWarn = s.truncWarn := rfl
@[simp] theorem State.setIdx_done (s : State) (i : BitVec 32) : (s.setIdx i).done = s.done := rfl
@[simp] theorem State.setIdx_dropped (s : State) (i : BitVec 32) : (s.setIdx i).dropped = s.dropped := rfl
@[simp] theorem State.setIdx_seq (s : State) (i : BitVec 32) : (s.setIdx i).seq = s.seq := rfl
@[simp] theorem State.setIdx_mismatch (s : State) (i : BitVec 32) : (s.setIdx i).mismatch = s.mismatch := rfl
@[simp] theorem State.setIdx_idx (s : State) (i : BitVec 32) : (s.setIdx i).idx = i := rfl
@[simp] theorem State.setIdx_width (s : State) (i : BitVec 32) : (s.setIdx i).width = s.width := rfl
@[simp] theorem State.setIdx_height (s : State) (i : BitVec 32) : (s.setIdx i).height = s.height := rfl
@[simp] theorem State.setIdx_alphaPresent (s : State) (i : BitVec 32) : (s.setIdx i).alphaPresent = s.alphaPresent := rfl
@[simp] theorem State.setIdx_curCol (s : State) (i : BitVec 32) : (s.setIdx i).curCol = s.curCol := rfl
@[simp] theorem State.setIdx_curRow (s : State) (i : BitVec 32) : (s.setIdx i).curRow = s.curRow := rfl
@[simp] theorem State.setIdx_fnlen (s : State) (i : BitVec 32) : (s.setIdx i).fnlen = s.fnlen := rfl
@[simp] theorem State.setIdx_filesize (s : State) (i : BitVec 32) : (s.setIdx i).filesize = s.filesize := rfl
@[simp] theorem State.setIdx_maxbytes (s : State) (i : BitVec 32) : (s.setIdx i).maxbytes = s.maxbytes := rfl
@[simp] theorem State.setIdx_hdrcnt (s : State) (i : BitVec 32) : (s.setIdx i).hdrcnt = s.hdrcnt := rfl
@[simp] theorem State.setIdx_paycnt (s : State) (i : BitVec 32) : (s.setIdx i).paycnt = s.paycnt := rfl
@[simp] theorem State.setIdx_dataOut (s : State) (i : BitVec 32) : (s.setIdx i).dataOut = s.dataOut := rfl
@[simp] theorem State.setIdx_car (s : State) (i : BitVec 32) : (s.setIdx i).car = s.car := rfl
@[simp] theorem State.setIdx_name (s : State) (i : BitVec 32) : (s.setIdx i).name = s.name := rfl
@[simp] theorem State.setIdx_pay (s : State) (i : BitVec 32) : (s.setIdx i).pay = s.pay := rfl
@[simp] theorem State.setIdx_turns (s : State) (i : BitVec 32) : (s.setIdx i).turns = s.turns := rfl
@[simp] theorem State.setIdx_got (s : State) (i : BitVec 32) : (s.setIdx i).got = s.got := rfl
@[simp] theorem State.setIdx_W (s : State) (i : BitVec 32) : (s.setIdx i).W = s.W := rfl
@[simp] theorem State.setIdx_H (s : State) (i : BitVec 32) : (s.setIdx i).H = s.H := rfl
@[simp] theorem State.setIdx_npix (s : State) (i : BitVec 32) : (s.setIdx i).npix = s.npix := rfl
@[simp] theorem State.setIdx_cursor (s : State) (i : BitVec 32) : (s.setIdx i).cursor = s.cursor := rfl
@[simp] theorem State.setIdx_memory (s : State) (i : BitVec 32) (sp : Space) : (s.setIdx i).memory sp = s.memory sp := by cases sp <;> rfl
@[simp] theorem State.setIdx_busy (s : State) (i : BitVec 32) : (s.setIdx i).busy = s.busy := rfl

/-! ### writeFnlenHigh -/

@[simp] theorem State.writeFnlenHigh_err (s : State) (c : Byte) : (s.writeFnlenHigh c).err = s.err := rfl
@[simp] theorem State.writeFnlenHigh_truncWarn (s : State) (c : Byte) : (s.writeFnlenHigh c).truncWarn = s.truncWarn := rfl
@[simp] theorem State.writeFnlenHigh_done (s : State) (c : Byte) : (s.writeFnlenHigh c).done = s.done := rfl
@[simp] theorem State.writeFnlenHigh_dropped (s : State) (c : Byte) : (s.writeFnlenHigh c).dropped = s.dropped := rfl
@[simp] theorem State.writeFnlenHigh_seq (s : State) (c : Byte) : (s.writeFnlenHigh c).seq = s.seq := rfl
@[simp] theorem State.writeFnlenHigh_mismatch (s : State) (c : Byte) : (s.writeFnlenHigh c).mismatch = s.mismatch := rfl
@[simp] theorem State.writeFnlenHigh_idx (s : State) (c : Byte) : (s.writeFnlenHigh c).idx = s.idx := rfl
@[simp] theorem State.writeFnlenHigh_width (s : State) (c : Byte) : (s.writeFnlenHigh c).width = s.width := rfl
@[simp] theorem State.writeFnlenHigh_height (s : State) (c : Byte) : (s.writeFnlenHigh c).height = s.height := rfl
@[simp] theorem State.writeFnlenHigh_alphaPresent (s : State) (c : Byte) : (s.writeFnlenHigh c).alphaPresent = s.alphaPresent := rfl
@[simp] theorem State.writeFnlenHigh_curCol (s : State) (c : Byte) : (s.writeFnlenHigh c).curCol = s.curCol := rfl
@[simp] theorem State.writeFnlenHigh_curRow (s : State) (c : Byte) : (s.writeFnlenHigh c).curRow = s.curRow := rfl
@[simp] theorem State.writeFnlenHigh_fnlen (s : State) (c : Byte) : (s.writeFnlenHigh c).fnlen = BitVec.ofNat 16 (s.fnlen.toNat + 256 * c.toNat) := rfl
@[simp] theorem State.writeFnlenHigh_filesize (s : State) (c : Byte) : (s.writeFnlenHigh c).filesize = s.filesize := rfl
@[simp] theorem State.writeFnlenHigh_maxbytes (s : State) (c : Byte) : (s.writeFnlenHigh c).maxbytes = s.maxbytes := rfl
@[simp] theorem State.writeFnlenHigh_hdrcnt (s : State) (c : Byte) : (s.writeFnlenHigh c).hdrcnt = BitVec.ofNat 17 (18 + (BitVec.ofNat 16 (s.fnlen.toNat + 256 * c.toNat)).toNat) := rfl
@[simp] theorem State.writeFnlenHigh_paycnt (s : State) (c : Byte) : (s.writeFnlenHigh c).paycnt = s.paycnt := rfl
@[simp] theorem State.writeFnlenHigh_dataOut (s : State) (c : Byte) : (s.writeFnlenHigh c).dataOut = s.dataOut := rfl
@[simp] theorem State.writeFnlenHigh_car (s : State) (c : Byte) : (s.writeFnlenHigh c).car = s.car := rfl
@[simp] theorem State.writeFnlenHigh_name (s : State) (c : Byte) : (s.writeFnlenHigh c).name = s.name := rfl
@[simp] theorem State.writeFnlenHigh_pay (s : State) (c : Byte) : (s.writeFnlenHigh c).pay = s.pay := rfl
@[simp] theorem State.writeFnlenHigh_turns (s : State) (c : Byte) : (s.writeFnlenHigh c).turns = s.turns := rfl
@[simp] theorem State.writeFnlenHigh_got (s : State) (c : Byte) : (s.writeFnlenHigh c).got = s.got := rfl
@[simp] theorem State.writeFnlenHigh_W (s : State) (c : Byte) : (s.writeFnlenHigh c).W = s.W := rfl
@[simp] theorem State.writeFnlenHigh_H (s : State) (c : Byte) : (s.writeFnlenHigh c).H = s.H := rfl
@[simp] theorem State.writeFnlenHigh_npix (s : State) (c : Byte) : (s.writeFnlenHigh c).npix = s.npix := rfl
@[simp] theorem State.writeFnlenHigh_cursor (s : State) (c : Byte) : (s.writeFnlenHigh c).cursor = s.cursor := rfl
@[simp] theorem State.writeFnlenHigh_memory (s : State) (c : Byte) (sp : Space) : (s.writeFnlenHigh c).memory sp = s.memory sp := by cases sp <;> rfl
@[simp] theorem State.writeFnlenHigh_busy (s : State) (c : Byte) : (s.writeFnlenHigh c).busy = s.busy := rfl

/-! ### writePaylen -/

@[simp] theorem State.writePaylen_err (s : State) (k : Nat) (c : Byte) : (s.writePaylen k c).err = s.err := rfl
@[simp] theorem State.writePaylen_truncWarn (s : State) (k : Nat) (c : Byte) : (s.writePaylen k c).truncWarn = s.truncWarn := rfl
@[simp] theorem State.writePaylen_done (s : State) (k : Nat) (c : Byte) : (s.writePaylen k c).done = s.done := rfl
@[simp] theorem State.writePaylen_dropped (s : State) (k : Nat) (c : Byte) : (s.writePaylen k c).dropped = s.dropped := rfl
@[simp] theorem State.writePaylen_seq (s : State) (k : Nat) (c : Byte) : (s.writePaylen k c).seq = s.seq := rfl
@[simp] theorem State.writePaylen_mismatch (s : State) (k : Nat) (c : Byte) : (s.writePaylen k c).mismatch = s.mismatch := rfl
@[simp] theorem State.writePaylen_idx (s : State) (k : Nat) (c : Byte) : (s.writePaylen k c).idx = s.idx := rfl
@[simp] theorem State.writePaylen_width (s : State) (k : Nat) (c : Byte) : (s.writePaylen k c).width = s.width := rfl
@[simp] theorem State.writePaylen_height (s : State) (k : Nat) (c : Byte) : (s.writePaylen k c).height = s.height := rfl
@[simp] theorem State.writePaylen_alphaPresent (s : State) (k : Nat) (c : Byte) : (s.writePaylen k c).alphaPresent = s.alphaPresent := rfl
@[simp] theorem State.writePaylen_curCol (s : State) (k : Nat) (c : Byte) : (s.writePaylen k c).curCol = s.curCol := rfl
@[simp] theorem State.writePaylen_curRow (s : State) (k : Nat) (c : Byte) : (s.writePaylen k c).curRow = s.curRow := rfl
@[simp] theorem State.writePaylen_fnlen (s : State) (k : Nat) (c : Byte) : (s.writePaylen k c).fnlen = s.fnlen := rfl
@[simp] theorem State.writePaylen_filesize (s : State) (k : Nat) (c : Byte) : (s.writePaylen k c).filesize = s.filesize := rfl
@[simp] theorem State.writePaylen_maxbytes (s : State) (k : Nat) (c : Byte) : (s.writePaylen k c).maxbytes = s.maxbytes := rfl
@[simp] theorem State.writePaylen_hdrcnt (s : State) (k : Nat) (c : Byte) : (s.writePaylen k c).hdrcnt = s.hdrcnt := rfl
@[simp] theorem State.writePaylen_paycnt (s : State) (k : Nat) (c : Byte) : (s.writePaylen k c).paycnt = BitVec.ofNat 32 (if k = 0 then c.toNat else s.paycnt.toNat + c.toNat * 256 ^ k) := rfl
@[simp] theorem State.writePaylen_dataOut (s : State) (k : Nat) (c : Byte) : (s.writePaylen k c).dataOut = s.dataOut := rfl
@[simp] theorem State.writePaylen_car (s : State) (k : Nat) (c : Byte) : (s.writePaylen k c).car = s.car := rfl
@[simp] theorem State.writePaylen_name (s : State) (k : Nat) (c : Byte) : (s.writePaylen k c).name = s.name := rfl
@[simp] theorem State.writePaylen_pay (s : State) (k : Nat) (c : Byte) : (s.writePaylen k c).pay = s.pay := rfl
@[simp] theorem State.writePaylen_turns (s : State) (k : Nat) (c : Byte) : (s.writePaylen k c).turns = s.turns := rfl
@[simp] theorem State.writePaylen_got (s : State) (k : Nat) (c : Byte) : (s.writePaylen k c).got = s.got := rfl
@[simp] theorem State.writePaylen_W (s : State) (k : Nat) (c : Byte) : (s.writePaylen k c).W = s.W := rfl
@[simp] theorem State.writePaylen_H (s : State) (k : Nat) (c : Byte) : (s.writePaylen k c).H = s.H := rfl
@[simp] theorem State.writePaylen_npix (s : State) (k : Nat) (c : Byte) : (s.writePaylen k c).npix = s.npix := rfl
@[simp] theorem State.writePaylen_cursor (s : State) (k : Nat) (c : Byte) : (s.writePaylen k c).cursor = s.cursor := rfl
@[simp] theorem State.writePaylen_memory (s : State) (k : Nat) (c : Byte) (sp : Space) : (s.writePaylen k c).memory sp = s.memory sp := by cases sp <;> rfl
@[simp] theorem State.writePaylen_busy (s : State) (k : Nat) (c : Byte) : (s.writePaylen k c).busy = s.busy := rfl

/-! ### passPair -/

@[simp] theorem State.passPair_err (s : State) (p : Nat) : (s.passPair p).err = s.err := rfl
@[simp] theorem State.passPair_truncWarn (s : State) (p : Nat) : (s.passPair p).truncWarn = s.truncWarn := rfl
@[simp] theorem State.passPair_done (s : State) (p : Nat) : (s.passPair p).done = s.done := rfl
@[simp] theorem State.passPair_dropped (s : State) (p : Nat) : (s.passPair p).dropped = s.dropped := rfl
@[simp] theorem State.passPair_seq (s : State) (p : Nat) : (s.passPair p).seq = s.seq := rfl
@[simp] theorem State.passPair_mismatch (s : State) (p : Nat) : (s.passPair p).mismatch = s.mismatch := rfl
@[simp] theorem State.passPair_idx (s : State) (p : Nat) : (s.passPair p).idx = s.idx := rfl
@[simp] theorem State.passPair_width (s : State) (p : Nat) : (s.passPair p).width = s.width := rfl
@[simp] theorem State.passPair_height (s : State) (p : Nat) : (s.passPair p).height = s.height := rfl
@[simp] theorem State.passPair_alphaPresent (s : State) (p : Nat) : (s.passPair p).alphaPresent = s.alphaPresent := rfl
@[simp] theorem State.passPair_curCol (s : State) (p : Nat) : (s.passPair p).curCol = BitVec.ofNat 16 (pix s.W (p + 2)).1 := rfl
@[simp] theorem State.passPair_curRow (s : State) (p : Nat) : (s.passPair p).curRow = BitVec.ofNat 17 (pix s.W (p + 2)).2 := rfl
@[simp] theorem State.passPair_fnlen (s : State) (p : Nat) : (s.passPair p).fnlen = s.fnlen := rfl
@[simp] theorem State.passPair_filesize (s : State) (p : Nat) : (s.passPair p).filesize = s.filesize := rfl
@[simp] theorem State.passPair_maxbytes (s : State) (p : Nat) : (s.passPair p).maxbytes = s.maxbytes := rfl
@[simp] theorem State.passPair_hdrcnt (s : State) (p : Nat) : (s.passPair p).hdrcnt = s.hdrcnt := rfl
@[simp] theorem State.passPair_paycnt (s : State) (p : Nat) : (s.passPair p).paycnt = s.paycnt := rfl
@[simp] theorem State.passPair_dataOut (s : State) (p : Nat) : (s.passPair p).dataOut = s.dataOut := rfl
@[simp] theorem State.passPair_car (s : State) (p : Nat) : (s.passPair p).car = s.car := rfl
@[simp] theorem State.passPair_name (s : State) (p : Nat) : (s.passPair p).name = s.name := rfl
@[simp] theorem State.passPair_pay (s : State) (p : Nat) : (s.passPair p).pay = s.pay := rfl
@[simp] theorem State.passPair_turns (s : State) (p : Nat) : (s.passPair p).turns = s.turns := rfl
@[simp] theorem State.passPair_got (s : State) (p : Nat) : (s.passPair p).got = s.got := rfl
@[simp] theorem State.passPair_W (s : State) (p : Nat) : (s.passPair p).W = s.W := rfl
@[simp] theorem State.passPair_H (s : State) (p : Nat) : (s.passPair p).H = s.H := rfl
@[simp] theorem State.passPair_npix (s : State) (p : Nat) : (s.passPair p).npix = s.npix := rfl
@[simp] theorem State.passPair_memory (s : State) (p : Nat) (sp : Space) : (s.passPair p).memory sp = s.memory sp := by cases sp <;> rfl
@[simp] theorem State.passPair_busy (s : State) (p : Nat) : (s.passPair p).busy = s.busy := rfl

/-! ### packAt -/

@[simp] theorem State.packAt_err (s : State) (p : Nat) (c : Byte) : (s.packAt p c).err = s.err := rfl
@[simp] theorem State.packAt_truncWarn (s : State) (p : Nat) (c : Byte) : (s.packAt p c).truncWarn = s.truncWarn := rfl
@[simp] theorem State.packAt_done (s : State) (p : Nat) (c : Byte) : (s.packAt p c).done = s.done := rfl
@[simp] theorem State.packAt_dropped (s : State) (p : Nat) (c : Byte) : (s.packAt p c).dropped = s.dropped := rfl
@[simp] theorem State.packAt_seq (s : State) (p : Nat) (c : Byte) : (s.packAt p c).seq = s.seq := rfl
@[simp] theorem State.packAt_mismatch (s : State) (p : Nat) (c : Byte) : (s.packAt p c).mismatch = s.mismatch := rfl
@[simp] theorem State.packAt_idx (s : State) (p : Nat) (c : Byte) : (s.packAt p c).idx = s.idx := rfl
@[simp] theorem State.packAt_width (s : State) (p : Nat) (c : Byte) : (s.packAt p c).width = s.width := rfl
@[simp] theorem State.packAt_height (s : State) (p : Nat) (c : Byte) : (s.packAt p c).height = s.height := rfl
@[simp] theorem State.packAt_alphaPresent (s : State) (p : Nat) (c : Byte) : (s.packAt p c).alphaPresent = s.alphaPresent := rfl
@[simp] theorem State.packAt_curCol (s : State) (p : Nat) (c : Byte) : (s.packAt p c).curCol = BitVec.ofNat 16 (pix s.W (p + 2)).1 := rfl
@[simp] theorem State.packAt_curRow (s : State) (p : Nat) (c : Byte) : (s.packAt p c).curRow = BitVec.ofNat 17 (pix s.W (p + 2)).2 := rfl
@[simp] theorem State.packAt_fnlen (s : State) (p : Nat) (c : Byte) : (s.packAt p c).fnlen = s.fnlen := rfl
@[simp] theorem State.packAt_filesize (s : State) (p : Nat) (c : Byte) : (s.packAt p c).filesize = s.filesize := rfl
@[simp] theorem State.packAt_maxbytes (s : State) (p : Nat) (c : Byte) : (s.packAt p c).maxbytes = s.maxbytes := rfl
@[simp] theorem State.packAt_hdrcnt (s : State) (p : Nat) (c : Byte) : (s.packAt p c).hdrcnt = s.hdrcnt := rfl
@[simp] theorem State.packAt_paycnt (s : State) (p : Nat) (c : Byte) : (s.packAt p c).paycnt = s.paycnt := rfl
@[simp] theorem State.packAt_dataOut (s : State) (p : Nat) (c : Byte) : (s.packAt p c).dataOut = s.dataOut := rfl
@[simp] theorem State.packAt_car (s : State) (p : Nat) (c : Byte) : (s.packAt p c).car = packPair p c s.car := rfl
@[simp] theorem State.packAt_name (s : State) (p : Nat) (c : Byte) : (s.packAt p c).name = s.name := rfl
@[simp] theorem State.packAt_pay (s : State) (p : Nat) (c : Byte) : (s.packAt p c).pay = s.pay := rfl
@[simp] theorem State.packAt_turns (s : State) (p : Nat) (c : Byte) : (s.packAt p c).turns = s.turns := rfl
@[simp] theorem State.packAt_got (s : State) (p : Nat) (c : Byte) : (s.packAt p c).got = s.got := rfl
@[simp] theorem State.packAt_W (s : State) (p : Nat) (c : Byte) : (s.packAt p c).W = s.W := rfl
@[simp] theorem State.packAt_H (s : State) (p : Nat) (c : Byte) : (s.packAt p c).H = s.H := rfl
@[simp] theorem State.packAt_npix (s : State) (p : Nat) (c : Byte) : (s.packAt p c).npix = s.npix := rfl
@[simp] theorem State.packAt_busy (s : State) (p : Nat) (c : Byte) : (s.packAt p c).busy = s.busy := rfl

/-! ### unpackAt -/

@[simp] theorem State.unpackAt_err (s : State) (p : Nat) : (s.unpackAt p).err = s.err := rfl
@[simp] theorem State.unpackAt_truncWarn (s : State) (p : Nat) : (s.unpackAt p).truncWarn = s.truncWarn := rfl
@[simp] theorem State.unpackAt_done (s : State) (p : Nat) : (s.unpackAt p).done = s.done := rfl
@[simp] theorem State.unpackAt_dropped (s : State) (p : Nat) : (s.unpackAt p).dropped = s.dropped := rfl
@[simp] theorem State.unpackAt_seq (s : State) (p : Nat) : (s.unpackAt p).seq = s.seq := rfl
@[simp] theorem State.unpackAt_mismatch (s : State) (p : Nat) : (s.unpackAt p).mismatch = s.mismatch := rfl
@[simp] theorem State.unpackAt_idx (s : State) (p : Nat) : (s.unpackAt p).idx = s.idx := rfl
@[simp] theorem State.unpackAt_width (s : State) (p : Nat) : (s.unpackAt p).width = s.width := rfl
@[simp] theorem State.unpackAt_height (s : State) (p : Nat) : (s.unpackAt p).height = s.height := rfl
@[simp] theorem State.unpackAt_alphaPresent (s : State) (p : Nat) : (s.unpackAt p).alphaPresent = s.alphaPresent := rfl
@[simp] theorem State.unpackAt_curCol (s : State) (p : Nat) : (s.unpackAt p).curCol = BitVec.ofNat 16 (pix s.W (p + 2)).1 := rfl
@[simp] theorem State.unpackAt_curRow (s : State) (p : Nat) : (s.unpackAt p).curRow = BitVec.ofNat 17 (pix s.W (p + 2)).2 := rfl
@[simp] theorem State.unpackAt_fnlen (s : State) (p : Nat) : (s.unpackAt p).fnlen = s.fnlen := rfl
@[simp] theorem State.unpackAt_filesize (s : State) (p : Nat) : (s.unpackAt p).filesize = s.filesize := rfl
@[simp] theorem State.unpackAt_maxbytes (s : State) (p : Nat) : (s.unpackAt p).maxbytes = s.maxbytes := rfl
@[simp] theorem State.unpackAt_hdrcnt (s : State) (p : Nat) : (s.unpackAt p).hdrcnt = s.hdrcnt := rfl
@[simp] theorem State.unpackAt_paycnt (s : State) (p : Nat) : (s.unpackAt p).paycnt = s.paycnt := rfl
@[simp] theorem State.unpackAt_dataOut (s : State) (p : Nat) : (s.unpackAt p).dataOut = unpackPair p s.car := rfl
@[simp] theorem State.unpackAt_car (s : State) (p : Nat) : (s.unpackAt p).car = s.car := rfl
@[simp] theorem State.unpackAt_name (s : State) (p : Nat) : (s.unpackAt p).name = s.name := rfl
@[simp] theorem State.unpackAt_pay (s : State) (p : Nat) : (s.unpackAt p).pay = s.pay := rfl
@[simp] theorem State.unpackAt_turns (s : State) (p : Nat) : (s.unpackAt p).turns = s.turns := rfl
@[simp] theorem State.unpackAt_got (s : State) (p : Nat) : (s.unpackAt p).got = s.got := rfl
@[simp] theorem State.unpackAt_W (s : State) (p : Nat) : (s.unpackAt p).W = s.W := rfl
@[simp] theorem State.unpackAt_H (s : State) (p : Nat) : (s.unpackAt p).H = s.H := rfl
@[simp] theorem State.unpackAt_npix (s : State) (p : Nat) : (s.unpackAt p).npix = s.npix := rfl
@[simp] theorem State.unpackAt_memory (s : State) (p : Nat) (sp : Space) : (s.unpackAt p).memory sp = s.memory sp := by cases sp <;> rfl
@[simp] theorem State.unpackAt_busy (s : State) (p : Nat) : (s.unpackAt p).busy = s.busy := rfl

/-! ### advance -/

@[simp] theorem State.advance_err (s : State) : (s.advance).err = s.err := rfl
@[simp] theorem State.advance_truncWarn (s : State) : (s.advance).truncWarn = s.truncWarn := rfl
@[simp] theorem State.advance_done (s : State) : (s.advance).done = s.done := rfl
@[simp] theorem State.advance_dropped (s : State) : (s.advance).dropped = s.dropped := rfl
@[simp] theorem State.advance_seq (s : State) : (s.advance).seq = s.seq := rfl
@[simp] theorem State.advance_mismatch (s : State) : (s.advance).mismatch = s.mismatch := rfl
@[simp] theorem State.advance_idx (s : State) : (s.advance).idx = s.idx := rfl
@[simp] theorem State.advance_width (s : State) : (s.advance).width = s.width := rfl
@[simp] theorem State.advance_height (s : State) : (s.advance).height = s.height := rfl
@[simp] theorem State.advance_alphaPresent (s : State) : (s.advance).alphaPresent = s.alphaPresent := rfl
@[simp] theorem State.advance_curCol (s : State) : (s.advance).curCol = BitVec.ofNat 16 (step1 s.W s.curCol.toNat s.curRow.toNat).1 := rfl
@[simp] theorem State.advance_curRow (s : State) : (s.advance).curRow = BitVec.ofNat 17 (step1 s.W s.curCol.toNat s.curRow.toNat).2 := rfl
@[simp] theorem State.advance_fnlen (s : State) : (s.advance).fnlen = s.fnlen := rfl
@[simp] theorem State.advance_filesize (s : State) : (s.advance).filesize = s.filesize := rfl
@[simp] theorem State.advance_maxbytes (s : State) : (s.advance).maxbytes = s.maxbytes := rfl
@[simp] theorem State.advance_hdrcnt (s : State) : (s.advance).hdrcnt = s.hdrcnt := rfl
@[simp] theorem State.advance_paycnt (s : State) : (s.advance).paycnt = s.paycnt := rfl
@[simp] theorem State.advance_dataOut (s : State) : (s.advance).dataOut = s.dataOut := rfl
@[simp] theorem State.advance_car (s : State) : (s.advance).car = s.car := rfl
@[simp] theorem State.advance_name (s : State) : (s.advance).name = s.name := rfl
@[simp] theorem State.advance_pay (s : State) : (s.advance).pay = s.pay := rfl
@[simp] theorem State.advance_turns (s : State) : (s.advance).turns = s.turns := rfl
@[simp] theorem State.advance_got (s : State) : (s.advance).got = s.got := rfl
@[simp] theorem State.advance_W (s : State) : (s.advance).W = s.W := rfl
@[simp] theorem State.advance_H (s : State) : (s.advance).H = s.H := rfl
@[simp] theorem State.advance_npix (s : State) : (s.advance).npix = s.npix := rfl
@[simp] theorem State.advance_memory (s : State) (sp : Space) : (s.advance).memory sp = s.memory sp := by cases sp <;> rfl
@[simp] theorem State.advance_busy (s : State) : (s.advance).busy = s.busy := rfl

/-! ### packNext -/

@[simp] theorem State.packNext_err (s : State) (p : Nat) (c : Byte) : (s.packNext p c).err = s.err := rfl
@[simp] theorem State.packNext_truncWarn (s : State) (p : Nat) (c : Byte) : (s.packNext p c).truncWarn = s.truncWarn := rfl
@[simp] theorem State.packNext_done (s : State) (p : Nat) (c : Byte) : (s.packNext p c).done = s.done := rfl
@[simp] theorem State.packNext_dropped (s : State) (p : Nat) (c : Byte) : (s.packNext p c).dropped = s.dropped := rfl
@[simp] theorem State.packNext_seq (s : State) (p : Nat) (c : Byte) : (s.packNext p c).seq = s.seq := rfl
@[simp] theorem State.packNext_mismatch (s : State) (p : Nat) (c : Byte) : (s.packNext p c).mismatch = s.mismatch := rfl
@[simp] theorem State.packNext_idx (s : State) (p : Nat) (c : Byte) : (s.packNext p c).idx = s.idx + 1 := rfl
@[simp] theorem State.packNext_width (s : State) (p : Nat) (c : Byte) : (s.packNext p c).width = s.width := rfl
@[simp] theorem State.packNext_height (s : State) (p : Nat) (c : Byte) : (s.packNext p c).height = s.height := rfl
@[simp] theorem State.packNext_alphaPresent (s : State) (p : Nat) (c : Byte) : (s.packNext p c).alphaPresent = s.alphaPresent := rfl
@[simp] theorem State.packNext_curCol (s : State) (p : Nat) (c : Byte) : (s.packNext p c).curCol = BitVec.ofNat 16 (pix s.W (p + 2)).1 := rfl
@[simp] theorem State.packNext_curRow (s : State) (p : Nat) (c : Byte) : (s.packNext p c).curRow = BitVec.ofNat 17 (pix s.W (p + 2)).2 := rfl
@[simp] theorem State.packNext_fnlen (s : State) (p : Nat) (c : Byte) : (s.packNext p c).fnlen = s.fnlen := rfl
@[simp] theorem State.packNext_filesize (s : State) (p : Nat) (c : Byte) : (s.packNext p c).filesize = s.filesize := rfl
@[simp] theorem State.packNext_maxbytes (s : State) (p : Nat) (c : Byte) : (s.packNext p c).maxbytes = s.maxbytes := rfl
@[simp] theorem State.packNext_hdrcnt (s : State) (p : Nat) (c : Byte) : (s.packNext p c).hdrcnt = s.hdrcnt := rfl
@[simp] theorem State.packNext_paycnt (s : State) (p : Nat) (c : Byte) : (s.packNext p c).paycnt = s.paycnt := rfl
@[simp] theorem State.packNext_dataOut (s : State) (p : Nat) (c : Byte) : (s.packNext p c).dataOut = s.dataOut := rfl
@[simp] theorem State.packNext_car (s : State) (p : Nat) (c : Byte) : (s.packNext p c).car = packPair p c s.car := rfl
@[simp] theorem State.packNext_name (s : State) (p : Nat) (c : Byte) : (s.packNext p c).name = s.name := rfl
@[simp] theorem State.packNext_pay (s : State) (p : Nat) (c : Byte) : (s.packNext p c).pay = s.pay := rfl
@[simp] theorem State.packNext_turns (s : State) (p : Nat) (c : Byte) : (s.packNext p c).turns = s.turns := rfl
@[simp] theorem State.packNext_got (s : State) (p : Nat) (c : Byte) : (s.packNext p c).got = s.got := rfl
@[simp] theorem State.packNext_W (s : State) (p : Nat) (c : Byte) : (s.packNext p c).W = s.W := rfl
@[simp] theorem State.packNext_H (s : State) (p : Nat) (c : Byte) : (s.packNext p c).H = s.H := rfl
@[simp] theorem State.packNext_npix (s : State) (p : Nat) (c : Byte) : (s.packNext p c).npix = s.npix := rfl
@[simp] theorem State.packNext_busy (s : State) (p : Nat) (c : Byte) : (s.packNext p c).busy = s.busy := rfl

/-! ### enterDone -/

@[simp] theorem State.enterDone_err (s : State) : (s.enterDone).err = s.err := rfl
@[simp] theorem State.enterDone_truncWarn (s : State) : (s.enterDone).truncWarn = s.truncWarn := rfl
@[simp] theorem State.enterDone_done (s : State) : (s.enterDone).done = true := rfl
@[simp] theorem State.enterDone_dropped (s : State) : (s.enterDone).dropped = s.dropped := rfl
@[simp] theorem State.enterDone_seq (s : State) : (s.enterDone).seq = .done := rfl
@[simp] theorem State.enterDone_mismatch (s : State) : (s.enterDone).mismatch = s.mismatch := rfl
@[simp] theorem State.enterDone_idx (s : State) : (s.enterDone).idx = s.idx := rfl
@[simp] theorem State.enterDone_width (s : State) : (s.enterDone).width = s.width := rfl
@[simp] theorem State.enterDone_height (s : State) : (s.enterDone).height = s.height := rfl
@[simp] theorem State.enterDone_alphaPresent (s : State) : (s.enterDone).alphaPresent = s.alphaPresent := rfl
@[simp] theorem State.enterDone_curCol (s : State) : (s.enterDone).curCol = s.curCol := rfl
@[simp] theorem State.enterDone_curRow (s : State) : (s.enterDone).curRow = s.curRow := rfl
@[simp] theorem State.enterDone_fnlen (s : State) : (s.enterDone).fnlen = s.fnlen := rfl
@[simp] theorem State.enterDone_filesize (s : State) : (s.enterDone).filesize = s.filesize := rfl
@[simp] theorem State.enterDone_maxbytes (s : State) : (s.enterDone).maxbytes = s.maxbytes := rfl
@[simp] theorem State.enterDone_hdrcnt (s : State) : (s.enterDone).hdrcnt = s.hdrcnt := rfl
@[simp] theorem State.enterDone_paycnt (s : State) : (s.enterDone).paycnt = s.paycnt := rfl
@[simp] theorem State.enterDone_dataOut (s : State) : (s.enterDone).dataOut = s.dataOut := rfl
@[simp] theorem State.enterDone_car (s : State) : (s.enterDone).car = s.car := rfl
@[simp] theorem State.enterDone_name (s : State) : (s.enterDone).name = s.name := rfl
@[simp] theorem State.enterDone_pay (s : State) : (s.enterDone).pay = s.pay := rfl
@[simp] theorem State.enterDone_turns (s : State) : (s.enterDone).turns = s.turns := rfl
@[simp] theorem State.enterDone_got (s : State) : (s.enterDone).got = s.got := rfl
@[simp] theorem State.enterDone_W (s : State) : (s.enterDone).W = s.W := rfl
@[simp] theorem State.enterDone_H (s : State) : (s.enterDone).H = s.H := rfl
@[simp] theorem State.enterDone_npix (s : State) : (s.enterDone).npix = s.npix := rfl
@[simp] theorem State.enterDone_cursor (s : State) : (s.enterDone).cursor = s.cursor := rfl
@[simp] theorem State.enterDone_memory (s : State) (sp : Space) : (s.enterDone).memory sp = s.memory sp := by cases sp <;> rfl

/-! ### writePlan -/

@[simp] theorem State.writePlan_err (s : State) (r : EncodePlan) : (s.writePlan r).err = s.err := rfl
@[simp] theorem State.writePlan_truncWarn (s : State) (r : EncodePlan) : (s.writePlan r).truncWarn = r.warn := rfl
@[simp] theorem State.writePlan_done (s : State) (r : EncodePlan) : (s.writePlan r).done = s.done := rfl
@[simp] theorem State.writePlan_dropped (s : State) (r : EncodePlan) : (s.writePlan r).dropped = s.dropped := rfl
@[simp] theorem State.writePlan_seq (s : State) (r : EncodePlan) : (s.writePlan r).seq = s.seq := rfl
@[simp] theorem State.writePlan_mismatch (s : State) (r : EncodePlan) : (s.writePlan r).mismatch = s.mismatch := rfl
@[simp] theorem State.writePlan_idx (s : State) (r : EncodePlan) : (s.writePlan r).idx = s.idx := rfl
@[simp] theorem State.writePlan_width (s : State) (r : EncodePlan) : (s.writePlan r).width = s.width := rfl
@[simp] theorem State.writePlan_height (s : State) (r : EncodePlan) : (s.writePlan r).height = s.height := rfl
@[simp] theorem State.writePlan_alphaPresent (s : State) (r : EncodePlan) : (s.writePlan r).alphaPresent = s.alphaPresent := rfl
@[simp] theorem State.writePlan_curCol (s : State) (r : EncodePlan) : (s.writePlan r).curCol = s.curCol := rfl
@[simp] theorem State.writePlan_curRow (s : State) (r : EncodePlan) : (s.writePlan r).curRow = s.curRow := rfl
@[simp] theorem State.writePlan_fnlen (s : State) (r : EncodePlan) : (s.writePlan r).fnlen = s.fnlen := rfl
@[simp] theorem State.writePlan_filesize (s : State) (r : EncodePlan) : (s.writePlan r).filesize = s.filesize := rfl
@[simp] theorem State.writePlan_maxbytes (s : State) (r : EncodePlan) : (s.writePlan r).maxbytes = BitVec.ofNat 32 r.maxB := rfl
@[simp] theorem State.writePlan_hdrcnt (s : State) (r : EncodePlan) : (s.writePlan r).hdrcnt = BitVec.ofNat 17 r.hdr := rfl
@[simp] theorem State.writePlan_paycnt (s : State) (r : EncodePlan) : (s.writePlan r).paycnt = BitVec.ofNat 32 r.pay := rfl
@[simp] theorem State.writePlan_dataOut (s : State) (r : EncodePlan) : (s.writePlan r).dataOut = s.dataOut := rfl
@[simp] theorem State.writePlan_car (s : State) (r : EncodePlan) : (s.writePlan r).car = s.car := rfl
@[simp] theorem State.writePlan_name (s : State) (r : EncodePlan) : (s.writePlan r).name = s.name := rfl
@[simp] theorem State.writePlan_pay (s : State) (r : EncodePlan) : (s.writePlan r).pay = s.pay := rfl
@[simp] theorem State.writePlan_turns (s : State) (r : EncodePlan) : (s.writePlan r).turns = s.turns := rfl
@[simp] theorem State.writePlan_got (s : State) (r : EncodePlan) : (s.writePlan r).got = s.got := rfl
@[simp] theorem State.writePlan_W (s : State) (r : EncodePlan) : (s.writePlan r).W = s.W := rfl
@[simp] theorem State.writePlan_H (s : State) (r : EncodePlan) : (s.writePlan r).H = s.H := rfl
@[simp] theorem State.writePlan_npix (s : State) (r : EncodePlan) : (s.writePlan r).npix = s.npix := rfl
@[simp] theorem State.writePlan_cursor (s : State) (r : EncodePlan) : (s.writePlan r).cursor = s.cursor := rfl
@[simp] theorem State.writePlan_memory (s : State) (r : EncodePlan) (sp : Space) : (s.writePlan r).memory sp = s.memory sp := by cases sp <;> rfl
@[simp] theorem State.writePlan_busy (s : State) (r : EncodePlan) : (s.writePlan r).busy = s.busy := rfl

/-! ### writeMaxBytes -/

@[simp] theorem State.writeMaxBytes_err (s : State) (n : Nat) : (s.writeMaxBytes n).err = s.err := rfl
@[simp] theorem State.writeMaxBytes_truncWarn (s : State) (n : Nat) : (s.writeMaxBytes n).truncWarn = s.truncWarn := rfl
@[simp] theorem State.writeMaxBytes_done (s : State) (n : Nat) : (s.writeMaxBytes n).done = s.done := rfl
@[simp] theorem State.writeMaxBytes_dropped (s : State) (n : Nat) : (s.writeMaxBytes n).dropped = s.dropped := rfl
@[simp] theorem State.writeMaxBytes_seq (s : State) (n : Nat) : (s.writeMaxBytes n).seq = s.seq := rfl
@[simp] theorem State.writeMaxBytes_mismatch (s : State) (n : Nat) : (s.writeMaxBytes n).mismatch = s.mismatch := rfl
@[simp] theorem State.writeMaxBytes_idx (s : State) (n : Nat) : (s.writeMaxBytes n).idx = s.idx := rfl
@[simp] theorem State.writeMaxBytes_width (s : State) (n : Nat) : (s.writeMaxBytes n).width = s.width := rfl
@[simp] theorem State.writeMaxBytes_height (s : State) (n : Nat) : (s.writeMaxBytes n).height = s.height := rfl
@[simp] theorem State.writeMaxBytes_alphaPresent (s : State) (n : Nat) : (s.writeMaxBytes n).alphaPresent = s.alphaPresent := rfl
@[simp] theorem State.writeMaxBytes_curCol (s : State) (n : Nat) : (s.writeMaxBytes n).curCol = s.curCol := rfl
@[simp] theorem State.writeMaxBytes_curRow (s : State) (n : Nat) : (s.writeMaxBytes n).curRow = s.curRow := rfl
@[simp] theorem State.writeMaxBytes_fnlen (s : State) (n : Nat) : (s.writeMaxBytes n).fnlen = s.fnlen := rfl
@[simp] theorem State.writeMaxBytes_filesize (s : State) (n : Nat) : (s.writeMaxBytes n).filesize = s.filesize := rfl
@[simp] theorem State.writeMaxBytes_maxbytes (s : State) (n : Nat) : (s.writeMaxBytes n).maxbytes = BitVec.ofNat 32 n := rfl
@[simp] theorem State.writeMaxBytes_hdrcnt (s : State) (n : Nat) : (s.writeMaxBytes n).hdrcnt = s.hdrcnt := rfl
@[simp] theorem State.writeMaxBytes_paycnt (s : State) (n : Nat) : (s.writeMaxBytes n).paycnt = s.paycnt := rfl
@[simp] theorem State.writeMaxBytes_dataOut (s : State) (n : Nat) : (s.writeMaxBytes n).dataOut = s.dataOut := rfl
@[simp] theorem State.writeMaxBytes_car (s : State) (n : Nat) : (s.writeMaxBytes n).car = s.car := rfl
@[simp] theorem State.writeMaxBytes_name (s : State) (n : Nat) : (s.writeMaxBytes n).name = s.name := rfl
@[simp] theorem State.writeMaxBytes_pay (s : State) (n : Nat) : (s.writeMaxBytes n).pay = s.pay := rfl
@[simp] theorem State.writeMaxBytes_turns (s : State) (n : Nat) : (s.writeMaxBytes n).turns = s.turns := rfl
@[simp] theorem State.writeMaxBytes_got (s : State) (n : Nat) : (s.writeMaxBytes n).got = s.got := rfl
@[simp] theorem State.writeMaxBytes_W (s : State) (n : Nat) : (s.writeMaxBytes n).W = s.W := rfl
@[simp] theorem State.writeMaxBytes_H (s : State) (n : Nat) : (s.writeMaxBytes n).H = s.H := rfl
@[simp] theorem State.writeMaxBytes_npix (s : State) (n : Nat) : (s.writeMaxBytes n).npix = s.npix := rfl
@[simp] theorem State.writeMaxBytes_cursor (s : State) (n : Nat) : (s.writeMaxBytes n).cursor = s.cursor := rfl
@[simp] theorem State.writeMaxBytes_memory (s : State) (n : Nat) (sp : Space) : (s.writeMaxBytes n).memory sp = s.memory sp := by cases sp <;> rfl
@[simp] theorem State.writeMaxBytes_busy (s : State) (n : Nat) : (s.writeMaxBytes n).busy = s.busy := rfl

/-! ### takeMagicByte -/

@[simp] theorem State.takeMagicByte_err (s : State) (c : Byte) : (s.takeMagicByte c).err = s.err := rfl
@[simp] theorem State.takeMagicByte_truncWarn (s : State) (c : Byte) : (s.takeMagicByte c).truncWarn = s.truncWarn := rfl
@[simp] theorem State.takeMagicByte_done (s : State) (c : Byte) : (s.takeMagicByte c).done = s.done := rfl
@[simp] theorem State.takeMagicByte_dropped (s : State) (c : Byte) : (s.takeMagicByte c).dropped = s.dropped := rfl
@[simp] theorem State.takeMagicByte_seq (s : State) (c : Byte) : (s.takeMagicByte c).seq = s.seq := rfl
@[simp] theorem State.takeMagicByte_mismatch (s : State) (c : Byte) : (s.takeMagicByte c).mismatch = mismatchAfter s.mismatch c s.idx.toNat := rfl
@[simp] theorem State.takeMagicByte_idx (s : State) (c : Byte) : (s.takeMagicByte c).idx = s.idx + 1 := rfl
@[simp] theorem State.takeMagicByte_width (s : State) (c : Byte) : (s.takeMagicByte c).width = s.width := rfl
@[simp] theorem State.takeMagicByte_height (s : State) (c : Byte) : (s.takeMagicByte c).height = s.height := rfl
@[simp] theorem State.takeMagicByte_alphaPresent (s : State) (c : Byte) : (s.takeMagicByte c).alphaPresent = s.alphaPresent := rfl
@[simp] theorem State.takeMagicByte_curCol (s : State) (c : Byte) : (s.takeMagicByte c).curCol = s.curCol := rfl
@[simp] theorem State.takeMagicByte_curRow (s : State) (c : Byte) : (s.takeMagicByte c).curRow = s.curRow := rfl
@[simp] theorem State.takeMagicByte_fnlen (s : State) (c : Byte) : (s.takeMagicByte c).fnlen = s.fnlen := rfl
@[simp] theorem State.takeMagicByte_filesize (s : State) (c : Byte) : (s.takeMagicByte c).filesize = s.filesize := rfl
@[simp] theorem State.takeMagicByte_maxbytes (s : State) (c : Byte) : (s.takeMagicByte c).maxbytes = s.maxbytes := rfl
@[simp] theorem State.takeMagicByte_hdrcnt (s : State) (c : Byte) : (s.takeMagicByte c).hdrcnt = s.hdrcnt := rfl
@[simp] theorem State.takeMagicByte_paycnt (s : State) (c : Byte) : (s.takeMagicByte c).paycnt = s.paycnt := rfl
@[simp] theorem State.takeMagicByte_dataOut (s : State) (c : Byte) : (s.takeMagicByte c).dataOut = s.dataOut := rfl
@[simp] theorem State.takeMagicByte_car (s : State) (c : Byte) : (s.takeMagicByte c).car = s.car := rfl
@[simp] theorem State.takeMagicByte_name (s : State) (c : Byte) : (s.takeMagicByte c).name = s.name := rfl
@[simp] theorem State.takeMagicByte_pay (s : State) (c : Byte) : (s.takeMagicByte c).pay = s.pay := rfl
@[simp] theorem State.takeMagicByte_turns (s : State) (c : Byte) : (s.takeMagicByte c).turns = s.turns := rfl
@[simp] theorem State.takeMagicByte_got (s : State) (c : Byte) : (s.takeMagicByte c).got = s.got := rfl
@[simp] theorem State.takeMagicByte_W (s : State) (c : Byte) : (s.takeMagicByte c).W = s.W := rfl
@[simp] theorem State.takeMagicByte_H (s : State) (c : Byte) : (s.takeMagicByte c).H = s.H := rfl
@[simp] theorem State.takeMagicByte_npix (s : State) (c : Byte) : (s.takeMagicByte c).npix = s.npix := rfl
@[simp] theorem State.takeMagicByte_cursor (s : State) (c : Byte) : (s.takeMagicByte c).cursor = s.cursor := rfl
@[simp] theorem State.takeMagicByte_memory (s : State) (c : Byte) (sp : Space) : (s.takeMagicByte c).memory sp = s.memory sp := by cases sp <;> rfl
@[simp] theorem State.takeMagicByte_busy (s : State) (c : Byte) : (s.takeMagicByte c).busy = s.busy := rfl

/-! ### resetBlock -/

@[simp] theorem State.resetBlock_err (s : State) : (s.resetBlock).err = .noError := rfl
@[simp] theorem State.resetBlock_truncWarn (s : State) : (s.resetBlock).truncWarn = false := rfl
@[simp] theorem State.resetBlock_done (s : State) : (s.resetBlock).done = false := rfl
@[simp] theorem State.resetBlock_dropped (s : State) : (s.resetBlock).dropped = false := rfl
@[simp] theorem State.resetBlock_seq (s : State) : (s.resetBlock).seq = .idle := rfl
@[simp] theorem State.resetBlock_mismatch (s : State) : (s.resetBlock).mismatch = false := rfl
@[simp] theorem State.resetBlock_idx (s : State) : (s.resetBlock).idx = 0 := rfl
@[simp] theorem State.resetBlock_width (s : State) : (s.resetBlock).width = 0 := rfl
@[simp] theorem State.resetBlock_height (s : State) : (s.resetBlock).height = 0 := rfl
@[simp] theorem State.resetBlock_alphaPresent (s : State) : (s.resetBlock).alphaPresent = false := rfl
@[simp] theorem State.resetBlock_curCol (s : State) : (s.resetBlock).curCol = 0 := rfl
@[simp] theorem State.resetBlock_curRow (s : State) : (s.resetBlock).curRow = 0 := rfl
@[simp] theorem State.resetBlock_fnlen (s : State) : (s.resetBlock).fnlen = 0 := rfl
@[simp] theorem State.resetBlock_filesize (s : State) : (s.resetBlock).filesize = 0 := rfl
@[simp] theorem State.resetBlock_maxbytes (s : State) : (s.resetBlock).maxbytes = 0 := rfl
@[simp] theorem State.resetBlock_hdrcnt (s : State) : (s.resetBlock).hdrcnt = 0 := rfl
@[simp] theorem State.resetBlock_paycnt (s : State) : (s.resetBlock).paycnt = 0 := rfl
@[simp] theorem State.resetBlock_dataOut (s : State) : (s.resetBlock).dataOut = 0 := rfl
@[simp] theorem State.resetBlock_car (s : State) : (s.resetBlock).car = s.car := rfl
@[simp] theorem State.resetBlock_name (s : State) : (s.resetBlock).name = s.name := rfl
@[simp] theorem State.resetBlock_pay (s : State) : (s.resetBlock).pay = s.pay := rfl
@[simp] theorem State.resetBlock_turns (s : State) : (s.resetBlock).turns = s.turns := rfl
@[simp] theorem State.resetBlock_got (s : State) : (s.resetBlock).got = s.got := rfl
@[simp] theorem State.resetBlock_memory (s : State) (sp : Space) : (s.resetBlock).memory sp = s.memory sp := by cases sp <;> rfl

/-! ### performEncode -/

@[simp] theorem performEncode_err (s : State) : (performEncode s).err = s.err := rfl
@[simp] theorem performEncode_truncWarn (s : State) : (performEncode s).truncWarn = s.truncWarn := rfl
@[simp] theorem performEncode_done (s : State) : (performEncode s).done = s.done := rfl
@[simp] theorem performEncode_dropped (s : State) : (performEncode s).dropped = s.dropped := rfl
@[simp] theorem performEncode_seq (s : State) : (performEncode s).seq = .ePlan := rfl
@[simp] theorem performEncode_mismatch (s : State) : (performEncode s).mismatch = false := rfl
@[simp] theorem performEncode_idx (s : State) : (performEncode s).idx = 0 := rfl
@[simp] theorem performEncode_width (s : State) : (performEncode s).width = s.width := rfl
@[simp] theorem performEncode_height (s : State) : (performEncode s).height = s.height := rfl
@[simp] theorem performEncode_alphaPresent (s : State) : (performEncode s).alphaPresent = s.alphaPresent := rfl
@[simp] theorem performEncode_curCol (s : State) : (performEncode s).curCol = s.curCol := rfl
@[simp] theorem performEncode_curRow (s : State) : (performEncode s).curRow = s.curRow := rfl
@[simp] theorem performEncode_fnlen (s : State) : (performEncode s).fnlen = s.fnlen := rfl
@[simp] theorem performEncode_filesize (s : State) : (performEncode s).filesize = s.filesize := rfl
@[simp] theorem performEncode_maxbytes (s : State) : (performEncode s).maxbytes = s.maxbytes := rfl
@[simp] theorem performEncode_hdrcnt (s : State) : (performEncode s).hdrcnt = s.hdrcnt := rfl
@[simp] theorem performEncode_paycnt (s : State) : (performEncode s).paycnt = s.paycnt := rfl
@[simp] theorem performEncode_dataOut (s : State) : (performEncode s).dataOut = s.dataOut := rfl
@[simp] theorem performEncode_car (s : State) : (performEncode s).car = s.car := rfl
@[simp] theorem performEncode_name (s : State) : (performEncode s).name = s.name := rfl
@[simp] theorem performEncode_pay (s : State) : (performEncode s).pay = s.pay := rfl
@[simp] theorem performEncode_turns (s : State) : (performEncode s).turns = s.turns := rfl
@[simp] theorem performEncode_got (s : State) : (performEncode s).got = s.got := rfl
@[simp] theorem performEncode_W (s : State) : (performEncode s).W = s.W := rfl
@[simp] theorem performEncode_H (s : State) : (performEncode s).H = s.H := rfl
@[simp] theorem performEncode_npix (s : State) : (performEncode s).npix = s.npix := rfl
@[simp] theorem performEncode_cursor (s : State) : (performEncode s).cursor = s.cursor := rfl
@[simp] theorem performEncode_memory (s : State) (sp : Space) : (performEncode s).memory sp = s.memory sp := by cases sp <;> rfl

/-! ### performDecode -/

@[simp] theorem performDecode_err (s : State) : (performDecode s).err = s.err := rfl
@[simp] theorem performDecode_truncWarn (s : State) : (performDecode s).truncWarn = s.truncWarn := rfl
@[simp] theorem performDecode_done (s : State) : (performDecode s).done = s.done := rfl
@[simp] theorem performDecode_dropped (s : State) : (performDecode s).dropped = s.dropped := rfl
@[simp] theorem performDecode_seq (s : State) : (performDecode s).seq = .dDepth := rfl
@[simp] theorem performDecode_mismatch (s : State) : (performDecode s).mismatch = false := rfl
@[simp] theorem performDecode_idx (s : State) : (performDecode s).idx = 0 := rfl
@[simp] theorem performDecode_width (s : State) : (performDecode s).width = s.width := rfl
@[simp] theorem performDecode_height (s : State) : (performDecode s).height = s.height := rfl
@[simp] theorem performDecode_alphaPresent (s : State) : (performDecode s).alphaPresent = s.alphaPresent := rfl
@[simp] theorem performDecode_curCol (s : State) : (performDecode s).curCol = s.curCol := rfl
@[simp] theorem performDecode_curRow (s : State) : (performDecode s).curRow = s.curRow := rfl
@[simp] theorem performDecode_fnlen (s : State) : (performDecode s).fnlen = s.fnlen := rfl
@[simp] theorem performDecode_filesize (s : State) : (performDecode s).filesize = s.filesize := rfl
@[simp] theorem performDecode_maxbytes (s : State) : (performDecode s).maxbytes = s.maxbytes := rfl
@[simp] theorem performDecode_hdrcnt (s : State) : (performDecode s).hdrcnt = s.hdrcnt := rfl
@[simp] theorem performDecode_paycnt (s : State) : (performDecode s).paycnt = s.paycnt := rfl
@[simp] theorem performDecode_dataOut (s : State) : (performDecode s).dataOut = s.dataOut := rfl
@[simp] theorem performDecode_car (s : State) : (performDecode s).car = s.car := rfl
@[simp] theorem performDecode_name (s : State) : (performDecode s).name = s.name := rfl
@[simp] theorem performDecode_pay (s : State) : (performDecode s).pay = s.pay := rfl
@[simp] theorem performDecode_turns (s : State) : (performDecode s).turns = s.turns := rfl
@[simp] theorem performDecode_got (s : State) : (performDecode s).got = s.got := rfl
@[simp] theorem performDecode_W (s : State) : (performDecode s).W = s.W := rfl
@[simp] theorem performDecode_H (s : State) : (performDecode s).H = s.H := rfl
@[simp] theorem performDecode_npix (s : State) : (performDecode s).npix = s.npix := rfl
@[simp] theorem performDecode_cursor (s : State) : (performDecode s).cursor = s.cursor := rfl
@[simp] theorem performDecode_memory (s : State) (sp : Space) : (performDecode s).memory sp = s.memory sp := by cases sp <;> rfl

/-! ### advanceTimes -/

theorem State.advanceTimes_frame (n : Nat) (s : State) :
    ∃ c r, State.advanceTimes n s = { s with curCol := c, curRow := r } := by
  induction n generalizing s with
  | zero => exact ⟨s.curCol, s.curRow, rfl⟩
  | succ n ih =>
    obtain ⟨c, r, h⟩ := ih s.advance
    exact ⟨c, r, by rw [State.advanceTimes, h]; rfl⟩

@[simp] theorem State.advanceTimes_err (n : Nat) (s : State) : (State.advanceTimes n s).err = s.err := by
  obtain ⟨c, r, h⟩ := State.advanceTimes_frame n s; rw [h]
@[simp] theorem State.advanceTimes_truncWarn (n : Nat) (s : State) : (State.advanceTimes n s).truncWarn = s.truncWarn := by
  obtain ⟨c, r, h⟩ := State.advanceTimes_frame n s; rw [h]
@[simp] theorem State.advanceTimes_done (n : Nat) (s : State) : (State.advanceTimes n s).done = s.done := by
  obtain ⟨c, r, h⟩ := State.advanceTimes_frame n s; rw [h]
@[simp] theorem State.advanceTimes_dropped (n : Nat) (s : State) : (State.advanceTimes n s).dropped = s.dropped := by
  obtain ⟨c, r, h⟩ := State.advanceTimes_frame n s; rw [h]
@[simp] theorem State.advanceTimes_seq (n : Nat) (s : State) : (State.advanceTimes n s).seq = s.seq := by
  obtain ⟨c, r, h⟩ := State.advanceTimes_frame n s; rw [h]
@[simp] theorem State.advanceTimes_mismatch (n : Nat) (s : State) : (State.advanceTimes n s).mismatch = s.mismatch := by
  obtain ⟨c, r, h⟩ := State.advanceTimes_frame n s; rw [h]
@[simp] theorem State.advanceTimes_idx (n : Nat) (s : State) : (State.advanceTimes n s).idx = s.idx := by
  obtain ⟨c, r, h⟩ := State.advanceTimes_frame n s; rw [h]
@[simp] theorem State.advanceTimes_width (n : Nat) (s : State) : (State.advanceTimes n s).width = s.width := by
  obtain ⟨c, r, h⟩ := State.advanceTimes_frame n s; rw [h]
@[simp] theorem State.advanceTimes_height (n : Nat) (s : State) : (State.advanceTimes n s).height = s.height := by
  obtain ⟨c, r, h⟩ := State.advanceTimes_frame n s; rw [h]
@[simp] theorem State.advanceTimes_alphaPresent (n : Nat) (s : State) : (State.advanceTimes n s).alphaPresent = s.alphaPresent := by
  obtain ⟨c, r, h⟩ := State.advanceTimes_frame n s; rw [h]
@[simp] theorem State.advanceTimes_fnlen (n : Nat) (s : State) : (State.advanceTimes n s).fnlen = s.fnlen := by
  obtain ⟨c, r, h⟩ := State.advanceTimes_frame n s; rw [h]
@[simp] theorem State.advanceTimes_filesize (n : Nat) (s : State) : (State.advanceTimes n s).filesize = s.filesize := by
  obtain ⟨c, r, h⟩ := State.advanceTimes_frame n s; rw [h]
@[simp] theorem State.advanceTimes_maxbytes (n : Nat) (s : State) : (State.advanceTimes n s).maxbytes = s.maxbytes := by
  obtain ⟨c, r, h⟩ := State.advanceTimes_frame n s; rw [h]
@[simp] theorem State.advanceTimes_hdrcnt (n : Nat) (s : State) : (State.advanceTimes n s).hdrcnt = s.hdrcnt := by
  obtain ⟨c, r, h⟩ := State.advanceTimes_frame n s; rw [h]
@[simp] theorem State.advanceTimes_paycnt (n : Nat) (s : State) : (State.advanceTimes n s).paycnt = s.paycnt := by
  obtain ⟨c, r, h⟩ := State.advanceTimes_frame n s; rw [h]
@[simp] theorem State.advanceTimes_dataOut (n : Nat) (s : State) : (State.advanceTimes n s).dataOut = s.dataOut := by
  obtain ⟨c, r, h⟩ := State.advanceTimes_frame n s; rw [h]
@[simp] theorem State.advanceTimes_car (n : Nat) (s : State) : (State.advanceTimes n s).car = s.car := by
  obtain ⟨c, r, h⟩ := State.advanceTimes_frame n s; rw [h]
@[simp] theorem State.advanceTimes_name (n : Nat) (s : State) : (State.advanceTimes n s).name = s.name := by
  obtain ⟨c, r, h⟩ := State.advanceTimes_frame n s; rw [h]
@[simp] theorem State.advanceTimes_pay (n : Nat) (s : State) : (State.advanceTimes n s).pay = s.pay := by
  obtain ⟨c, r, h⟩ := State.advanceTimes_frame n s; rw [h]
@[simp] theorem State.advanceTimes_turns (n : Nat) (s : State) : (State.advanceTimes n s).turns = s.turns := by
  obtain ⟨c, r, h⟩ := State.advanceTimes_frame n s; rw [h]
@[simp] theorem State.advanceTimes_got (n : Nat) (s : State) : (State.advanceTimes n s).got = s.got := by
  obtain ⟨c, r, h⟩ := State.advanceTimes_frame n s; rw [h]
@[simp] theorem State.advanceTimes_W (n : Nat) (s : State) : (State.advanceTimes n s).W = s.W := by
  obtain ⟨c, r, h⟩ := State.advanceTimes_frame n s; rw [h]; rfl
@[simp] theorem State.advanceTimes_H (n : Nat) (s : State) : (State.advanceTimes n s).H = s.H := by
  obtain ⟨c, r, h⟩ := State.advanceTimes_frame n s; rw [h]; rfl
@[simp] theorem State.advanceTimes_npix (n : Nat) (s : State) : (State.advanceTimes n s).npix = s.npix := by
  obtain ⟨c, r, h⟩ := State.advanceTimes_frame n s; rw [h]; rfl
@[simp] theorem State.advanceTimes_busy (n : Nat) (s : State) : (State.advanceTimes n s).busy = s.busy := by
  obtain ⟨c, r, h⟩ := State.advanceTimes_frame n s; rw [h]; rfl
@[simp] theorem State.advanceTimes_memory (n : Nat) (s : State) (sp : Space) :
    (State.advanceTimes n s).memory sp = s.memory sp := by
  cases sp <;> simp [State.memory]

/-! ### memWrite, outside the memories -/

@[simp] theorem State.memWrite_err (s : State) (sp : Space) (a : Nat) (v : Byte) : (s.memWrite sp a v).err = s.err := by cases sp <;> rfl
@[simp] theorem State.memWrite_truncWarn (s : State) (sp : Space) (a : Nat) (v : Byte) : (s.memWrite sp a v).truncWarn = s.truncWarn := by cases sp <;> rfl
@[simp] theorem State.memWrite_done (s : State) (sp : Space) (a : Nat) (v : Byte) : (s.memWrite sp a v).done = s.done := by cases sp <;> rfl
@[simp] theorem State.memWrite_dropped (s : State) (sp : Space) (a : Nat) (v : Byte) : (s.memWrite sp a v).dropped = s.dropped := by cases sp <;> rfl
@[simp] theorem State.memWrite_seq (s : State) (sp : Space) (a : Nat) (v : Byte) : (s.memWrite sp a v).seq = s.seq := by cases sp <;> rfl
@[simp] theorem State.memWrite_mismatch (s : State) (sp : Space) (a : Nat) (v : Byte) : (s.memWrite sp a v).mismatch = s.mismatch := by cases sp <;> rfl
@[simp] theorem State.memWrite_idx (s : State) (sp : Space) (a : Nat) (v : Byte) : (s.memWrite sp a v).idx = s.idx := by cases sp <;> rfl
@[simp] theorem State.memWrite_width (s : State) (sp : Space) (a : Nat) (v : Byte) : (s.memWrite sp a v).width = s.width := by cases sp <;> rfl
@[simp] theorem State.memWrite_height (s : State) (sp : Space) (a : Nat) (v : Byte) : (s.memWrite sp a v).height = s.height := by cases sp <;> rfl
@[simp] theorem State.memWrite_alphaPresent (s : State) (sp : Space) (a : Nat) (v : Byte) : (s.memWrite sp a v).alphaPresent = s.alphaPresent := by cases sp <;> rfl
@[simp] theorem State.memWrite_curCol (s : State) (sp : Space) (a : Nat) (v : Byte) : (s.memWrite sp a v).curCol = s.curCol := by cases sp <;> rfl
@[simp] theorem State.memWrite_curRow (s : State) (sp : Space) (a : Nat) (v : Byte) : (s.memWrite sp a v).curRow = s.curRow := by cases sp <;> rfl
@[simp] theorem State.memWrite_fnlen (s : State) (sp : Space) (a : Nat) (v : Byte) : (s.memWrite sp a v).fnlen = s.fnlen := by cases sp <;> rfl
@[simp] theorem State.memWrite_filesize (s : State) (sp : Space) (a : Nat) (v : Byte) : (s.memWrite sp a v).filesize = s.filesize := by cases sp <;> rfl
@[simp] theorem State.memWrite_maxbytes (s : State) (sp : Space) (a : Nat) (v : Byte) : (s.memWrite sp a v).maxbytes = s.maxbytes := by cases sp <;> rfl
@[simp] theorem State.memWrite_hdrcnt (s : State) (sp : Space) (a : Nat) (v : Byte) : (s.memWrite sp a v).hdrcnt = s.hdrcnt := by cases sp <;> rfl
@[simp] theorem State.memWrite_paycnt (s : State) (sp : Space) (a : Nat) (v : Byte) : (s.memWrite sp a v).paycnt = s.paycnt := by cases sp <;> rfl
@[simp] theorem State.memWrite_dataOut (s : State) (sp : Space) (a : Nat) (v : Byte) : (s.memWrite sp a v).dataOut = s.dataOut := by cases sp <;> rfl
@[simp] theorem State.memWrite_turns (s : State) (sp : Space) (a : Nat) (v : Byte) : (s.memWrite sp a v).turns = s.turns := by cases sp <;> rfl
@[simp] theorem State.memWrite_got (s : State) (sp : Space) (a : Nat) (v : Byte) : (s.memWrite sp a v).got = s.got := by cases sp <;> rfl
@[simp] theorem State.memWrite_W (s : State) (sp : Space) (a : Nat) (v : Byte) : (s.memWrite sp a v).W = s.W := by cases sp <;> rfl
@[simp] theorem State.memWrite_H (s : State) (sp : Space) (a : Nat) (v : Byte) : (s.memWrite sp a v).H = s.H := by cases sp <;> rfl
@[simp] theorem State.memWrite_npix (s : State) (sp : Space) (a : Nat) (v : Byte) : (s.memWrite sp a v).npix = s.npix := by cases sp <;> rfl
@[simp] theorem State.memWrite_cursor (s : State) (sp : Space) (a : Nat) (v : Byte) : (s.memWrite sp a v).cursor = s.cursor := by cases sp <;> rfl
@[simp] theorem State.memWrite_busy (s : State) (sp : Space) (a : Nat) (v : Byte) : (s.memWrite sp a v).busy = s.busy := by cases sp <;> rfl

end Sys2Proof.Machine
end

