-- ==== Sys2Proof/Laws/Memory.lean ====
section
/-!
SUPPORT. The byte memories: a read after a write, the canonical form, and equality of canonical memories.
-/
namespace Sys2Proof.Machine

/-! ### Read after write -/

theorem Memory.find_put (m : Memory) (a b : Nat) (v : Byte) :
    (m.put a v).find b = if b = a then some v else m.find b := by
  induction m with
  | nil => simp [Memory.put, Memory.find]
  | cons c m ih =>
    obtain ⟨x, w⟩ := c
    simp only [Memory.put]
    split
    · simp [Memory.find]
    · split
      · next h1 h2 => subst h2; simp only [Memory.find]; split <;> simp_all
      · next h1 h2 =>
        simp only [Memory.find]
        rw [ih]
        split
        · next h3 => rw [if_neg (by omega)]
        · rfl

/-- In a canonical memory, every later address is larger than the first. -/
theorem Memory.wf_lt (a : Nat) (v : Byte) (m : Memory) (h : Memory.wf ((a, v) :: m) = true) :
    ∀ c ∈ m, a < c.1 := by
  induction m generalizing a v with
  | nil => simp
  | cons d m ih =>
    obtain ⟨b, w⟩ := d
    simp only [Memory.wf, Bool.and_eq_true, decide_eq_true_eq] at h
    intro c hc
    rcases List.mem_cons.1 hc with rfl | hc
    · exact h.1
    · exact Nat.lt_trans h.1 (ih b w h.2 c hc)

theorem Memory.wf_tail (c : Host.Cell) (m : Memory) (h : Memory.wf (c :: m) = true) : Memory.wf m = true := by
  cases m with
  | nil => rfl
  | cons d m => simp [Memory.wf] at h; exact h.2

theorem Memory.wf_cons (a : Nat) (v : Byte) (m : Memory) (hm : Memory.wf m = true) (h : ∀ c ∈ m, a < c.1) :
    Memory.wf ((a, v) :: m) = true := by
  cases m with
  | nil => rfl
  | cons d m => simp [Memory.wf, hm]; exact h d (by simp)

theorem Memory.mem_put (m : Memory) (a : Nat) (v : Byte) (c : Host.Cell) (h : c ∈ m.put a v) :
    c = (a, v) ∨ c ∈ m := by
  induction m with
  | nil => simpa [Memory.put] using h
  | cons d m ih =>
    obtain ⟨b, w⟩ := d
    simp only [Memory.put] at h
    split at h
    · simpa using h
    · split at h
      · rcases List.mem_cons.1 h with h | h
        · exact .inl h
        · exact .inr (List.mem_cons_of_mem _ h)
      · rcases List.mem_cons.1 h with h | h
        · exact .inr (by simp [h])
        · exact (ih h).imp id (List.mem_cons_of_mem _)

/-! ### The canonical form -/

/-- A write keeps the canonical form. -/
theorem Memory.wf_put (m : Memory) (a : Nat) (v : Byte) (h : m.wf = true) : (m.put a v).wf = true := by
  induction m with
  | nil => rfl
  | cons d m ih =>
    obtain ⟨b, w⟩ := d
    have hlt := Memory.wf_lt b w m h
    simp only [Memory.put]
    split
    · next hab => simp [Memory.wf, hab, h]
    · split
      · next h1 h2 => subst h2; exact Memory.wf_cons _ _ _ (Memory.wf_tail _ _ h) hlt
      · next h1 h2 =>
        refine Memory.wf_cons _ _ _ (ih (Memory.wf_tail _ _ h)) fun c hc => ?_
        rcases Memory.mem_put m a v c hc with rfl | hc
        · simp; omega
        · exact hlt c hc

theorem Memory.inside_put (m : Memory) (a : Nat) (v : Byte) (n : Nat) (h : m.inside n) (ha : a < n) :
    (m.put a v).inside n := by
  intro c hc
  rcases Memory.mem_put m a v c hc with rfl | hc
  · exact ha
  · exact h c hc

theorem Memory.find_none_of_lt (m : Memory) (a : Nat) (h : ∀ c ∈ m, a < c.1) : m.find a = none := by
  induction m with
  | nil => rfl
  | cons d m ih =>
    obtain ⟨b, w⟩ := d
    have hb := h (b, w) (by simp)
    simp only [Memory.find]
    rw [if_neg (by simp at hb; omega)]
    exact ih fun c hc => h c (List.mem_cons_of_mem _ hc)

/-- Canonical memories that hold the same bytes are equal. -/
theorem Memory.ext_of_find (m m' : Memory) (h : m.wf = true) (h' : m'.wf = true) (hf : ∀ a, m.find a = m'.find a) :
    m = m' := by
  induction m generalizing m' with
  | nil =>
    cases m' with
    | nil => rfl
    | cons d m' => have := hf d.1; simp [Memory.find] at this
  | cons c m ih =>
    obtain ⟨a, v⟩ := c
    cases m' with
    | nil => have := hf a; simp [Memory.find] at this
    | cons d m' =>
      obtain ⟨b, w⟩ := d
      have hlt := Memory.wf_lt a v m h
      have hlt' := Memory.wf_lt b w m' h'
      have hab : a = b := by
        rcases Nat.lt_trichotomy a b with hl | he | hl
        · have := hf a
          rw [Memory.find_none_of_lt ((b, w) :: m') a] at this
          · simp [Memory.find] at this
          · intro c hc
            rcases List.mem_cons.1 hc with rfl | hc
            · exact hl
            · exact Nat.lt_trans hl (hlt' c hc)
        · exact he
        · have := hf b
          rw [Memory.find_none_of_lt ((a, v) :: m) b] at this
          · simp [Memory.find] at this
          · intro c hc
            rcases List.mem_cons.1 hc with rfl | hc
            · exact hl
            · exact Nat.lt_trans hl (hlt c hc)
      subst hab
      have hvw : v = w := by have := hf a; simpa [Memory.find] using this
      subst hvw
      congr 1
      refine ih m' (Memory.wf_tail _ _ h) (Memory.wf_tail _ _ h') fun x => ?_
      by_cases hx : x = a
      · subst hx; rw [Memory.find_none_of_lt m x hlt, Memory.find_none_of_lt m' x hlt']
      · have := hf x; simpa [Memory.find, hx] using this

/-! ### One byte as the machine reads it -/

/-- A byte just written reads as written, and every other byte reads as before. -/
theorem memByte_put (sp : Space) (m : Memory) (a b : Nat) (v : Byte) :
    memByte sp (m.put a v) b = if b = a then v else memByte sp m b := by
  simp only [memByte, Memory.find_put m a b v]
  by_cases hb : b = a <;> simp [hb]

@[simp] theorem State.memory_memWrite (s : State) (sp sp' : Space) (a : Nat) (v : Byte) :
    (s.memWrite sp a v).memory sp' = if sp' = sp then (s.memory sp).put a v else s.memory sp' := by
  cases sp <;> cases sp' <;> rfl

theorem State.memRead_memWrite (s : State) (sp sp' : Space) (a b : Nat) (v : Byte) :
    (s.memWrite sp a v).memRead sp' b = if sp' = sp ∧ b = a then v else s.memRead sp' b := by
  unfold State.memRead
  by_cases hs : sp' = sp
  · subst hs; simp [memByte_put]
  · simp [hs]

/-- A write to a byte space leaves every register as it was. -/
theorem State.memWrite_regs (s : State) (sp : Space) (a : Nat) (v : Byte) :
    s.memWrite sp a v =
      { s with car := (s.memWrite sp a v).car, name := (s.memWrite sp a v).name, pay := (s.memWrite sp a v).pay } := by
  cases sp <;> rfl

end Sys2Proof.Machine
end

