-- ==== Sys2Proof/Laws/Codec.lean ====
section
/-!
SUPPORT. The bit-packing engine: one channel, one pair, and what a pack leaves in every byte of CAR.
-/
namespace Sys2Proof.Machine

theorem bitOf_lt (c : Byte) (i : Nat) : bitOf c i < 2 := Nat.mod_lt _ (by decide)

theorem bitOf_eq_getLsbD (c : Byte) (i : Nat) : bitOf c i = (c.getLsbD i).toNat := by
  simp [bitOf, BitVec.getLsbD, Nat.testBit, Nat.shiftRight_eq_div_pow]
  have : c.toNat / 2 ^ i % 2 = 0 ∨ c.toNat / 2 ^ i % 2 = 1 := by omega
  rcases this with h | h <;> simp [h]

/-- `setLSB` stores the exact value of R98: nothing wraps. -/
theorem setLSB_toNat (v : Byte) (t : Nat) (ht : t < 2) : (setLSB v t).toNat = v.toNat - v.toNat % 2 + t := by
  have := v.isLt
  simp only [setLSB, BitVec.toNat_ofNat]
  omega

/-- Only the parity of a channel changes (R98). -/
theorem setLSB_div (v : Byte) (t : Nat) (ht : t < 2) : (setLSB v t).toNat / 2 = v.toNat / 2 := by
  rw [setLSB_toNat v t ht]; omega

theorem setLSB_mod (v : Byte) (t : Nat) (ht : t < 2) : (setLSB v t).toNat % 2 = t := by
  rw [setLSB_toNat v t ht]; omega

theorem setLSB_setLSB (v : Byte) (t t' : Nat) (ht : t < 2) (ht' : t' < 2) :
    setLSB (setLSB v t) t' = setLSB v t' := by
  apply BitVec.eq_of_toNat_eq
  rw [setLSB_toNat _ _ ht', setLSB_toNat _ _ ht', setLSB_toNat _ _ ht]
  omega

/-! ### One round of the pack loop -/

theorem packChannel_wf (p : Nat) (c : Byte) (m : Memory) (i : Nat) (h : m.wf = true) :
    (packChannel p c m i).wf = true := Memory.wf_put _ _ _ h

/-- The channel that bit i goes to is CAR byte `4p + i`. -/
theorem channel_address (p i : Nat) : 4 * (p + i / 4) + i % 4 = 4 * p + i := by omega

theorem memByte_packChannel (p : Nat) (c : Byte) (m : Memory) (i a : Nat) :
    memByte .car (packChannel p c m i) a =
      if a = 4 * p + i then setLSB (memByte .car m a) (bitOf c i) else memByte .car m a := by
  simp only [packChannel, carWrite, carRead, channel_address, memByte_put]
  by_cases ha : a = 4 * p + i <;> simp [ha]

/-! ### A whole pair -/

theorem find_packFold (p : Nat) (c : Byte) (m : Memory) (n a : Nat) :
    ((List.range n).foldl (packChannel p c) m).find a =
      if 4 * p ≤ a ∧ a < 4 * p + n then some (setLSB (memByte .car m a) (bitOf c (a - 4 * p))) else m.find a := by
  induction n with
  | zero => rw [if_neg (by omega)]; rfl
  | succ n ih =>
    rw [List.range_succ, List.foldl_append]
    simp only [List.foldl_cons, List.foldl_nil, packChannel, carWrite, carRead, channel_address, Memory.find_put]
    by_cases ha : a = 4 * p + n
    · subst ha
      rw [if_neg (by omega)] at ih
      rw [if_pos rfl, if_pos (by omega)]
      simp only [memByte, ih]
      congr 3; omega
    · rw [if_neg ha, ih]
      by_cases h2 : 4 * p ≤ a ∧ a < 4 * p + n
      · rw [if_pos h2, if_pos (by omega)]
      · rw [if_neg h2, if_neg (by omega)]

/-- The cells of CAR after a pack: the pair's eight are listed, every other one is as before. -/
theorem find_packPair (p : Nat) (c : Byte) (m : Memory) (a : Nat) :
    (packPair p c m).find a =
      if 4 * p ≤ a ∧ a < 4 * p + 8 then some (setLSB (memByte .car m a) (bitOf c (a - 4 * p))) else m.find a :=
  find_packFold p c m 8 a

/-- What a pack leaves in each byte of CAR (R99): the eight channels of the pair take the bits of c, in order, and
every other byte is unchanged. -/
theorem memByte_packPair (p : Nat) (c : Byte) (m : Memory) (a : Nat) :
    memByte .car (packPair p c m) a =
      if 4 * p ≤ a ∧ a < 4 * p + 8 then setLSB (memByte .car m a) (bitOf c (a - 4 * p)) else memByte .car m a := by
  simp only [memByte, find_packPair]
  by_cases h : 4 * p ≤ a ∧ a < 4 * p + 8
  · simp only [if_pos h]
  · simp only [if_neg h]

theorem packPair_wf (p : Nat) (c : Byte) (m : Memory) (h : m.wf = true) : (packPair p c m).wf = true := by
  suffices ∀ k, ((List.range k).foldl (packChannel p c) m).wf = true from this 8
  intro k
  induction k with
  | zero => exact h
  | succ k ih =>
    rw [List.range_succ, List.foldl_append]
    exact packChannel_wf _ _ _ _ ih

theorem packPair_inside (p : Nat) (c : Byte) (m : Memory) (n : Nat) (h : m.inside n) (hp : 4 * p + 8 ≤ n) :
    (packPair p c m).inside n := by
  suffices ∀ k, k ≤ 8 → ((List.range k).foldl (packChannel p c) m).inside n from this 8 (by omega)
  intro k
  induction k with
  | zero => exact fun _ => h
  | succ k ih =>
    intro hk
    rw [List.range_succ, List.foldl_append]
    exact Memory.inside_put _ _ _ _ (ih (by omega)) (by rw [channel_address]; omega)

/-! ### Unpacking -/

/-- A byte is the sum of its bits (R100). -/
theorem sum_of_bits (c : Byte) :
    c.toNat = bitOf c 0 + bitOf c 1 * 2 + bitOf c 2 * 4 + bitOf c 3 * 8 + bitOf c 4 * 16 + bitOf c 5 * 32
      + bitOf c 6 * 64 + bitOf c 7 * 128 := by
  have := c.isLt
  simp only [bitOf]
  omega

theorem unpackPair_toNat (p : Nat) (m : Memory) :
    (unpackPair p m).toNat =
      (memByte .car m (4 * p)).toNat % 2 + (memByte .car m (4 * p + 1)).toNat % 2 * 2
      + (memByte .car m (4 * p + 2)).toNat % 2 * 4 + (memByte .car m (4 * p + 3)).toNat % 2 * 8
      + (memByte .car m (4 * p + 4)).toNat % 2 * 16 + (memByte .car m (4 * p + 5)).toNat % 2 * 32
      + (memByte .car m (4 * p + 6)).toNat % 2 * 64 + (memByte .car m (4 * p + 7)).toNat % 2 * 128 := by
  simp only [unpackPair, carRead, channel_address, BitVec.toNat_ofNat, List.range, List.range.loop, List.foldl]
  simp only [Nat.add_zero]
  omega

/-- Bit i of an unpacked byte is the parity of channel i of the pair (R100). -/
theorem bitOf_unpackPair (p : Nat) (m : Memory) (i : Nat) (hi : i < 8) :
    bitOf (unpackPair p m) i = (memByte .car m (4 * p + i)).toNat % 2 := by
  unfold bitOf
  rw [unpackPair_toNat]
  have h : i = 0 ∨ i = 1 ∨ i = 2 ∨ i = 3 ∨ i = 4 ∨ i = 5 ∨ i = 6 ∨ i = 7 := by omega
  rcases h with rfl | rfl | rfl | rfl | rfl | rfl | rfl | rfl <;> norm_num <;> omega

/-- A pair whose eight parities are the bits of c unpacks to c. -/
theorem unpackPair_of_parities (p : Nat) (m : Memory) (c : Byte)
    (h : ∀ i, i < 8 → (memByte .car m (4 * p + i)).toNat % 2 = bitOf c i) : unpackPair p m = c := by
  apply BitVec.eq_of_toNat_eq
  rw [unpackPair_toNat, sum_of_bits c]
  have h0 := h 0 (by omega)
  simp only [Nat.add_zero] at h0
  rw [h0, h 1 (by omega), h 2 (by omega), h 3 (by omega), h 4 (by omega), h 5 (by omega), h 6 (by omega),
    h 7 (by omega)]

/-- Unpacking reads nothing but the pair. -/
theorem unpackPair_congr (p : Nat) (m m' : Memory)
    (h : ∀ i, i < 8 → memByte .car m (4 * p + i) = memByte .car m' (4 * p + i)) :
    unpackPair p m = unpackPair p m' :=
  unpackPair_of_parities p m _ fun i hi => by rw [bitOf_unpackPair p m' i hi, h i hi]

end Sys2Proof.Machine
end

