-- ==== Sys2Proof/Laws/Cursor.lean ====
section
/-!
SUPPORT. Cursor arithmetic: the single step, its closed form, and the cursor invariant of R32.
-/
namespace Sys2Proof.Machine

theorem State.W_eq_zero (s : State) : s.W = 0 ↔ s.width = 0 := by
  simp [State.W, BitVec.toNat_eq]

theorem State.H_eq_zero (s : State) : s.H = 0 ↔ s.height = 0 := by
  simp [State.H, BitVec.toNat_eq]

theorem State.W_lt (s : State) : s.W < 65536 := s.width.isLt

theorem State.H_lt (s : State) : s.H < 65536 := s.height.isLt

/-- NPIX is below 2^32 (R7), so every index of a pixel is exact. -/
theorem State.npix_le (s : State) : s.npix ≤ Config.npixMax :=
  Nat.mul_le_mul (Nat.le_of_lt_succ s.W_lt) (Nat.le_of_lt_succ s.H_lt)

/-! ### `pix` and `lin` -/

theorem lin_pix (w p : Nat) : lin w (pix w p).1 (pix w p).2 = p := by
  simp only [lin, pix]
  rw [Nat.mul_comm]
  exact Nat.div_add_mod p w

theorem pix_lin (w col row : Nat) (h : col < w) : pix w (lin w col row) = (col, row) := by
  have hw : 0 < w := by omega
  simp only [lin, pix, Prod.mk.injEq]
  constructor
  · rw [Nat.add_comm, Nat.add_mul_mod_self_right, Nat.mod_eq_of_lt h]
  · rw [Nat.add_comm, Nat.add_mul_div_right _ _ hw, Nat.div_eq_of_lt h, Nat.zero_add]

/-- `lin(step1(col,row)) = lin(col,row) + 1` (R89). -/
theorem lin_step1 (w col row : Nat) : lin w (step1 w col row).1 (step1 w col row).2 = lin w col row + 1 := by
  simp only [step1]
  split
  · next h => simp only [lin, Nat.add_mul]; omega
  · simp only [lin]; omega

theorem step1_col_lt (w col row : Nat) (h : col < w) : (step1 w col row).1 < w := by
  simp only [step1]; split <;> simp <;> omega

/-! ### Positions in the grid -/

/-- The positions of R32: one past the last pixel at most, the row H only at column 0. -/
theorem pix_position (w h p : Nat) (hw : w ≠ 0) (hp : p ≤ w * h) :
    (pix w p).1 < w ∧ (pix w p).2 ≤ h ∧ ((pix w p).2 = h → (pix w p).1 = 0) := by
  have hw' : 0 < w := Nat.pos_of_ne_zero hw
  have hd := Nat.div_add_mod p w
  refine ⟨Nat.mod_lt _ hw', ?_, ?_⟩
  · exact Nat.div_le_of_le_mul hp
  · intro hr
    simp only [pix] at hr ⊢
    rw [hr] at hd
    omega

theorem pix_fits (s : State) (p : Nat) (hp : p ≤ s.npix) : (pix s.W p).1 < 2 ^ 16 ∧ (pix s.W p).2 < 2 ^ 17 := by
  have h1 := s.W_lt
  have h2 := s.H_lt
  by_cases hw : s.W = 0
  · have : p = 0 := by simp [State.npix, hw] at hp; exact hp
    subst this; simp [pix]
  · have := pix_position s.W s.H p hw hp
    omega

/-- The cursor set to `pix(p)` has linear index p. -/
theorem State.cursor_setCursor_pix (s : State) (p : Nat) (hp : p ≤ s.npix) :
    (s.setCursor (pix s.W p)).cursor = p := by
  have h := pix_fits s p hp
  simp only [State.cursor, State.setCursor_curCol, State.setCursor_curRow, BitVec.toNat_ofNat, Nat.mod_eq_of_lt h.1,
    Nat.mod_eq_of_lt h.2]
  exact lin_pix s.W p

/-- Setting the cursor to any `pix(p)` with p ≤ NPIX keeps R32. -/
theorem State.CursorOk_setCursor_pix (s : State) (p : Nat) (hp : p ≤ s.npix) :
    (s.setCursor (pix s.W p)).CursorOk := by
  have h := pix_fits s p hp
  have hWH : (s.setCursor (pix s.W p)).W = s.W ∧ (s.setCursor (pix s.W p)).H = s.H := ⟨rfl, rfl⟩
  unfold State.CursorOk
  rw [hWH.1, hWH.2]
  simp only [State.setCursor_curCol, State.setCursor_curRow]
  split
  · next h0 =>
    have hp0 : p = 0 := by
      rcases h0 with h0 | h0 <;> simp [State.npix, h0] at hp <;> exact hp
    subst hp0; simp [pix]
  · next h0 =>
    have hx := pix_position s.W s.H p (by omega) hp
    rw [BitVec.toNat_ofNat, BitVec.toNat_ofNat, Nat.mod_eq_of_lt h.1, Nat.mod_eq_of_lt h.2]
    exact ⟨hx.1, hx.2.1, fun hr => by rw [hx.2.2 hr]; rfl⟩

theorem State.CursorOk_origin (s : State) : (s.setCursor (0, 0)).CursorOk := by
  have := s.CursorOk_setCursor_pix 0 (Nat.zero_le _)
  simpa [pix] using this

/-- The equivalent form of R32: the linear index is at most NPIX. -/
theorem State.CursorOk.cursor_le {s : State} (h : s.CursorOk) : s.cursor ≤ s.npix := by
  unfold State.CursorOk at h
  split at h
  · next h0 => simp [State.cursor, lin, h.1, h.2]
  · obtain ⟨hc, hr, he⟩ := h
    rcases Nat.lt_or_eq_of_le hr with hlt | heq
    · have : (s.curRow.toNat + 1) * s.W ≤ s.H * s.W := Nat.mul_le_mul_right _ hlt
      simp only [State.cursor, lin, State.npix]
      rw [Nat.mul_comm s.W, Nat.add_mul] at *
      omega
    · simp [State.cursor, lin, State.npix, heq, he heq, Nat.mul_comm]

/-- Under R32 the cursor is `pix` of its own linear index. -/
theorem State.CursorOk.pix_cursor {s : State} (h : s.CursorOk) (hw : s.W ≠ 0) (hh : s.H ≠ 0) :
    pix s.W s.cursor = (s.curCol.toNat, s.curRow.toNat) := by
  unfold State.CursorOk at h
  rw [if_neg (by omega)] at h
  exact pix_lin _ _ _ h.1

/-- A state whose geometry and cursor are those of another meets R32 when the other does. -/
theorem State.CursorOk.of_eq {s t : State} (h : s.CursorOk) (h1 : t.width = s.width) (h2 : t.height = s.height)
    (h3 : t.curCol = s.curCol) (h4 : t.curRow = s.curRow) : t.CursorOk := by
  unfold State.CursorOk State.W State.H at *
  rw [h1, h2, h3, h4]; exact h

theorem State.cursor_of_eq {s t : State} (h1 : t.width = s.width) (h3 : t.curCol = s.curCol)
    (h4 : t.curRow = s.curRow) : t.cursor = s.cursor := by
  unfold State.cursor State.W; rw [h1, h3, h4]

theorem State.npix_of_eq {s t : State} (h1 : t.width = s.width) (h2 : t.height = s.height) : t.npix = s.npix := by
  unfold State.npix State.W State.H; rw [h1, h2]

/-- Under R32 the row is H exactly when no pixel is left. -/
theorem State.CursorOk.row_ge_iff {s : State} (h : s.CursorOk) (hw : s.W ≠ 0) (hh : s.H ≠ 0) :
    s.curRow.toNat ≥ s.H ↔ s.cursor = s.npix := by
  unfold State.CursorOk at h
  rw [if_neg (by omega)] at h
  obtain ⟨hc, hr, he⟩ := h
  constructor
  · intro hge
    have heq : s.curRow.toNat = s.H := by omega
    simp [State.cursor, lin, State.npix, heq, he heq, Nat.mul_comm]
  · intro heq
    by_contra hlt
    have : (s.curRow.toNat + 1) * s.W ≤ s.H * s.W := Nat.mul_le_mul_right _ (by omega)
    simp only [State.cursor, lin, State.npix] at heq
    rw [Nat.mul_comm s.W, Nat.add_mul] at *
    omega

/-! ### Steps of the cursor -/

/-- One step of a cursor inside the grid, as a position. -/
theorem State.advance_eq {s : State} (h : s.CursorOk) (hw : s.W ≠ 0) (hh : s.H ≠ 0) :
    s.advance = s.setCursor (pix s.W (s.cursor + 1)) := by
  unfold State.CursorOk at h
  rw [if_neg (by omega)] at h
  unfold State.advance
  congr 1
  have hp := pix_lin s.W _ (step1 s.W s.curCol.toNat s.curRow.toNat).2 (step1_col_lt s.W _ s.curRow.toNat h.1)
  rw [lin_step1] at hp
  exact hp.symm

/-- Two writes of the cursor leave the second. -/
@[simp] theorem State.setCursor_setCursor (s : State) (c d : Nat × Nat) : (s.setCursor c).setCursor d = s.setCursor d :=
  rfl

/-- The closed form of R94: n steps from linear index p reach `pix(p + n)`. -/
theorem State.advanceTimes_eq (n : Nat) {s : State} (h : s.CursorOk) (hw : s.W ≠ 0) (hh : s.H ≠ 0)
    (hn : s.cursor + n ≤ s.npix) : State.advanceTimes n s = s.setCursor (pix s.W (s.cursor + n)) := by
  induction n generalizing s with
  | zero =>
    rw [Nat.add_zero, h.pix_cursor hw hh]
    simp [State.advanceTimes, State.setCursor]
  | succ n ih =>
    have ha := State.advance_eq h hw hh
    have hok : s.advance.CursorOk := ha ▸ s.CursorOk_setCursor_pix _ (by omega)
    have hc : s.advance.cursor = s.cursor + 1 := ha ▸ s.cursor_setCursor_pix _ (by omega)
    have hW : s.advance.W = s.W := rfl
    rw [State.advanceTimes, ih hok hw hh (by rw [hc]; show _ ≤ s.npix; omega), hc, hW, ha, State.setCursor_setCursor]
    congr 2; omega

end Sys2Proof.Machine
end

