-- ==== Sys2Proof/Laws/Encoding.lean ====
section
/-!
SUPPORT. The command word: what its fields are, how the masks of R68 read them, and inversion of the decoder.
-/
namespace Sys2Proof

theorem word_eq (w : Word) : w.toNat = opcField w * 2 ^ 24 + imm24Field w := by
  simp only [opcField, imm24Field]; omega

theorem opcField_lt (w : Word) : opcField w < 256 := by
  have := w.isLt; simp only [opcField]; omega

theorem imm24Field_lt (w : Word) : imm24Field w < 2 ^ 24 := Nat.mod_lt _ (by decide)

/-- A word is an operand under an opcode exactly when its fields are these. -/
theorem word_ext (w v : Word) : w = v ↔ opcField w = opcField v ∧ imm24Field w = imm24Field v := by
  constructor
  · rintro rfl; exact ⟨rfl, rfl⟩
  · rintro ⟨h1, h2⟩
    apply BitVec.eq_of_toNat_eq
    rw [word_eq w, word_eq v, h1, h2]

/-- The 32-bit mask selects the whole word. -/
theorem and_allOnes (w : Word) : w &&& 0xFFFFFFFF = w := by
  have : (0xFFFFFFFF : Word) = BitVec.allOnes 32 := by decide
  rw [this, BitVec.and_allOnes]

theorem shiftRight_shiftLeft_toNat (w : Word) (k : Nat) : (w >>> k <<< k).toNat = w.toNat / 2 ^ k * 2 ^ k := by
  have := w.isLt
  rw [BitVec.toNat_shiftLeft, BitVec.toNat_ushiftRight, Nat.shiftLeft_eq, Nat.shiftRight_eq_div_pow]
  apply Nat.mod_eq_of_lt
  exact Nat.lt_of_le_of_lt (Nat.div_mul_le_self _ _) this

/-- A mask of the bits from k up keeps the word without its low k bits. -/
theorem and_highMask (w : Word) (k : Nat) : w &&& (BitVec.allOnes 32 <<< k) = w >>> k <<< k := by
  ext i hi
  by_cases hk : i < k
  · simp [hk]
  · rw [BitVec.getElem_and, BitVec.getElem_shiftLeft, BitVec.getElem_shiftLeft, BitVec.getElem_allOnes]
    simp [hk, show k + (i - k) = i by omega, BitVec.getLsbD_eq_getElem hi]

/-- The mask 0xFF000000 keeps OPC (R68). -/
theorem and_opcMask (w : Word) : (w &&& (0xFF000000 : Word)).toNat = opcField w * 2 ^ 24 := by
  have : (0xFF000000 : Word) = BitVec.allOnes 32 <<< 24 := by decide
  rw [this, and_highMask, shiftRight_shiftLeft_toNat]
  rfl

/-- The mask 0xFFFFFF00 keeps OPC and w[23:8] (R68). -/
theorem and_f8Mask (w : Word) : (w &&& (0xFFFFFF00 : Word)).toNat = opcField w * 2 ^ 24 + upper16Field w * 2 ^ 8 := by
  have : (0xFFFFFF00 : Word) = BitVec.allOnes 32 <<< 8 := by decide
  rw [this, and_highMask, shiftRight_shiftLeft_toNat]
  simp only [opcField, upper16Field, imm24Field]
  omega

/-! ### What the decoder answers -/

/-- A word selects a row of format F0 exactly when its fields are that opcode and 0. -/
theorem selects_f0 (w : Word) (k : Nat) (hk : k < 256) :
    (w &&& (0xFFFFFFFF : Word) = BitVec.ofNat 32 (k * 2 ^ 24)) ↔ opcField w = k ∧ imm24Field w = 0 := by
  rw [and_allOnes, ← BitVec.toNat_inj, BitVec.toNat_ofNat, Nat.mod_eq_of_lt (by omega), word_eq w]
  have := imm24Field_lt w
  omega

/-- A word selects the row of format F24 exactly when its opcode is that row's. -/
theorem selects_f24 (w : Word) (k : Nat) (hk : k < 256) :
    (w &&& (0xFF000000 : Word) = BitVec.ofNat 32 (k * 2 ^ 24)) ↔ opcField w = k := by
  rw [← BitVec.toNat_inj, BitVec.toNat_ofNat, Nat.mod_eq_of_lt (by omega), and_opcMask]
  omega

/-- A word selects the row of format F8 exactly when its opcode is that row's and w[23:8] is 0. -/
theorem selects_f8 (w : Word) (k : Nat) (hk : k < 256) :
    (w &&& (0xFFFFFF00 : Word) = BitVec.ofNat 32 (k * 2 ^ 24)) ↔ opcField w = k ∧ upper16Field w = 0 := by
  rw [← BitVec.toNat_inj, BitVec.toNat_ofNat, Nat.mod_eq_of_lt (by omega), and_f8Mask]
  have : upper16Field w * 2 ^ 8 < 2 ^ 24 := by
    have := imm24Field_lt w
    simp only [upper16Field]; omega
  omega

/-- The byte operand is the low byte of IMM24. -/
theorem byteField_toNat (w : Word) : (byteField w).toNat = imm24Field w % 2 ^ 8 := by
  simp only [byteField, imm24Field, BitVec.toNat_ofNat]; omega

/-- The fields of an encoding (R73). -/
theorem encode_fields (i : Instr) (h : i.wellFormed = true) :
    opcField (encode i) = i.opc ∧ imm24Field (encode i) = i.operand := by
  have ho : i.opc < 256 := by cases i <;> simp [Instr.opc]
  have hx : i.operand < 2 ^ 24 := by
    cases i with
    | curAdvanceBy n => simp only [Instr.wellFormed, decide_eq_true_eq] at h; simp only [Instr.operand]; omega
    | packByte c => have := c.isLt; simp only [Instr.operand]; omega
    | _ => simp only [Instr.operand]; omega
  simp only [opcField, imm24Field, encode, BitVec.toNat_ofNat]
  rw [Nat.mod_eq_of_lt (by omega)]
  omega

theorem formatF0_ok {w : Word} {i j : Instr} (h : formatF0 w i = .ok j) : imm24Field w = 0 ∧ i = j := by
  unfold formatF0 at h; split at h
  · next hz => exact ⟨hz, by simpa using h⟩
  · exact absurd h (by simp)

theorem formatF8_ok {w : Word} {f : Byte → Instr} {j : Instr} (h : formatF8 w f = .ok j) :
    upper16Field w = 0 ∧ f (byteField w) = j := by
  unfold formatF8 at h; split at h
  · next hz => exact ⟨hz, by simpa using h⟩
  · exact absurd h (by simp)

/-- With w[23:8] zero the byte operand is all of IMM24. -/
theorem byteField_of_upper16 {w : Word} (h : upper16Field w = 0) : (byteField w).toNat = imm24Field w := by
  rw [byteField_toNat]
  unfold upper16Field at h
  omega

/-- What a word that decodes is: the opcode of its command, and the command's operand as IMM24. -/
theorem decode_ok {w : Word} {i : Instr} (h : decode w = .ok i) :
    opcField w = i.opc ∧ imm24Field w = i.operand ∧ i.wellFormed = true := by
  unfold decode at h
  split at h
  · obtain ⟨hz, rfl⟩ := formatF0_ok h; exact ⟨‹_›, hz, rfl⟩
  split at h
  · obtain ⟨hz, rfl⟩ := formatF0_ok h; exact ⟨‹_›, hz, rfl⟩
  split at h
  · obtain ⟨hz, rfl⟩ := formatF0_ok h; exact ⟨‹_›, hz, rfl⟩
  split at h
  · obtain ⟨hz, rfl⟩ := formatF0_ok h; exact ⟨‹_›, hz, rfl⟩
  split at h
  · simp only [formatF24, Except.ok.injEq] at h
    subst h
    exact ⟨‹_›, rfl, decide_eq_true (Nat.le_of_lt_succ (imm24Field_lt w))⟩
  split at h
  · obtain ⟨hz, rfl⟩ := formatF8_ok h
    exact ⟨‹_›, (byteField_of_upper16 hz).symm, rfl⟩
  iterate 5
    split at h
    · obtain ⟨hz, rfl⟩ := formatF0_ok h; exact ⟨‹_›, hz, rfl⟩
  exact absurd h (by simp)
end Sys2Proof
end

