-- ==== Sys2Proof/Laws/Control.lean ====
section
/-!
SUPPORT. Command acceptance: what it does in each kind of state, and every command's meaning in terms of it.
-/
namespace Sys2Proof.Machine

theorem State.ready_of {s : State} (h : s.ready) : s.busy = false ∧ s.err = .noError ∧ s.W ≠ 0 ∧ s.H ≠ 0 :=
  ⟨h.1, h.2.1, fun hw => h.2.2.1 (s.W_eq_zero.1 hw), fun hh => h.2.2.2 (s.H_eq_zero.1 hh)⟩

/-- In a ready state acceptance clears DONE and performs the command. -/
theorem State.accept_ready {s : State} (h : s.ready) (f : State → State) : s.accept f = f s.clearDone := by
  obtain ⟨hb, he, hw, hh⟩ := State.ready_of h
  simp [State.accept, State.gate, State.withGeometry, hb, he, hw, hh]

/-- With a zero geometry acceptance raises CONFIG. -/
theorem State.accept_zeroGeometry {s : State} (h : s.zeroGeometry) (f : State → State) :
    s.accept f = s.clearDone.raise .config := by
  obtain ⟨hb, he, hz⟩ := h
  have hz' : s.W = 0 ∨ s.H = 0 := hz.imp s.W_eq_zero.2 s.H_eq_zero.2
  simp [State.accept, State.gate, State.withGeometry, hb, he, hz']

/-- While BUSY = 1 or ERR ≠ 0 acceptance drops the command. -/
theorem State.accept_dropped {s : State} (h : s.busy = true ∨ s.err ≠ .noError) (f : State → State) :
    s.accept f = s.markDropped := by
  unfold State.accept State.gate
  split
  · rfl
  · next hb => rw [if_pos (h.resolve_left hb)]

/-- Everything acceptance can do. -/
theorem State.accept_cases (s : State) (f : State → State) :
    ((s.busy = true ∨ s.err ≠ .noError) ∧ s.accept f = s.markDropped)
    ∨ (s.zeroGeometry ∧ s.accept f = s.clearDone.raise .config)
    ∨ (s.ready ∧ s.accept f = f s.clearDone) := by
  by_cases hd : s.busy = true ∨ s.err ≠ .noError
  · exact .inl ⟨hd, s.accept_dropped hd f⟩
  · simp only [not_or, Bool.not_eq_true, ne_eq, not_not] at hd
    by_cases hz : s.width = 0 ∨ s.height = 0
    · have h : s.zeroGeometry := ⟨hd.1, hd.2, hz⟩
      exact .inr (.inl ⟨h, s.accept_zeroGeometry h f⟩)
    · simp only [not_or] at hz
      have h : s.ready := ⟨hd.1, hd.2, hz.1, hz.2⟩
      exact .inr (.inr ⟨h, s.accept_ready h f⟩)

/-- Every command other than NOP and CLR_STATUS is acceptance of what it performs. -/
theorem exec_eq_accept (i : Instr) (s : State) (h0 : i ≠ .nop) (h1 : i ≠ .clrStatus) :
    exec i s = .next (s.accept (perform i)) := by
  cases i <;> first | rfl | exact absurd rfl h0 | exact absurd rfl h1

/-- Everything a command can do: no command faults or is refused. -/
theorem exec_cases (i : Instr) (s : State) :
    (i = .nop ∧ exec i s = .next s)
    ∨ (i = .clrStatus ∧ s.busy = false ∧ exec i s = .next s.clearStatus)
    ∨ (i ≠ .nop ∧ (s.busy = true ∨ s.err ≠ .noError ∧ i ≠ .clrStatus) ∧ exec i s = .next s.markDropped)
    ∨ (i ≠ .nop ∧ i ≠ .clrStatus ∧ s.zeroGeometry ∧ exec i s = .next (s.clearDone.raise .config))
    ∨ (i ≠ .nop ∧ i ≠ .clrStatus ∧ s.ready ∧ exec i s = .next (perform i s.clearDone)) := by
  by_cases h0 : i = .nop
  · subst h0; exact .inl ⟨rfl, rfl⟩
  by_cases h1 : i = .clrStatus
  · subst h1
    by_cases hb : s.busy = true
    · exact .inr (.inr (.inl ⟨h0, .inl hb, by simp [exec, execClrStatus, hb]⟩))
    · exact .inr (.inl ⟨rfl, by simpa using hb, by simp [exec, execClrStatus, hb]⟩)
  rw [exec_eq_accept i s h0 h1]
  rcases s.accept_cases (perform i) with ⟨h, e⟩ | ⟨h, e⟩ | ⟨h, e⟩
  · exact .inr (.inr (.inl ⟨h0, h.imp id fun h => ⟨h, h1⟩, by rw [e]⟩))
  · exact .inr (.inr (.inr (.inl ⟨h0, h1, h, by rw [e]⟩)))
  · exact .inr (.inr (.inr (.inr ⟨h0, h1, h, by rw [e]⟩)))

theorem acceptIllegal_cases (s : State) :
    ((s.busy = true ∨ s.err ≠ .noError) ∧ s.acceptIllegal = s.markDropped)
    ∨ (s.busy = false ∧ s.err = .noError ∧ s.acceptIllegal = s.clearDone.raise .illegal) := by
  unfold State.acceptIllegal State.gate
  by_cases hb : s.busy = true
  · simp [hb]
  · by_cases he : s.err = .noError <;> simp [hb, he]

/-- Clearing DONE keeps a ready state ready. -/
theorem State.ready_clearDone {s : State} (h : s.ready) : s.clearDone.ready := h

/-- The commands that check bounds before they move or touch a pixel (R90), and the check failing. -/
def outOfBounds (i : Instr) (s : State) : Prop :=
  (i = .curAdvance ∧ s.H ≤ s.curRow.toNat) ∨ (∃ n, i = .curAdvanceBy n ∧ s.npix < s.cursor + n)
    ∨ (∃ c, i = .packByte c ∧ s.npix < s.cursor + 2) ∨ (i = .unpackByte ∧ s.npix < s.cursor + 2)

end Sys2Proof.Machine
end

