-- ==== Sys2Proof/Laws/Planner.lean ====
section
/-!
SUPPORT. The capacity planner: the two results of `planEncode`, written out, and what the plan's users do with each.
-/
namespace Sys2Proof.Machine

/-- A plan whose header fits (R109). -/
def fittingPlan (maxB hdr size : Nat) : EncodePlan where
  maxB := maxB
  hdr := hdr
  pay := min size (maxB - hdr)
  warn := decide (maxB - hdr < size)
  err := .noError

/-- A plan whose header does not fit (R109). -/
def failingPlan (maxB hdr : Nat) : EncodePlan where
  maxB := maxB
  hdr := hdr
  pay := 0
  warn := false
  err := .capHeader

theorem planEncode_fits (w h f size : Nat) (hf : 18 + f ≤ w * h / 2) :
    planEncode w h f size = fittingPlan (w * h / 2) (18 + f) size := by
  have e : 12 + 2 + f + 4 = 18 + f := by omega
  simp only [planEncode, e, truncWarns, fittingPlan]
  rw [if_neg (by omega)]
  congr 1
  split <;> omega

theorem planEncode_fails (w h f size : Nat) (hf : w * h / 2 < 18 + f) :
    planEncode w h f size = failingPlan (w * h / 2) (18 + f) := by
  have e : 12 + 2 + f + 4 = 18 + f := by omega
  simp only [planEncode, e, failingPlan]
  rw [if_pos (by omega)]

/-- The two cases of a plan. -/
theorem State.encodePlan_cases (s : State) :
    (18 + s.fnlen.toNat ≤ s.npix / 2
      ∧ s.encodePlan = fittingPlan (s.npix / 2) (18 + s.fnlen.toNat) s.filesize.toNat)
    ∨ (s.npix / 2 < 18 + s.fnlen.toNat ∧ s.encodePlan = failingPlan (s.npix / 2) (18 + s.fnlen.toNat)) := by
  rcases Nat.lt_or_ge (s.npix / 2) (18 + s.fnlen.toNat) with h | h
  · exact .inr ⟨h, planEncode_fails _ _ _ _ h⟩
  · exact .inl ⟨h, planEncode_fits _ _ _ _ h⟩

theorem State.encodePlan_fits {s : State} (h : 18 + s.fnlen.toNat ≤ s.npix / 2) :
    s.encodePlan = fittingPlan (s.npix / 2) (18 + s.fnlen.toNat) s.filesize.toNat := planEncode_fits _ _ _ _ h

theorem State.encodePlan_fails {s : State} (h : s.npix / 2 < 18 + s.fnlen.toNat) :
    s.encodePlan = failingPlan (s.npix / 2) (18 + s.fnlen.toNat) := planEncode_fails _ _ _ _ h

/-- Every number of a plan fits the register it is stored in (R9, R35 to R37). -/
theorem State.plan_fits_registers (s : State) :
    s.npix / 2 < 2 ^ 31 ∧ 18 + s.fnlen.toNat < 2 ^ 17 := by
  have h1 : s.npix ≤ 65535 * 65535 := s.npix_le
  have h2 := s.fnlen.isLt
  omega

theorem performPlanEncode_fits {s : State} (h : 18 + s.fnlen.toNat ≤ s.npix / 2) :
    performPlanEncode s = s.writePlan (fittingPlan (s.npix / 2) (18 + s.fnlen.toNat) s.filesize.toNat) := by
  unfold performPlanEncode
  rw [State.encodePlan_fits h]; rfl

theorem performPlanEncode_fails {s : State} (h : s.npix / 2 < 18 + s.fnlen.toNat) :
    performPlanEncode s =
      (s.writePlan (failingPlan (s.npix / 2) (18 + s.fnlen.toNat))).raise .capHeader := by
  unfold performPlanEncode
  rw [State.encodePlan_fails h]; rfl

theorem performPlanDecode_fits {s : State} (h : 36 ≤ s.npix) :
    performPlanDecode s = s.writeMaxBytes (s.npix / 2) := by
  unfold performPlanDecode planDecode
  have : ¬ (s.W * s.H < 2 * (12 + 2 + 4)) := by unfold State.npix at h; omega
  simp only [this, if_false]; rfl

theorem performPlanDecode_fails {s : State} (h : s.npix < 36) :
    performPlanDecode s = (s.writeMaxBytes (s.npix / 2)).raise .capCarrier := by
  unfold performPlanDecode planDecode
  have : s.W * s.H < 2 * (12 + 2 + 4) := by unfold State.npix at h; omega
  simp only [this, if_true]; rfl

end Sys2Proof.Machine
end

