-- ==== Sys2Proof/Laws/Commands.lean ====
section
/-!
SUPPORT. Everything a command can do, each outcome with its guard.
-/
namespace Sys2Proof.Machine

/-- The outcomes of a command in a state. -/
inductive CommandMove (s : State) : Instr → State → Prop
  | nop : CommandMove s .nop s
  | clrStatus (hb : s.busy = false) : CommandMove s .clrStatus s.clearStatus
  | dropped (i : Instr) (hi : i ≠ .nop) (h : s.busy = true ∨ (s.err ≠ .noError ∧ i ≠ .clrStatus)) :
      CommandMove s i s.markDropped
  | config (i : Instr) (h0 : i ≠ .nop) (h1 : i ≠ .clrStatus) (h : s.zeroGeometry) :
      CommandMove s i (s.clearDone.raise .config)
  | bounds (i : Instr) (hr : s.ready) (h : outOfBounds i s) : CommandMove s i (s.clearDone.raise .bounds)
  | curReset (hr : s.ready) : CommandMove s .curReset (s.clearDone.setCursor (0, 0))
  | curAdvance (hr : s.ready) (h : s.curRow.toNat < s.H) : CommandMove s .curAdvance s.clearDone.advance
  | curAdvanceBy (n : Nat) (hr : s.ready) (h : s.cursor + n ≤ s.npix) :
      CommandMove s (.curAdvanceBy n) (State.advanceTimes n s.clearDone)
  | packByte (c : Byte) (hr : s.ready) (h : s.cursor + 2 ≤ s.npix) :
      CommandMove s (.packByte c) (s.clearDone.packAt s.cursor c)
  | unpackByte (hr : s.ready) (h : s.cursor + 2 ≤ s.npix) :
      CommandMove s .unpackByte (s.clearDone.unpackAt s.cursor)
  | planEncode (hr : s.ready) (h : 18 + s.fnlen.toNat ≤ s.npix / 2) : CommandMove s .planEncode
      (s.clearDone.writePlan (fittingPlan (s.npix / 2) (18 + s.fnlen.toNat) s.filesize.toNat))
  | planEncodeFails (hr : s.ready) (h : s.npix / 2 < 18 + s.fnlen.toNat) : CommandMove s .planEncode
      ((s.clearDone.writePlan (failingPlan (s.npix / 2) (18 + s.fnlen.toNat))).raise .capHeader)
  | planDecode (hr : s.ready) (h : 36 ≤ s.npix) :
      CommandMove s .planDecode (s.clearDone.writeMaxBytes (s.npix / 2))
  | planDecodeFails (hr : s.ready) (h : s.npix < 36) :
      CommandMove s .planDecode ((s.clearDone.writeMaxBytes (s.npix / 2)).raise .capCarrier)
  | encode (hr : s.ready) : CommandMove s .encode (performEncode s.clearDone)
  | decode (hr : s.ready) : CommandMove s .decode (performDecode s.clearDone)

theorem perform_move (i : Instr) {s : State} (hr : s.ready) (h0 : i ≠ .nop) (h1 : i ≠ .clrStatus) :
    CommandMove s i (perform i s.clearDone) := by
  cases i with
  | nop => exact absurd rfl h0
  | clrStatus => exact absurd rfl h1
  | curReset => exact .curReset hr
  | curAdvance =>
    simp only [perform, performCurAdvance]
    split
    · next h => exact .bounds _ hr (.inl ⟨rfl, h⟩)
    · next h => exact .curAdvance hr (Nat.not_le.1 h)
  | curAdvanceBy n =>
    simp only [perform, performCurAdvanceBy]
    split
    · next h => exact .bounds _ hr (.inr (.inl ⟨n, rfl, h⟩))
    · next h => exact .curAdvanceBy n hr (Nat.not_lt.1 h)
  | packByte c =>
    simp only [perform, performPackByte]
    split
    · next h => exact .bounds _ hr (.inr (.inr (.inl ⟨c, rfl, h⟩)))
    · next h => exact .packByte c hr (Nat.not_lt.1 h)
  | unpackByte =>
    simp only [perform, performUnpackByte]
    split
    · next h => exact .bounds _ hr (.inr (.inr (.inr ⟨rfl, h⟩)))
    · next h => exact .unpackByte hr (Nat.not_lt.1 h)
  | planEncode =>
    simp only [perform]
    rcases Nat.lt_or_ge (s.npix / 2) (18 + s.fnlen.toNat) with h | h
    · rw [performPlanEncode_fails (s := s.clearDone) h]; exact .planEncodeFails hr h
    · rw [performPlanEncode_fits (s := s.clearDone) h]; exact .planEncode hr h
  | planDecode =>
    simp only [perform]
    rcases Nat.lt_or_ge s.npix 36 with h | h
    · rw [performPlanDecode_fails (s := s.clearDone) h]; exact .planDecodeFails hr h
    · rw [performPlanDecode_fits (s := s.clearDone) h]; exact .planDecode hr h
  | encode => exact .encode hr
  | decode => exact .decode hr

/-- Every command answers a next state, and it is one of the listed outcomes. -/
theorem exec_move (i : Instr) (s : State) : ∃ t, exec i s = .next t ∧ CommandMove s i t := by
  rcases exec_cases i s with ⟨h, e⟩ | ⟨h, hb, e⟩ | ⟨h, hd, e⟩ | ⟨h0, h1, hz, e⟩ | ⟨h0, h1, hr, e⟩
  · subst h; exact ⟨_, e, .nop⟩
  · subst h; exact ⟨_, e, .clrStatus hb⟩
  · exact ⟨_, e, .dropped i h hd⟩
  · exact ⟨_, e, .config i h0 h1 hz⟩
  · exact ⟨_, e, perform_move i hr h0 h1⟩

theorem command_move {i : Instr} {s t : State} (h : exec i s = .next t) : CommandMove s i t := by
  obtain ⟨u, hu, hm⟩ := exec_move i s
  rw [h] at hu; cases hu; exact hm

end Sys2Proof.Machine
end

