-- ==== Sys2Proof/Laws/Header.lean ====
section
/-!
SUPPORT. The header frame: the digits of its little-endian fields, and the length of a serialized header.
-/
namespace Sys2Proof.Machine

theorem digit256_toNat (n k : Nat) : (digit256 n k).toNat = n / 256 ^ k % 256 := by
  simp [digit256]

/-- A 16-bit number is the value of its two digits (R50, R122). -/
theorem littleEndian_digits2 (n : Nat) (h : n < 2 ^ 16) : littleEndian [digit256 n 0, digit256 n 1] = n := by
  simp [littleEndian, digit256_toNat]; omega

/-- A 32-bit number is the value of its four digits (R50, R123). -/
theorem littleEndian_digits4 (n : Nat) (h : n < 2 ^ 32) :
    littleEndian [digit256 n 0, digit256 n 1, digit256 n 2, digit256 n 3] = n := by
  simp [littleEndian, digit256_toNat]; omega

theorem magic_length : Config.magic.length = 12 := rfl

theorem State.bytes_length (s : State) (sp : Space) (n : Nat) : (s.bytes sp n).length = n := by
  simp [State.bytes]

theorem State.bytes_getElem? (s : State) (sp : Space) (n i : Nat) (h : i < n) :
    (s.bytes sp n)[i]? = some (s.memRead sp i) := by
  simp [State.bytes, h]

theorem headerBytes_append (name : List Byte) (L : Nat) :
    headerBytes name L = Config.magic ++ (digit256 name.length 0 :: digit256 name.length 1 :: (name
      ++ [digit256 L 0, digit256 L 1, digit256 L 2, digit256 L 3])) := by
  simp [headerBytes]

end Sys2Proof.Machine
end

