-- ==== Sys2Proof/Laws/PerInstr.lean ====
section
/-!
SUPPORT. Laws stated for every command: its encoding selects the opcode map's row of its mnemonic (30_encoding.md R68,
R73).
-/
namespace Sys2Proof.Laws

/-- The encoding of a well-formed command selects a row of the opcode map with the command's mnemonic. -/
def TableRow.Statement (i : Instr) : Prop :=
  i.wellFormed = true → ∃ r ∈ opcodeRows, r.mnemonic = i.mnemonic ∧ r.selectedBy (encode i) = true

theorem TableRow.nop : TableRow.Statement .nop := fun _ =>
  ⟨⟨"NOP", 0x00000000, 0xFFFFFFFF⟩, by decide, rfl, by decide⟩

theorem TableRow.clrStatus : TableRow.Statement .clrStatus := fun _ =>
  ⟨⟨"CLR_STATUS", 0x01000000, 0xFFFFFFFF⟩, by decide, rfl, by decide⟩

theorem TableRow.curReset : TableRow.Statement .curReset := fun _ =>
  ⟨⟨"CUR_RESET", 0x02000000, 0xFFFFFFFF⟩, by decide, rfl, by decide⟩

theorem TableRow.curAdvance : TableRow.Statement .curAdvance := fun _ =>
  ⟨⟨"CUR_ADVANCE", 0x03000000, 0xFFFFFFFF⟩, by decide, rfl, by decide⟩

theorem TableRow.curAdvanceBy (n : Nat) : TableRow.Statement (.curAdvanceBy n) := fun h =>
  ⟨⟨"CUR_ADVANCE_BY", 0x04000000, 0xFF000000⟩, by decide, rfl, by
    have := (selects_f24 (encode (.curAdvanceBy n)) 4 (by decide)).2 (encode_fields _ h).1
    simpa [OpcodeRow.selectedBy] using this⟩

theorem TableRow.packByte (c : Byte) : TableRow.Statement (.packByte c) := fun h =>
  ⟨⟨"PACK_BYTE", 0x10000000, 0xFFFFFF00⟩, by decide, rfl, by
    have hf := encode_fields (.packByte c) h
    have hc : c.toNat < 256 := c.isLt
    have hu : upper16Field (encode (.packByte c)) = 0 := by
      unfold upper16Field; rw [hf.2]; exact Nat.div_eq_of_lt hc
    have := (selects_f8 (encode (.packByte c)) 16 (by decide)).2 ⟨hf.1, hu⟩
    simpa [OpcodeRow.selectedBy] using this⟩

theorem TableRow.unpackByte : TableRow.Statement .unpackByte := fun _ =>
  ⟨⟨"UNPACK_BYTE", 0x11000000, 0xFFFFFFFF⟩, by decide, rfl, by decide⟩

theorem TableRow.planEncode : TableRow.Statement .planEncode := fun _ =>
  ⟨⟨"PLAN_ENCODE", 0x20000000, 0xFFFFFFFF⟩, by decide, rfl, by decide⟩

theorem TableRow.planDecode : TableRow.Statement .planDecode := fun _ =>
  ⟨⟨"PLAN_DECODE", 0x21000000, 0xFFFFFFFF⟩, by decide, rfl, by decide⟩

theorem TableRow.encode : TableRow.Statement .encode := fun _ =>
  ⟨⟨"ENCODE", 0x30000000, 0xFFFFFFFF⟩, by decide, rfl, by decide⟩

theorem TableRow.decode : TableRow.Statement .decode := fun _ =>
  ⟨⟨"DECODE", 0x31000000, 0xFFFFFFFF⟩, by decide, rfl, by decide⟩

end Sys2Proof.Laws
end

