-- ==== Sys2Proof/Laws/Session.lean ====
section
/-!
SUPPORT. The engine's steps: which rule runs in which state, and each rule's cases.
-/
namespace Sys2Proof.Machine

/-! ### Which rule runs (R128) -/

theorem engineStep_idle {s : State} (h : s.busy = false) : engineStep s = s := by
  unfold State.busy at h
  unfold engineStep
  cases hq : s.seq <;> simp [hq, SeqState.isBusy] at h ⊢

theorem engineStep_ePlan {s : State} (h : s.seq = .ePlan) : engineStep s = stepEPlan s := by simp [engineStep, h]
theorem engineStep_eHdr {s : State} (h : s.seq = .eHdr) : engineStep s = stepEHdr s := by simp [engineStep, h]
theorem engineStep_ePay {s : State} (h : s.seq = .ePay) : engineStep s = stepEPay s := by simp [engineStep, h]
theorem engineStep_dDepth {s : State} (h : s.seq = .dDepth) : engineStep s = stepDDepth s := by simp [engineStep, h]
theorem engineStep_dSize {s : State} (h : s.seq = .dSize) : engineStep s = stepDSize s := by simp [engineStep, h]
theorem engineStep_dMagic {s : State} (h : s.seq = .dMagic) : engineStep s = stepDMagic s := by simp [engineStep, h]
theorem engineStep_dHdr {s : State} (h : s.seq = .dHdr) : engineStep s = stepDHdr s := by simp [engineStep, h]
theorem engineStep_dSkip {s : State} (h : s.seq = .dSkip) : engineStep s = stepDSkip s := by simp [engineStep, h]
theorem engineStep_dPay {s : State} (h : s.seq = .dPay) : engineStep s = stepDPay s := by simp [engineStep, h]

/-! ### The pair at the cursor (R130) -/

theorem State.withPair_ok {s : State} (h : s.cursor + 2 ≤ s.npix) (k : Nat → State) : s.withPair k = k s.cursor :=
  if_neg (by omega)

theorem State.withPair_bounds {s : State} (h : s.npix < s.cursor + 2) (k : Nat → State) :
    s.withPair k = s.raiseInStep .bounds := if_pos (by omega)

/-- After the pair the cursor is two pixels on. -/
theorem State.cursor_passPair {s : State} (p : Nat) (h : p + 2 ≤ s.npix) : (s.passPair p).cursor = p + 2 :=
  s.cursor_setCursor_pix (p + 2) h

theorem State.cursor_packNext {s : State} (p : Nat) (c : Byte) (h : p + 2 ≤ s.npix) :
    (s.packNext p c).cursor = p + 2 := by
  have := (State.cursor_passPair (s := s) p h)
  exact this

/-! ### Each rule's cases -/

theorem stepEPlan_fits {s : State} (h : 18 + s.fnlen.toNat ≤ s.npix / 2) :
    stepEPlan s =
      ((s.writePlan (fittingPlan (s.npix / 2) (18 + s.fnlen.toNat) s.filesize.toNat)).setCursor (0, 0)).goto .eHdr := by
  unfold stepEPlan
  rw [State.encodePlan_fits h]; rfl

theorem stepEPlan_fails {s : State} (h : s.npix / 2 < 18 + s.fnlen.toNat) :
    stepEPlan s =
      (s.writePlan (failingPlan (s.npix / 2) (18 + s.fnlen.toNat))).raiseInStep .capHeader := by
  unfold stepEPlan
  rw [State.encodePlan_fails h]; rfl

theorem stepEHdr_more {s : State} (h : s.cursor + 2 ≤ s.npix) (hi : (s.idx + 1).toNat ≠ s.hdrcnt.toNat) :
    stepEHdr s = s.packNext s.cursor (s.hbyte s.idx.toNat) := by
  unfold stepEHdr
  rw [State.withPair_ok h]
  exact if_neg hi

theorem stepEHdr_last {s : State} (h : s.cursor + 2 ≤ s.npix) (hi : (s.idx + 1).toNat = s.hdrcnt.toNat) :
    stepEHdr s = (s.packNext s.cursor (s.hbyte s.idx.toNat)).goto .ePay := by
  unfold stepEHdr
  rw [State.withPair_ok h]
  exact if_pos hi

theorem stepEPay_more {s : State} (h : s.cursor + 2 ≤ s.npix) (hi : s.idx ≠ s.paycnt) :
    stepEPay s = s.packNext s.cursor (s.memRead .pay s.idx.toNat) := by
  unfold stepEPay
  rw [if_neg hi, State.withPair_ok h]

theorem stepEPay_last {s : State} (hi : s.idx = s.paycnt) : stepEPay s = s.enterDone := if_pos hi

theorem stepDSize_fits {s : State} (h : 36 ≤ s.npix) :
    stepDSize s = ((s.writeMaxBytes (s.npix / 2)).setCursor (0, 0)).goto .dMagic := by
  unfold stepDSize planDecode
  have : ¬ (s.W * s.H < 2 * (12 + 2 + 4)) := by unfold State.npix at h; omega
  simp only [this, if_false]; rfl

theorem stepDSize_fails {s : State} (h : s.npix < 36) :
    stepDSize s = (s.writeMaxBytes (s.npix / 2)).raiseInStep .capCarrier := by
  unfold stepDSize planDecode
  have : s.W * s.H < 2 * (12 + 2 + 4) := by unfold State.npix at h; omega
  simp only [this, if_true]; rfl

theorem stepDMagic_ok {s : State} (h : s.cursor + 2 ≤ s.npix) :
    stepDMagic s = ((s.passPair s.cursor).takeMagicByte (unpackPair s.cursor s.car)).magicVerdict := by
  unfold stepDMagic
  rw [State.withPair_ok h]

theorem stepDHdr_fnlenLow {s : State} (h : s.cursor + 2 ≤ s.npix) (hi : s.idx.toNat = 0) :
    stepDHdr s = (s.passPair s.cursor).takeFnlenLow (unpackPair s.cursor s.car) := by
  unfold stepDHdr
  rw [State.withPair_ok h, if_pos (BitVec.eq_of_toNat_eq hi)]

theorem stepDHdr_fnlenHigh {s : State} (h : s.cursor + 2 ≤ s.npix) (hi : s.idx.toNat = 1) :
    stepDHdr s = (s.passPair s.cursor).takeFnlenHigh (unpackPair s.cursor s.car) := by
  unfold stepDHdr
  have h0 : ¬ s.idx = 0 := fun e => by rw [e] at hi; exact absurd hi (by decide)
  rw [State.withPair_ok h, if_neg h0, if_pos (BitVec.eq_of_toNat_eq hi)]

theorem stepDHdr_name {s : State} (h : s.cursor + 2 ≤ s.npix) (hi : 2 ≤ s.idx.toNat)
    (hf : s.idx.toNat < 2 + s.fnlen.toNat) :
    stepDHdr s = (s.passPair s.cursor).takeNameByte (unpackPair s.cursor s.car) := by
  unfold stepDHdr
  have h0 : ¬ s.idx = 0 := fun e => by rw [e] at hi; exact absurd hi (by decide)
  have h1 : ¬ s.idx = 1 := fun e => by rw [e] at hi; exact absurd hi (by decide)
  rw [State.withPair_ok h, if_neg h0, if_neg h1, if_pos hf]

theorem stepDHdr_paylen {s : State} (h : s.cursor + 2 ≤ s.npix) (hi : 2 ≤ s.idx.toNat)
    (hf : 2 + s.fnlen.toNat ≤ s.idx.toNat) :
    stepDHdr s = (s.passPair s.cursor).takePaylen (unpackPair s.cursor s.car) := by
  unfold stepDHdr
  have h0 : ¬ s.idx = 0 := fun e => by rw [e] at hi; exact absurd hi (by decide)
  have h1 : ¬ s.idx = 1 := fun e => by rw [e] at hi; exact absurd hi (by decide)
  rw [State.withPair_ok h, if_neg h0, if_neg h1, if_neg (by omega)]

theorem stepDSkip_ok {s : State} (h : 2 * s.hdrcnt.toNat ≤ s.npix) :
    stepDSkip s = (s.setCursor (pix s.W (2 * s.hdrcnt.toNat))).goto .dPay := if_neg (by omega)

theorem stepDPay_more {s : State} (h : s.cursor + 2 ≤ s.npix) (hi : s.idx ≠ s.paycnt) :
    stepDPay s =
      ((s.passPair s.cursor).memWrite .pay s.idx.toNat (unpackPair s.cursor s.car)).setIdx (s.idx + 1) := by
  unfold stepDPay
  rw [if_neg hi, State.withPair_ok h]

theorem stepDPay_last {s : State} (hi : s.idx = s.paycnt) : stepDPay s = s.enterDone := if_pos hi

/-! ### The two CAP_OVERRUN checks of D_HDR -/

theorem State.takeFnlenHigh_fits {t : State} {c : Byte}
    (h : (t.writeFnlenHigh c).hdrcnt.toNat ≤ t.maxbytes.toNat) :
    t.takeFnlenHigh c = (t.writeFnlenHigh c).setIdx 2 := if_neg (Nat.not_lt.2 h)

theorem State.takeFnlenHigh_overruns {t : State} {c : Byte}
    (h : t.maxbytes.toNat < (t.writeFnlenHigh c).hdrcnt.toNat) :
    t.takeFnlenHigh c = (t.writeFnlenHigh c).raiseInStep .capOverrun := if_pos h

theorem State.takePaylen_more {t : State} {c : Byte} (k : Nat) (hk : t.idx.toNat - 2 - t.fnlen.toNat = k)
    (h : k < 3) : t.takePaylen c = (t.writePaylen k c).setIdx (t.idx + 1) := by
  subst hk
  exact if_pos h

theorem State.takePaylen_last_fits {t : State} {c : Byte} (k : Nat) (hk : t.idx.toNat - 2 - t.fnlen.toNat = k)
    (h3 : 3 ≤ k) (h : t.hdrcnt.toNat + (t.writePaylen k c).paycnt.toNat ≤ t.maxbytes.toNat) :
    t.takePaylen c = (t.writePaylen k c).goto .dSkip := by
  subst hk
  exact (if_neg (Nat.not_lt.2 h3)).trans (if_neg (Nat.not_lt.2 h))

theorem State.takePaylen_last_overruns {t : State} {c : Byte} (k : Nat) (hk : t.idx.toNat - 2 - t.fnlen.toNat = k)
    (h3 : 3 ≤ k) (h : t.maxbytes.toNat < t.hdrcnt.toNat + (t.writePaylen k c).paycnt.toNat) :
    t.takePaylen c = (t.writePaylen k c).raiseInStep .capOverrun := by
  subst hk
  exact (if_neg (Nat.not_lt.2 h3)).trans (if_pos h)

/-! ### Everything one step of the engine can do -/

/-- The states that need the pixel pair at the cursor for their next byte (R130). -/
def State.needsPair (s : State) : Prop :=
  s.seq = .eHdr ∨ (s.seq = .ePay ∧ s.idx ≠ s.paycnt) ∨ s.seq = .dMagic ∨ s.seq = .dHdr
    ∨ (s.seq = .dPay ∧ s.idx ≠ s.paycnt)

/-- The outcomes of `engineStep`, each with its guard (R128 to R141). -/
inductive EngineMove (s : State) : State → Prop
  | rest (hb : s.busy = false) : EngineMove s s
  | planFits (hq : s.seq = .ePlan) (h : 18 + s.fnlen.toNat ≤ s.npix / 2) : EngineMove s
      (((s.writePlan (fittingPlan (s.npix / 2) (18 + s.fnlen.toNat) s.filesize.toNat)).setCursor (0, 0)).goto .eHdr)
  | planFails (hq : s.seq = .ePlan) (h : s.npix / 2 < 18 + s.fnlen.toNat) : EngineMove s
      ((s.writePlan (failingPlan (s.npix / 2) (18 + s.fnlen.toNat))).raiseInStep .capHeader)
  | bounds (hq : s.needsPair) (h : s.npix < s.cursor + 2) : EngineMove s (s.raiseInStep .bounds)
  | hdrMore (hq : s.seq = .eHdr) (h : s.cursor + 2 ≤ s.npix) (hi : (s.idx + 1).toNat ≠ s.hdrcnt.toNat) :
      EngineMove s (s.packNext s.cursor (s.hbyte s.idx.toNat))
  | hdrLast (hq : s.seq = .eHdr) (h : s.cursor + 2 ≤ s.npix) (hi : (s.idx + 1).toNat = s.hdrcnt.toNat) :
      EngineMove s ((s.packNext s.cursor (s.hbyte s.idx.toNat)).goto .ePay)
  | payMore (hq : s.seq = .ePay) (h : s.cursor + 2 ≤ s.npix) (hi : s.idx ≠ s.paycnt) :
      EngineMove s (s.packNext s.cursor (s.memRead .pay s.idx.toNat))
  | sessionDone (hq : s.seq = .ePay ∨ s.seq = .dPay) (hi : s.idx = s.paycnt) : EngineMove s s.enterDone
  | depthOk (hq : s.seq = .dDepth) (h : s.alphaPresent = true) : EngineMove s (s.goto .dSize)
  | depthBad (hq : s.seq = .dDepth) (h : s.alphaPresent = false) : EngineMove s (s.raiseInStep .fmtDepth)
  | sizeFits (hq : s.seq = .dSize) (h : 36 ≤ s.npix) :
      EngineMove s (((s.writeMaxBytes (s.npix / 2)).setCursor (0, 0)).goto .dMagic)
  | sizeFails (hq : s.seq = .dSize) (h : s.npix < 36) :
      EngineMove s ((s.writeMaxBytes (s.npix / 2)).raiseInStep .capCarrier)
  | magicMore (hq : s.seq = .dMagic) (h : s.cursor + 2 ≤ s.npix) (hi : s.idx + 1 ≠ 12) :
      EngineMove s ((s.passPair s.cursor).takeMagicByte (unpackPair s.cursor s.car))
  | magicBad (hq : s.seq = .dMagic) (h : s.cursor + 2 ≤ s.npix) (hi : s.idx + 1 = 12)
      (hm : mismatchAfter s.mismatch (unpackPair s.cursor s.car) s.idx.toNat = true) : EngineMove s
      (((s.passPair s.cursor).takeMagicByte (unpackPair s.cursor s.car)).raiseInStep .fmtMagic)
  | magicGood (hq : s.seq = .dMagic) (h : s.cursor + 2 ≤ s.npix) (hi : s.idx + 1 = 12)
      (hm : mismatchAfter s.mismatch (unpackPair s.cursor s.car) s.idx.toNat = false) : EngineMove s
      (((s.passPair s.cursor).takeMagicByte (unpackPair s.cursor s.car)).goto .dHdr)
  | fnlenLow (hq : s.seq = .dHdr) (h : s.cursor + 2 ≤ s.npix) (hi : s.idx.toNat = 0) :
      EngineMove s ((s.passPair s.cursor).takeFnlenLow (unpackPair s.cursor s.car))
  | fnlenHighFits (hq : s.seq = .dHdr) (h : s.cursor + 2 ≤ s.npix) (hi : s.idx.toNat = 1)
      (hm : (s.writeFnlenHigh (unpackPair s.cursor s.car)).hdrcnt.toNat ≤ s.maxbytes.toNat) :
      EngineMove s (((s.passPair s.cursor).writeFnlenHigh (unpackPair s.cursor s.car)).setIdx 2)
  | fnlenHighOverruns (hq : s.seq = .dHdr) (h : s.cursor + 2 ≤ s.npix) (hi : s.idx.toNat = 1)
      (hm : s.maxbytes.toNat < (s.writeFnlenHigh (unpackPair s.cursor s.car)).hdrcnt.toNat) :
      EngineMove s (((s.passPair s.cursor).writeFnlenHigh (unpackPair s.cursor s.car)).raiseInStep .capOverrun)
  | nameByte (hq : s.seq = .dHdr) (h : s.cursor + 2 ≤ s.npix) (hi : 2 ≤ s.idx.toNat)
      (hf : s.idx.toNat < 2 + s.fnlen.toNat) :
      EngineMove s ((s.passPair s.cursor).takeNameByte (unpackPair s.cursor s.car))
  | paylenMore (k : Nat) (hq : s.seq = .dHdr) (h : s.cursor + 2 ≤ s.npix) (hi : 2 ≤ s.idx.toNat)
      (hk : s.idx.toNat = 2 + s.fnlen.toNat + k) (h3 : k < 3) :
      EngineMove s (((s.passPair s.cursor).writePaylen k (unpackPair s.cursor s.car)).setIdx (s.idx + 1))
  | paylenFits (k : Nat) (hq : s.seq = .dHdr) (h : s.cursor + 2 ≤ s.npix) (hi : 2 ≤ s.idx.toNat)
      (hk : s.idx.toNat = 2 + s.fnlen.toNat + k) (h3 : 3 ≤ k)
      (hm : s.hdrcnt.toNat + (s.writePaylen k (unpackPair s.cursor s.car)).paycnt.toNat ≤ s.maxbytes.toNat) :
      EngineMove s (((s.passPair s.cursor).writePaylen k (unpackPair s.cursor s.car)).goto .dSkip)
  | paylenOverruns (k : Nat) (hq : s.seq = .dHdr) (h : s.cursor + 2 ≤ s.npix) (hi : 2 ≤ s.idx.toNat)
      (hk : s.idx.toNat = 2 + s.fnlen.toNat + k) (h3 : 3 ≤ k)
      (hm : s.maxbytes.toNat < s.hdrcnt.toNat + (s.writePaylen k (unpackPair s.cursor s.car)).paycnt.toNat) :
      EngineMove s (((s.passPair s.cursor).writePaylen k (unpackPair s.cursor s.car)).raiseInStep .capOverrun)
  | skip (hq : s.seq = .dSkip) (h : 2 * s.hdrcnt.toNat ≤ s.npix) :
      EngineMove s ((s.setCursor (pix s.W (2 * s.hdrcnt.toNat))).goto .dPay)
  | skipBounds (hq : s.seq = .dSkip) (h : s.npix < 2 * s.hdrcnt.toNat) : EngineMove s (s.raiseInStep .bounds)
  | takePayByte (hq : s.seq = .dPay) (h : s.cursor + 2 ≤ s.npix) (hi : s.idx ≠ s.paycnt) : EngineMove s
      (((s.passPair s.cursor).memWrite .pay s.idx.toNat (unpackPair s.cursor s.car)).setIdx (s.idx + 1))

theorem engineMove_bounds {s : State} (hq : s.needsPair) (h : s.npix < s.cursor + 2) :
    engineStep s = s.raiseInStep .bounds := by
  rcases hq with hq | ⟨hq, hi⟩ | hq | hq | ⟨hq, hi⟩
  · rw [engineStep_eHdr hq]; exact State.withPair_bounds h _
  · rw [engineStep_ePay hq]; exact (if_neg hi).trans (State.withPair_bounds h _)
  · rw [engineStep_dMagic hq]; exact State.withPair_bounds h _
  · rw [engineStep_dHdr hq]; exact State.withPair_bounds h _
  · rw [engineStep_dPay hq]; exact (if_neg hi).trans (State.withPair_bounds h _)

theorem magicVerdict_more {t : State} (h : t.idx ≠ 12) : t.magicVerdict = t := if_neg h

theorem magicVerdict_bad {t : State} (h : t.idx = 12) (hm : t.mismatch = true) :
    t.magicVerdict = t.raiseInStep .fmtMagic := (if_pos h).trans (if_pos hm)

theorem magicVerdict_good {t : State} (h : t.idx = 12) (hm : t.mismatch = false) :
    t.magicVerdict = t.goto .dHdr := (if_pos h).trans (if_neg (by simp [hm]))

theorem engineMove_magic {s : State} (hq : s.seq = .dMagic) (h : s.cursor + 2 ≤ s.npix) :
    EngineMove s (engineStep s) := by
  rw [engineStep_dMagic hq, stepDMagic_ok h]
  by_cases hi : s.idx + 1 = 12
  · cases hm : mismatchAfter s.mismatch (unpackPair s.cursor s.car) s.idx.toNat
    · rw [magicVerdict_good hi hm]; exact .magicGood hq h hi hm
    · rw [magicVerdict_bad hi hm]; exact .magicBad hq h hi hm
  · rw [magicVerdict_more hi]; exact .magicMore hq h hi

theorem engineMove_paylen {s : State} (hq : s.seq = .dHdr) (h : s.cursor + 2 ≤ s.npix) (hi : 2 ≤ s.idx.toNat)
    (hf : 2 + s.fnlen.toNat ≤ s.idx.toNat) : EngineMove s (engineStep s) := by
  obtain ⟨k, hk⟩ : ∃ k, s.idx.toNat = 2 + s.fnlen.toNat + k := ⟨_, (Nat.add_sub_of_le hf).symm⟩
  have hk' : (s.passPair s.cursor).idx.toNat - 2 - (s.passPair s.cursor).fnlen.toNat = k := by
    simp only [State.passPair_idx, State.passPair_fnlen]; omega
  rw [engineStep_dHdr hq, stepDHdr_paylen h hi hf]
  rcases Nat.lt_or_ge k 3 with h3 | h3
  · rw [State.takePaylen_more k hk' h3]; exact .paylenMore k hq h hi hk h3
  · rcases Nat.lt_or_ge s.maxbytes.toNat
      (s.hdrcnt.toNat + (s.writePaylen k (unpackPair s.cursor s.car)).paycnt.toNat) with hm | hm
    · rw [State.takePaylen_last_overruns k hk' h3 hm]; exact .paylenOverruns k hq h hi hk h3 hm
    · rw [State.takePaylen_last_fits k hk' h3 hm]; exact .paylenFits k hq h hi hk h3 hm

theorem engineMove_dHdr {s : State} (hq : s.seq = .dHdr) (h : s.cursor + 2 ≤ s.npix) :
    EngineMove s (engineStep s) := by
  rcases (by omega : s.idx.toNat = 0 ∨ s.idx.toNat = 1 ∨ 2 ≤ s.idx.toNat) with hi | hi | hi
  · rw [engineStep_dHdr hq, stepDHdr_fnlenLow h hi]; exact .fnlenLow hq h hi
  · rw [engineStep_dHdr hq, stepDHdr_fnlenHigh h hi]
    rcases Nat.lt_or_ge s.maxbytes.toNat (s.writeFnlenHigh (unpackPair s.cursor s.car)).hdrcnt.toNat with hm | hm
    · rw [State.takeFnlenHigh_overruns (t := s.passPair s.cursor) hm]; exact .fnlenHighOverruns hq h hi hm
    · rw [State.takeFnlenHigh_fits (t := s.passPair s.cursor) hm]; exact .fnlenHighFits hq h hi hm
  · rcases Nat.lt_or_ge s.idx.toNat (2 + s.fnlen.toNat) with hf | hf
    · rw [engineStep_dHdr hq, stepDHdr_name h hi hf]; exact .nameByte hq h hi hf
    · exact engineMove_paylen hq h hi hf

/-- Every step of the engine is one of the listed outcomes. -/
theorem engineStep_move (s : State) : EngineMove s (engineStep s) := by
  have idle : s.busy = false → EngineMove s (engineStep s) := fun hb => by
    rw [engineStep_idle hb]; exact .rest hb
  have pair : s.needsPair → (s.cursor + 2 ≤ s.npix → EngineMove s (engineStep s)) → EngineMove s (engineStep s) := by
    intro hn k
    rcases Nat.lt_or_ge s.npix (s.cursor + 2) with hp | hp
    · rw [engineMove_bounds hn hp]; exact .bounds hn hp
    · exact k hp
  cases hq : s.seq with
  | idle => exact idle (by simp [State.busy, hq, SeqState.isBusy])
  | done => exact idle (by simp [State.busy, hq, SeqState.isBusy])
  | abort => exact idle (by simp [State.busy, hq, SeqState.isBusy])
  | ePlan =>
    rw [engineStep_ePlan hq]
    rcases Nat.lt_or_ge (s.npix / 2) (18 + s.fnlen.toNat) with h | h
    · rw [stepEPlan_fails h]; exact .planFails hq h
    · rw [stepEPlan_fits h]; exact .planFits hq h
  | eHdr =>
    refine pair (.inl hq) fun h => ?_
    rw [engineStep_eHdr hq]
    by_cases hi : (s.idx + 1).toNat = s.hdrcnt.toNat
    · rw [stepEHdr_last h hi]; exact .hdrLast hq h hi
    · rw [stepEHdr_more h hi]; exact .hdrMore hq h hi
  | ePay =>
    by_cases hi : s.idx = s.paycnt
    · rw [engineStep_ePay hq, stepEPay_last hi]; exact .sessionDone (.inl hq) hi
    · refine pair (.inr (.inl ⟨hq, hi⟩)) fun h => ?_
      rw [engineStep_ePay hq, stepEPay_more h hi]; exact .payMore hq h hi
  | dDepth =>
    rw [engineStep_dDepth hq]
    cases ha : s.alphaPresent
    · rw [stepDDepth, if_neg (by simp [ha])]; exact .depthBad hq ha
    · rw [stepDDepth, if_pos ha]; exact .depthOk hq ha
  | dSize =>
    rw [engineStep_dSize hq]
    rcases Nat.lt_or_ge s.npix 36 with h | h
    · rw [stepDSize_fails h]; exact .sizeFails hq h
    · rw [stepDSize_fits h]; exact .sizeFits hq h
  | dMagic => exact pair (.inr (.inr (.inl hq))) (engineMove_magic hq)
  | dHdr => exact pair (.inr (.inr (.inr (.inl hq)))) (engineMove_dHdr hq)
  | dSkip =>
    rw [engineStep_dSkip hq]
    rcases Nat.lt_or_ge s.npix (2 * s.hdrcnt.toNat) with h | h
    · rw [stepDSkip, if_pos h]; exact .skipBounds hq h
    · rw [stepDSkip_ok h]; exact .skip hq h
  | dPay =>
    by_cases hi : s.idx = s.paycnt
    · rw [engineStep_dPay hq, stepDPay_last hi]; exact .sessionDone (.inr hq) hi
    · refine pair (.inr (.inr (.inr (.inr ⟨hq, hi⟩)))) fun h => ?_
      rw [engineStep_dPay hq, stepDPay_more h hi]; exact .takePayByte hq h hi

/-! ### Runs of the engine -/

theorem engineRun_add (j k : Nat) (s : State) : engineRun (j + k) s = engineRun k (engineRun j s) := by
  induction j generalizing s with
  | zero => rw [Nat.zero_add]; rfl
  | succ j ih => rw [Nat.succ_add]; exact ih (engineStep s)

/-- The last step of a run stands outermost. -/
theorem engineRun_succ (k : Nat) (s : State) : engineRun (k + 1) s = engineStep (engineRun k s) := engineRun_add k 1 s

/-- The sequencer's counter does not wrap below its width. -/
theorem idx_succ (i : BitVec 32) (h : i.toNat + 1 < 2 ^ 32) : (i + 1).toNat = i.toNat + 1 := by
  rw [BitVec.toNat_add]; exact Nat.mod_eq_of_lt h

end Sys2Proof.Machine
end

