-- ==== Sys2Proof/Laws/Step.lean ====
section
/-!
SUPPORT. One step: which register an access reaches, and everything a step that answers a next state can do.
-/
namespace Sys2Proof.Machine

/-! ### Register accesses (R17, R18) -/

theorem regAt_offset (r : Reg) : regAt r.offset 4 = some r := by cases r <;> rfl

theorem Reg.all_getElem? (k : Nat) (r : Reg) (h : Reg.all[k]? = some r) : 4 * k = r.offset := by
  have hk : k < 16 := by
    have := (List.getElem?_eq_some_iff.1 h).1
    simpa [Reg.all] using this
  rcases (by omega : k = 0 ∨ k = 1 ∨ k = 2 ∨ k = 3 ∨ k = 4 ∨ k = 5 ∨ k = 6 ∨ k = 7 ∨ k = 8 ∨ k = 9 ∨ k = 10
    ∨ k = 11 ∨ k = 12 ∨ k = 13 ∨ k = 14 ∨ k = 15) with
    rfl | rfl | rfl | rfl | rfl | rfl | rfl | rfl | rfl | rfl | rfl | rfl | rfl | rfl | rfl | rfl <;>
    (simp only [Reg.all, List.getElem?_cons_succ, List.getElem?_cons_zero, Option.some.injEq] at h; subst h; rfl)

/-- An access reaches a register only at that register's own offset, with 4 bytes. -/
theorem regAt_eq_some {o n : Nat} {r : Reg} (h : regAt o n = some r) : n = 4 ∧ o = r.offset := by
  unfold regAt at h
  split at h
  · next hc =>
    have := Reg.all_getElem? _ _ h
    omega
  · exact absurd h (by simp)

theorem regAt_none {o n : Nat} (h : n ≠ 4 ∨ o % 4 ≠ 0 ∨ 0x40 ≤ o) : regAt o n = none := by
  cases hr : regAt o n with
  | none => rfl
  | some r =>
    obtain ⟨h4, ho⟩ := regAt_eq_some hr
    subst ho
    exact absurd h (by cases r <;> simp [Reg.offset, h4])

/-! ### What a step is -/

theorem step_nil {s : State} (h : s.turns = []) : step s = .next (engineStep s) := by
  simp [step, nextTransition, h]

/-- A run whose first step answers a next state goes on from it. -/
theorem core_run_next (k : Nat) (s t : State) (h : step s = .next t) :
    Sys2Proof.core.run (k + 1) s = Sys2Proof.core.run k t := by
  have h' : Sys2Proof.core.step s = .next t := h
  simp only [Host.Core.run]
  rw [h']

theorem step_turn {s : State} {t : Turn} {rest : List Turn} (h : s.turns = t :: rest) :
    step s = runTurn t (s.withTurns rest) := by
  simp [step, nextTransition, h]

theorem step_regRead {s : State} {r : Reg} {rest : List Turn} (h : s.turns = .regRead r.offset 4 :: rest) :
    step s = .next ((s.withTurns rest).give ((s.withTurns rest).readReg r)) := by
  rw [step_turn h]; simp only [runTurn, regAt_offset]

theorem step_regWrite {s : State} {r : Reg} {d : Word} {rest : List Turn}
    (h : s.turns = .regWrite r.offset 4 d :: rest) : step s = writeReg r d (s.withTurns rest) := by
  rw [step_turn h]; simp only [runTurn, regAt_offset]

/-- A 32-bit write to offset 0 is a command word (R19). -/
theorem step_command {s : State} {w : Word} {rest : List Turn} (h : s.turns = .regWrite 0x00 4 w :: rest) :
    step s = issueWord w (s.withTurns rest) := step_regWrite (r := .cmd) h

theorem hostByte_busy {s : State} {sp : Space} {a : Nat} (k : State) (hb : s.busy = true) :
    s.hostByte sp a k = .fault .hostMemoryWhileBusy := if_pos hb

theorem hostByte_outside {s : State} {sp : Space} {a : Nat} (k : State) (hb : s.busy = false)
    (ha : Config.spaceSize sp ≤ a) : s.hostByte sp a k = .fault .addressOutsideSpace :=
  (if_neg (by simp [hb])).trans (if_pos ha)

theorem hostByte_inside {s : State} {sp : Space} {a : Nat} (k : State) (hb : s.busy = false)
    (ha : a < Config.spaceSize sp) : s.hostByte sp a k = .next k :=
  (if_neg (by simp [hb])).trans (if_neg (Nat.not_le.2 ha))

/-- The host's byte access, when it has a step. -/
theorem hostByte_next {s t k : State} {sp : Space} {a : Nat} (h : s.hostByte sp a k = .next t) :
    s.busy = false ∧ a < Config.spaceSize sp ∧ t = k := by
  unfold State.hostByte at h
  split at h
  · cases h
  · next hb =>
    split at h
    · cases h
    · next ha =>
      cases h
      exact ⟨by simpa using hb, by omega, rfl⟩

/-! ### Everything a step can do -/

/-- What an idle block does on a write to a read-write register (R28 to R34). -/
def Reg.effect (r : Reg) (d : Word) (s : State) : State :=
  match r with
  | .width => { s with width := d.setWidth 16 }.setCursor (0, 0)
  | .height => { s with height := d.setWidth 16 }.setCursor (0, 0)
  | .cfg => { s with alphaPresent := d.getLsbD 0 }
  | .fnlen => { s with fnlen := d.setWidth 16 }
  | .filesize => { s with filesize := d }
  | _ => s

/-- The outcomes of a step, each with the turn that makes it. -/
inductive Move (s : State) : State → Prop
  | quiet (h : s.turns = []) : Move s (engineStep s)
  | engine (rest : List Turn) (h : s.turns = .engine :: rest) : Move s (engineStep (s.withTurns rest))
  | pollBusy (rest : List Turn) (h : s.turns = .poll :: rest) (hb : s.busy = true) :
      Move s ((engineStep (s.withTurns rest)).withTurns (.poll :: rest))
  | pollDone (rest : List Turn) (h : s.turns = .poll :: rest) (hb : s.busy = false) :
      Move s ((s.withTurns rest).give (s.withTurns rest).statusWord)
  | regRead (r : Reg) (rest : List Turn) (h : s.turns = .regRead r.offset 4 :: rest) :
      Move s ((s.withTurns rest).give ((s.withTurns rest).readReg r))
  | command (i : Instr) (w : Word) (rest : List Turn) (h : s.turns = .regWrite 0x00 4 w :: rest)
      (hd : decode w = .ok i) (t : State) (he : exec i (s.withTurns rest) = .next t) : Move s t
  | illegal (w : Word) (e : IllegalWord) (rest : List Turn) (h : s.turns = .regWrite 0x00 4 w :: rest)
      (hd : decode w = .error e) : Move s (s.withTurns rest).acceptIllegal
  | regIgnored (r : Reg) (d : Word) (rest : List Turn) (h : s.turns = .regWrite r.offset 4 d :: rest)
      (hr : r ∉ [.cmd, .width, .height, .cfg, .fnlen, .filesize]) : Move s (s.withTurns rest)
  | regDropped (r : Reg) (d : Word) (rest : List Turn) (h : s.turns = .regWrite r.offset 4 d :: rest)
      (hr : r ∈ [.width, .height, .cfg, .fnlen, .filesize]) (hb : s.busy = true) :
      Move s (s.withTurns rest).markDropped
  | regWritten (r : Reg) (d : Word) (rest : List Turn) (h : s.turns = .regWrite r.offset 4 d :: rest)
      (hr : r ∈ [.width, .height, .cfg, .fnlen, .filesize]) (hb : s.busy = false) :
      Move s (r.effect d (s.withTurns rest))
  | memRead (sp : Space) (a : Nat) (rest : List Turn) (h : s.turns = .memRead sp a :: rest)
      (hb : s.busy = false) (ha : a < Config.spaceSize sp) :
      Move s ((s.withTurns rest).give (((s.withTurns rest).memRead sp a).setWidth 32))
  | memWrite (sp : Space) (a : Nat) (v : Byte) (rest : List Turn) (h : s.turns = .memWrite sp a v :: rest)
      (hb : s.busy = false) (ha : a < Config.spaceSize sp) : Move s ((s.withTurns rest).memWrite sp a v)
  | reset (rest : List Turn) (h : s.turns = .reset :: rest) : Move s (s.withTurns rest).resetBlock

theorem writeReg_move {s t : State} {r : Reg} {d : Word} {rest : List Turn}
    (h : s.turns = .regWrite r.offset 4 d :: rest) (he : writeReg r d (s.withTurns rest) = .next t) : Move s t := by
  by_cases hc : r = .cmd
  · subst hc
    change issueWord d _ = _ at he
    unfold issueWord at he
    split at he
    · next i hd => exact .command i d rest h hd t he
    · next e hd => cases he; exact .illegal d e rest h hd
  · by_cases hr : r ∈ [.width, .height, .cfg, .fnlen, .filesize]
    · by_cases hb : s.busy = true
      · have : t = (s.withTurns rest).markDropped := by
          cases r <;> simp [writeReg, State.hostWrite, hb] at hr he <;> exact he.symm
        subst this; exact .regDropped r d rest h hr hb
      · have : t = r.effect d (s.withTurns rest) := by
          cases r <;> simp [writeReg, State.hostWrite, hb] at hr he <;> exact he.symm
        subst this; exact .regWritten r d rest h hr (by simpa using hb)
    · have : t = s.withTurns rest := by
        cases r <;> simp [writeReg] at hr he <;> first | exact he.symm | exact absurd rfl hc
      subst this; exact .regIgnored r d rest h (by simp at hr ⊢; exact ⟨hc, hr⟩)

/-- Every step that answers a next state is one of the listed outcomes. -/
theorem step_move {s t : State} (h : step s = .next t) : Move s t := by
  cases ht : s.turns with
  | nil => rw [step_nil ht] at h; cases h; exact .quiet ht
  | cons u rest =>
    rw [step_turn ht] at h
    cases u with
    | regRead o n =>
      cases hr : regAt o n with
      | none => simp [runTurn, hr] at h
      | some r =>
        simp only [runTurn, hr] at h
        obtain ⟨rfl, rfl⟩ := regAt_eq_some hr
        cases h; exact .regRead r rest ht
    | regWrite o n d =>
      cases hr : regAt o n with
      | none => simp [runTurn, hr] at h
      | some r =>
        simp only [runTurn, hr] at h
        obtain ⟨rfl, rfl⟩ := regAt_eq_some hr
        exact writeReg_move ht h
    | memRead sp a =>
      obtain ⟨hb, ha, rfl⟩ := hostByte_next h
      exact .memRead sp a rest ht hb ha
    | memWrite sp a v =>
      obtain ⟨hb, ha, rfl⟩ := hostByte_next h
      exact .memWrite sp a v rest ht hb ha
    | poll =>
      simp only [runTurn] at h
      split at h
      · next hb => cases h; exact .pollBusy rest ht hb
      · next hb => cases h; exact .pollDone rest ht (by simpa using hb)
    | engine => cases h; exact .engine rest ht
    | reset => cases h; exact .reset rest ht

end Sys2Proof.Machine
end

