-- ==== Sys2Proof/Tests/Slice0.lean ====
section
/-!
SUPPORT. Tests: well-formedness, decoding of words written out from the spec, vectors of spec/95_test_vectors.md (each
test names its row), and a witness for the hypotheses of each statement.
-/
namespace Sys2Proof.Tests

open Sys2Proof.Machine

/-! ### Helpers -/

/-- A field of the next state, if there is one. -/
def after {α : Type} (o : Host.Outcome State Fault Refusal) (f : State → α) : Option α :=
  match o with
  | .next s => some (f s)
  | .fault _ => none
  | .refused _ => none

/-- After reset and writes of WIDTH and HEIGHT. -/
def grid (w h : BitVec 16) : State := { State.reset with width := w, height := h }

/-- The cursor put at a position. -/
def at_ (s : State) (col : BitVec 16) (row : BitVec 17) : State := { s with curCol := col, curRow := row }

/-- CAR loaded with bytes from an address on. -/
def load (a : Nat) (bytes : List Byte) (s : State) : State :=
  { s with car := (bytes.zipIdx.map fun b => (a + b.2, b.1)) }

/-- The eight channels of the pair that starts at a pixel. -/
def channels (s : State) (p : Nat) : List Byte :=
  [0, 1, 2, 3, 4, 5, 6, 7].map fun i => memByte .car s.car (4 * p + i)

/-- A state of the sequencer. -/
def running (q : SeqState) (s : State) : State := { s with seq := q }

/-! ### WellFormed: one check, and a term it refuses (R66) -/

theorem test_count_too_large_is_ill_formed : (Instr.curAdvanceBy 16777216).wellFormed = false := by decide
theorem test_largest_count_is_well_formed : (Instr.curAdvanceBy 16777215).wellFormed = true := by decide

/-! ### Decoding: every command's word, bit by bit from R65, R66 and R68 (OPC in bits 31 to 24, operand below) -/

theorem test_decode_nop : decode 0b00000000_000000000000000000000000 = .ok .nop := by decide
theorem test_decode_clrStatus : decode 0b00000001_000000000000000000000000 = .ok .clrStatus := by decide
theorem test_decode_curReset : decode 0b00000010_000000000000000000000000 = .ok .curReset := by decide
theorem test_decode_curAdvance : decode 0b00000011_000000000000000000000000 = .ok .curAdvance := by decide
theorem test_decode_curAdvanceBy : decode 0b00000100_100000000000000000000110 = .ok (.curAdvanceBy 8388614) := by decide
theorem test_decode_packByte : decode 0b00010000_0000000000000000_10100101 = .ok (.packByte 0xA5) := by decide
theorem test_decode_unpackByte : decode 0b00010001_000000000000000000000000 = .ok .unpackByte := by decide
theorem test_decode_planEncode : decode 0b00100000_000000000000000000000000 = .ok .planEncode := by decide
theorem test_decode_planDecode : decode 0b00100001_000000000000000000000000 = .ok .planDecode := by decide
theorem test_decode_encode : decode 0b00110000_000000000000000000000000 = .ok .encode := by decide
theorem test_decode_decode : decode 0b00110001_000000000000000000000000 = .ok .decode := by decide

/-- A6, A7, A9 of 95_test_vectors.md 2.1, as decodings. -/
theorem test_decode_rejects :
    decode 0x00000001 = .error .mustBeZero ∧ decode 0x10000100 = .error .mustBeZero
      ∧ decode 0xFF000000 = .error .unassignedOpcode := by decide

/-- The host's numbering: one 32-bit word, and nothing above it (R72). -/
theorem test_decodeTableWord :
    decodeTableWord 32 0x10000041 = some (.packByte 0x41) ∧ decodeTableWord 32 0x05000000 = none
      ∧ decodeTableWord 64 0x10000041 = none := by decide

/-! ### Commands -/

/-- A10: after a completed ENCODE (STATUS 0x20) a NOP leaves STATUS as it is. -/
theorem test_nop_keeps_done :
    after (issueWord 0x00000000 { grid 2 2 with done := true, seq := .done }) State.statusWord = some 0x00000020 := by
  decide

/-- A16. -/
theorem test_clrStatus_after_error :
    after (issueWord 0x01000000 { grid 2 2 with err := .fmtMagic, dropped := true, seq := .abort, mismatch := true })
      (fun s => (s.statusWord, s.sessionWord)) = some (0x00000000, 0x00000000) := by decide

/-- A1, run by the step that follows reset. -/
theorem test_curReset_without_geometry :
    after (step (State.reset.withFetchWord 32 0x02000000)) State.statusWord = some 0x00000009 := by decide

/-- A2: the next command is dropped. -/
theorem test_curReset_dropped_after_error :
    after (issueWord 0x02000000 { State.reset with err := .config }) State.statusWord = some 0x00000089 := by decide

/-- K3: the wrap at the row's end, from (2,0). -/
theorem test_curAdvance_wraps :
    after (exec .curAdvance (at_ (grid 3 2) 2 0)) (fun s => (s.curCol, s.curRow, s.err)) = some (0, 1, .noError) := by
  decide

/-- K5: no pixel left. -/
theorem test_curAdvance_past_the_grid :
    after (exec .curAdvance (at_ (grid 3 2) 0 2)) (fun s => (s.curCol, s.curRow, s.statusWord))
      = some (0, 2, 0x00000007) := by decide

/-- K6. -/
theorem test_curAdvanceBy_to_the_end :
    after (issueWord 0x04000006 (grid 3 2)) (fun s => (s.curCol, s.curRow, s.err)) = some (0, 2, .noError) := by decide

/-- K10. -/
theorem test_curAdvanceBy_checks_first :
    after (issueWord 0x04FFFFFF (grid 3 2)) (fun s => (s.curCol, s.curRow, s.statusWord))
      = some (0, 0, 0x00000007) := by decide

/-- B1. -/
theorem test_packByte_spreads_the_bits :
    after (issueWord 0x10000041 (load 0 [0x80, 0x80, 0x80, 0x80, 0x80, 0x80, 0x80, 0x80] (grid 2 2)))
      (fun s => (channels s 0, s.curCol, s.curRow))
      = some ([0x81, 0x80, 0x80, 0x80, 0x80, 0x80, 0x81, 0x80], 0, 1) := by decide

/-- B6: the pair straddles two rows. -/
theorem test_packByte_straddles_rows :
    after (issueWord 0x100000F0 (at_ (load 8 [0, 0, 0, 0, 0, 0, 0, 0] (grid 3 3)) 2 0))
      (fun s => (channels s 2, s.curCol, s.curRow)) = some ([0, 0, 0, 0, 1, 1, 1, 1], 1, 1) := by decide

/-- B9. -/
theorem test_unpackByte_gathers_the_bits :
    after (issueWord 0x11000000 (load 0 [0x01, 0x00, 0x01, 0x00, 0x00, 0x00, 0x01, 0x00] (grid 2 1)))
      (fun s => (s.dataOut, s.curCol, s.curRow)) = some (0x45, 0, 1) := by decide

/-- B7's grid and cursor, for UNPACK_BYTE: the last pixel of an odd grid has no pair. -/
theorem test_unpackByte_at_the_last_pixel :
    after (issueWord 0x11000000 (at_ (grid 3 1) 2 0)) (fun s => (s.curCol, s.statusWord)) = some (2, 0x00000007) := by
  decide

/-- C13: the largest carrier. -/
theorem test_planEncode_largest :
    after (issueWord 0x20000000 { grid 65535 65535 with filesize := 0xFFFFFFFF })
      (fun s => (s.maxbytes.toNat, s.hdrcnt.toNat, s.paycnt.toNat, s.statusWord))
      = some (2147418112, 18, 2147418094, 0x00000010) := by decide

/-- C7. -/
theorem test_planEncode_header_too_long :
    after (issueWord 0x20000000 { grid 40 40 with fnlen := 783, filesize := 781 })
      (fun s => (s.maxbytes.toNat, s.hdrcnt.toNat, s.paycnt.toNat, s.statusWord))
      = some (800, 801, 0, 0x00000001) := by decide

/-- C11. -/
theorem test_planDecode_fits :
    after (issueWord 0x21000000 (grid 6 6)) (fun s => (s.maxbytes.toNat, s.statusWord)) = some (18, 0) := by decide

/-- C12. -/
theorem test_planDecode_too_small :
    after (issueWord 0x21000000 (grid 5 7)) (fun s => (s.maxbytes.toNat, s.statusWord)) = some (17, 0x00000002) := by
  decide

/-- P3: after ENCODE, STATUS 0x40 and SESSION 0x01. -/
theorem test_encode_starts :
    after (issueWord 0x30000000 { grid 6 7 with fnlen := 1, filesize := 2 })
      (fun s => (s.statusWord, s.sessionWord)) = some (0x00000040, 0x00000001) := by decide

/-- Z2. -/
theorem test_decode_after_reset :
    after (issueWord 0x31000000 State.reset) State.statusWord = some 0x00000009 := by decide

/-! ### The engine -/

/-- P3: the plan. -/
theorem test_ePlan :
    (fun s : State => (s.seq, s.maxbytes.toNat, s.hdrcnt.toNat, s.paycnt.toNat))
      (engineStep (running .ePlan { grid 6 7 with fnlen := 1, filesize := 2 })) = (.eHdr, 21, 19, 2) := by decide

/-- P3: pixels 0 and 1 carry 'E' = 0x45 after the first header byte. -/
theorem test_eHdr_packs_the_magic :
    channels (engineStep (running .eHdr { load 0 [0, 0, 0, 0, 0, 0, 0, 0] (grid 6 7) with fnlen := 1, hdrcnt := 19 })) 0
      = [1, 0, 1, 0, 0, 0, 1, 0] := by decide

/-- P3: pixels 40 and 41 carry the last payload byte 0xFF, and the cursor ends at (0,7). -/
theorem test_ePay_packs_the_payload :
    (fun s : State => (channels s 40, s.curCol, s.curRow, s.idx))
      (engineStep (running .ePay
        { at_ (load 160 [0, 0, 0, 0, 0, 0, 0, 0] (grid 6 7)) 4 6 with
          paycnt := 2, idx := 1, pay := [(0, 0x00), (1, 0xFF)] }))
      = ([1, 1, 1, 1, 1, 1, 1, 1], 0, 7, 2) := by decide

/-- S1. -/
theorem test_dDepth_without_alpha :
    (fun s : State => (s.statusWord, s.sessionWord)) (engineStep (running .dDepth (grid 5 7)))
      = (0x00000005, 0x0000000F) := by decide

/-- S3: the twelfth byte of an all-zero carrier; the earlier ones differed. -/
theorem test_dMagic_verdict :
    (fun s : State => (s.statusWord, s.sessionWord, s.idx, s.curCol, s.curRow))
      (engineStep (running .dMagic
        { at_ (load 88 [0, 0, 0, 0, 0, 0, 0, 0] (grid 6 6)) 4 3 with idx := 11, mismatch := true }))
      = (0x00000004, 0x0000001F, 12, 0, 4) := by decide

/-- S4: the second byte of the filename length, 01 00 on a carrier of 18 bytes. -/
theorem test_dHdr_filename_too_long :
    (fun s : State => (s.statusWord, s.fnlen, s.hdrcnt, s.idx, s.curCol, s.curRow))
      (engineStep (running .dHdr
        { at_ (load 104 [0, 0, 0, 0, 0, 0, 0, 0] (grid 6 6)) 2 4 with idx := 1, fnlen := 1, maxbytes := 18 }))
      = (0x00000003, 1, 19, 1, 4, 4) := by decide

/-- H1. -/
theorem test_headerBytes :
    headerBytes [0x61] 50 = [0x45, 0x61, 0x73, 0x79, 0x42, 0x4D, 0x50, 0x73, 0x74, 0x65, 0x67, 0x6F, 0x01, 0x00, 0x61,
      0x32, 0x00, 0x00, 0x00] := by decide

/-- H3, its length field. -/
theorem test_headerBytes_length_field : (headerBytes [] 0x01020304).drop 14 = [0x04, 0x03, 0x02, 0x01] := by decide

/-! ### The host's side -/

/-- A12: a dropped write of WIDTH. -/
theorem test_write_while_busy :
    after (writeReg .width 9 (running .ePlan (grid 2 2))) (fun s => (s.width, s.statusWord)) = some (2, 0x000000C0) := by
  decide

/-- K12: a geometry write resets the cursor. -/
theorem test_geometry_write_resets_the_cursor :
    after (writeReg .width 3 (at_ (grid 3 2) 1 1)) (fun s => (s.curCol, s.curRow)) = some (0, 0) := by decide

/-- R73's own examples, one of them as text with a comment. -/
theorem test_assembler :
    assembleLine "PACK_BYTE 0x41 ; a byte".toList = .ok (some (.packByte 0x41))
      ∧ encode (.packByte 0x41) = 0x10000041 ∧ encode (.curAdvanceBy 36) = 0x04000024
      ∧ encode .decode = 0x31000000 := by decide

/-- R73: what the assembler refuses. -/
theorem test_assembler_refuses :
    assembleLine "PACK_BYTE 256".toList = .error .operandTooLarge
      ∧ assembleLine "PACK_BYTE".toList = .error .missingOperand
      ∧ assembleLine "NOP 1".toList = .error .surplusOperand := by decide

/-- R75: SEEK 4 as P5 of 95_test_vectors.md writes its words. -/
theorem test_seek_expansion :
    (HostAction.seek 4).turns = [.regWrite 0x00 4 0x02000000, .regWrite 0x00 4 0x04000004] := by decide

/-! ### Witnesses: states and operands that meet the hypotheses of each statement -/

/-- A 36-pixel grid, the smallest that holds a header. -/
def smallest : State := grid 6 6

/-- A grid of one pixel less. -/
def tooSmall : State := grid 5 7

/-- A session in its payload, on the grid of program P3. -/
def inPayload : State :=
  { at_ (grid 6 7) 2 6 with
    seq := .ePay, fnlen := 1, filesize := 2, maxbytes := 21, hdrcnt := 19, paycnt := 2, pay := [(0, 0x00), (1, 0xFF)] }

/-- 36 pixels of zeros. -/
def zeros : Memory := (List.range 144).map fun a => (a, 0)

/-- The same, with the magic tag embedded from pixel 0 on. -/
def tagged : Memory := (List.range 12).foldl (fun m k => packPair (2 * k) (Config.magicAt k) m) zeros

theorem witness_DecodeOfEncodeIsTheCommand : (Instr.curAdvanceBy 16777215).wellFormed = true := by decide

theorem witness_EncodeOfDecodeIsTheWord : decode 0x04FFFFFF = .ok (.curAdvanceBy 16777215) := by decide

theorem witness_IllegalWordsRaiseIllegal :
    decode 0x05000000 = .error .unassignedOpcode ∧ decode 0xFFFFFFFF = .error .unassignedOpcode
      ∧ decode 0x31000001 = .error .mustBeZero ∧ decode 0x1000FF00 = .error .mustBeZero := by decide

theorem witness_StepRunsTheDecodedCommand :
    (grid 2 2 |>.withTurns [.regWrite 0x00 4 0x03000000]).turns = .regWrite 0x00 4 0x03000000 :: []
      ∧ decode 0x03000000 = .ok .curAdvance := by decide

theorem witness_StepRunsAnEncodedCommand : (Instr.packByte 255).wellFormed = true := by decide

theorem witness_PrimitiveCommandsLeaveTheSession :
    Instr.planEncode ≠ .clrStatus ∧ Instr.planEncode ≠ .encode ∧ Instr.planEncode ≠ .decode
      ∧ ∃ t, exec .planEncode (grid 1 1) = .next t := ⟨by decide, by decide, by decide, _, rfl⟩

theorem witness_DroppedCommandOnlySetsDropped :
    (Instr.clrStatus ≠ .nop ∧ (running .dPay smallest).busy = true)
      ∧ (Instr.decode ≠ .nop ∧ ({ smallest with err := .config } : State).err ≠ .noError
        ∧ Instr.decode ≠ .clrStatus) := by decide

theorem witness_NopDoesNothing :
    (0x00000001 ≤ (0x00000001 : Word).toNat ∧ (0x00000001 : Word).toNat ≤ 0x00FFFFFF)
      ∧ (0x00000001 ≤ (0x00FFFFFF : Word).toNat ∧ (0x00FFFFFF : Word).toNat ≤ 0x00FFFFFF) := by decide

theorem witness_ClrStatusReturnsToIdle :
    (running .ePlan smallest).busy = true ∧ (running .abort smallest).busy = false := by decide

theorem witness_CurResetMovesToOrigin :
    (grid 1 1).ready ∧ (grid 0 1).zeroGeometry ∧ (grid 1 0).zeroGeometry := by
  simp only [State.ready, State.zeroGeometry]; decide

theorem witness_CurAdvanceMovesOnePixel :
    ((at_ (grid 3 2) 2 1).ready ∧ (at_ (grid 3 2) 2 1).curRow.toNat < (at_ (grid 3 2) 2 1).height.toNat)
      ∧ ((at_ (grid 3 2) 0 2).ready ∧ (at_ (grid 3 2) 0 2).height.toNat ≤ (at_ (grid 3 2) 0 2).curRow.toNat)
      ∧ (grid 0 0).zeroGeometry := by
  simp only [State.ready, State.zeroGeometry]; decide

theorem witness_CurAdvanceByReachesPix :
    (at_ (grid 3 2) 1 0).ready ∧ (at_ (grid 3 2) 1 0).CursorOk
      ∧ (at_ (grid 3 2) 1 0).cursor + 5 ≤ (at_ (grid 3 2) 1 0).npix ∧ 6 ≤ (at_ (grid 3 2) 1 0).npix := by
  simp only [State.ready, State.CursorOk]; decide

theorem witness_CurAdvanceByChecksFirst :
    16777215 ≤ 16777215 ∧ ((at_ (grid 3 2) 1 0).ready
      ∧ (at_ (grid 3 2) 1 0).npix < (at_ (grid 3 2) 1 0).cursor + 6) ∧ (grid 0 2).zeroGeometry := by
  simp only [State.ready, State.zeroGeometry]; decide

theorem witness_CurAdvanceByIsRepeatedCurAdvance :
    (grid 3 2).ready ∧ (grid 3 2).CursorOk ∧ 1 ≤ 6 ∧ (grid 3 2).cursor + 6 ≤ (grid 3 2).npix := by
  simp only [State.ready, State.CursorOk]; decide

theorem witness_SetLsbSetsOnlyTheParity : 0 < 2 ∧ 1 < 2 := by decide

theorem witness_PackUnpackProperties : Memory.wf [(0, 0x10), (7, 0x11), (8, 0xFF)] = true := by decide

theorem witness_PackByteEmbedsTheByte :
    ((grid 2 1).ready ∧ (grid 2 1).cursor + 2 ≤ (grid 2 1).npix)
      ∧ ((at_ (grid 2 1) 1 0).ready ∧ (at_ (grid 2 1) 1 0).npix < (at_ (grid 2 1) 1 0).cursor + 2)
      ∧ (grid 2 0).zeroGeometry := by
  simp only [State.ready, State.zeroGeometry]; decide

theorem witness_UnpackByteReadsTheByte :
    ((at_ (grid 2 2) 0 1).ready ∧ (at_ (grid 2 2) 0 1).cursor + 2 ≤ (at_ (grid 2 2) 0 1).npix)
      ∧ ((at_ (grid 2 1) 0 1).ready ∧ (at_ (grid 2 1) 0 1).npix < (at_ (grid 2 1) 0 1).cursor + 2)
      ∧ (grid 0 2).zeroGeometry := by
  simp only [State.ready, State.zeroGeometry]; decide

theorem witness_PlanEncodeWritesThePlan :
    (smallest.ready ∧ 18 + smallest.fnlen.toNat ≤ smallest.width.toNat * smallest.height.toNat / 2)
      ∧ (tooSmall.ready ∧ tooSmall.width.toNat * tooSmall.height.toNat / 2 < 18 + tooSmall.fnlen.toNat)
      ∧ (grid 0 0).zeroGeometry := by
  simp only [State.ready, State.zeroGeometry]; decide

theorem witness_PlanDecodeWritesMaxbytes :
    (smallest.ready ∧ 36 ≤ smallest.width.toNat * smallest.height.toNat)
      ∧ (tooSmall.ready ∧ tooSmall.width.toNat * tooSmall.height.toNat < 36) ∧ (grid 0 0).zeroGeometry := by
  simp only [State.ready, State.zeroGeometry]; decide

theorem witness_PlanRegistersAreExact : (grid 65535 65535).ready := by
  simp only [State.ready]; decide

theorem witness_HeaderByteIsTheSerializedByte :
    0 < 18 + (grid 6 7).fnlen.toNat ∧ 65552 < 18 + ({ grid 6 7 with fnlen := 0xFFFF } : State).fnlen.toNat := by decide

theorem witness_ParsingTheFrameGivesItBack :
    ([0x61] : List Byte).length ≤ 65535 ∧ 0xFFFFFFFF < 2 ^ 32 := by decide

theorem witness_EncodeStartsASession : (grid 1 1).ready ∧ (grid 0 1).zeroGeometry := by
  simp only [State.ready, State.zeroGeometry]; decide

theorem witness_DecodeStartsASession : (grid 65535 1).ready ∧ (grid 1 0).zeroGeometry := by
  simp only [State.ready, State.zeroGeometry]; decide

theorem witness_EngineMovesWhenItIsItsTurn :
    smallest.busy = false ∧ inPayload.turns = [] ∧ (inPayload.withTurns [.engine]).turns = .engine :: []
      ∧ ((inPayload.withTurns [.poll]).turns = .poll :: [] ∧ (inPayload.withTurns [.poll]).busy = true)
      ∧ ((smallest.withTurns [.poll]).turns = .poll :: [] ∧ (smallest.withTurns [.poll]).busy = false) := by decide

theorem witness_EPlanPlansTheSession :
    ((running .ePlan smallest).seq = .ePlan ∧ 18 + smallest.fnlen.toNat ≤ smallest.width.toNat * smallest.height.toNat / 2)
      ∧ ((running .ePlan tooSmall).seq = .ePlan
        ∧ tooSmall.width.toNat * tooSmall.height.toNat / 2 < 18 + tooSmall.fnlen.toNat) := by decide

theorem witness_EHdrPacksOneHeaderByte :
    ((running .eHdr (grid 2 1)).seq = .eHdr ∧ (running .eHdr (grid 2 1)).cursor + 2 ≤ (running .eHdr (grid 2 1)).npix)
      ∧ ((running .eHdr (grid 1 1)).seq = .eHdr
        ∧ (running .eHdr (grid 1 1)).npix < (running .eHdr (grid 1 1)).cursor + 2) := by decide

theorem witness_EPayPacksOnePayloadByte :
    (inPayload.seq = .ePay ∧ { inPayload with idx := 2 }.idx = inPayload.paycnt)
      ∧ (inPayload.idx ≠ inPayload.paycnt ∧ inPayload.cursor + 2 ≤ inPayload.npix)
      ∧ ((at_ inPayload 0 7).seq = .ePay ∧ (at_ inPayload 0 7).idx ≠ (at_ inPayload 0 7).paycnt
        ∧ (at_ inPayload 0 7).npix < (at_ inPayload 0 7).cursor + 2) := by decide

theorem witness_DecodeChecksDepthThenSize :
    ((running .dDepth smallest).seq = .dDepth ∧ smallest.alphaPresent = false)
      ∧ { smallest with alphaPresent := true }.alphaPresent = true
      ∧ ((running .dSize tooSmall).seq = .dSize ∧ tooSmall.width.toNat * tooSmall.height.toNat < 36)
      ∧ 36 ≤ smallest.width.toNat * smallest.height.toNat := by decide

theorem witness_DMagicComparesOneByte :
    (running .dMagic smallest).seq = .dMagic
      ∧ ((at_ smallest 4 3).cursor + 2 ≤ smallest.npix ∧ (10 : BitVec 32) + 1 ≠ 12 ∧ (11 : BitVec 32) + 1 = 12)
      ∧ ((true || (unpackPair 22 zeros != Config.magic.getD 11 0)) = true
        ∧ (false || (unpackPair 22 tagged != Config.magic.getD 11 0)) = false)
      ∧ smallest.npix < (at_ smallest 0 6).cursor + 2 := by decide +kernel

/-- The boundary values of IDX in D_HDR, with a filename of one byte: 0, 1, 2, 3, 4 to 5, 6. -/
theorem witness_DHdrParsesOneByte :
    ((running .dHdr (at_ smallest 0 4)).seq = .dHdr
        ∧ (running .dHdr (at_ smallest 0 4)).cursor + 2 ≤ (running .dHdr (at_ smallest 0 4)).npix)
      ∧ (0 : BitVec 32).toNat = 0
      ∧ ((1 : BitVec 32).toNat = 1 ∧ (0xFF : BitVec 16).toNat < 256
        ∧ 18 + (0 + 256 * (0 : Byte).toNat) ≤ (18 : BitVec 32).toNat
        ∧ (18 : BitVec 32).toNat < 18 + (1 + 256 * (0 : Byte).toNat))
      ∧ (2 ≤ (2 : BitVec 32).toNat ∧ (2 : BitVec 32).toNat < 2 + (1 : BitVec 16).toNat)
      ∧ (2 ≤ (3 : BitVec 32).toNat ∧ (3 : BitVec 32).toNat = 2 + (1 : BitVec 16).toNat)
      ∧ ((4 : BitVec 32).toNat = 2 + (1 : BitVec 16).toNat + 1 ∧ (5 : BitVec 32).toNat = 2 + (1 : BitVec 16).toNat + 2)
      ∧ ((6 : BitVec 32).toNat = 5 + (1 : BitVec 16).toNat ∧ (0x00FFFFFF : BitVec 32).toNat < 16777216
        ∧ (18 : BitVec 17).toNat + (0 + (0 : Byte).toNat * 16777216) ≤ (18 : BitVec 32).toNat
        ∧ (18 : BitVec 32).toNat < (18 : BitVec 17).toNat + (1 + (0 : Byte).toNat * 16777216)) := by decide

/-- No pair left in D_HDR. -/
theorem witness_DHdrParsesOneByte_bounds :
    (running .dHdr (at_ smallest 0 6)).seq = .dHdr
      ∧ (running .dHdr (at_ smallest 0 6)).npix < (running .dHdr (at_ smallest 0 6)).cursor + 2 := by decide

theorem witness_DSkipGoesToThePayload :
    ((running .dSkip smallest).seq = .dSkip ∧ 2 * ({ smallest with hdrcnt := 18 } : State).hdrcnt.toNat ≤ smallest.npix)
      ∧ smallest.npix < 2 * ({ smallest with hdrcnt := 19 } : State).hdrcnt.toNat := by decide

theorem witness_DPayUnpacksOnePayloadByte :
    ((running .dPay inPayload).seq = .dPay ∧ { inPayload with idx := 2 }.idx = inPayload.paycnt)
      ∧ (inPayload.idx ≠ inPayload.paycnt ∧ inPayload.cursor + 2 ≤ inPayload.npix)
      ∧ ((at_ inPayload 0 7).idx ≠ (at_ inPayload 0 7).paycnt
        ∧ (at_ inPayload 0 7).npix < (at_ inPayload 0 7).cursor + 2) := by decide

theorem witness_MagicIsRecognisedExactly :
    ((running .dMagic smallest).seq = .dMagic ∧ smallest.idx = 0 ∧ smallest.mismatch = false ∧ smallest.cursor = 0
        ∧ 36 ≤ smallest.npix)
      ∧ ((List.range 12).map fun k => unpackPair (2 * k) tagged) = Config.magic
      ∧ ((List.range 12).map fun k => unpackPair (2 * k) zeros) ≠ Config.magic := by decide +kernel

theorem witness_SessionsWriteOnlyTheirSide :
    (running .dHdr smallest).seq ∈ [SeqState.dDepth, .dSize, .dMagic, .dHdr, .dSkip, .dPay]
      ∧ (running .ePay smallest).seq ∈ [SeqState.ePlan, .eHdr, .ePay] := by decide

/-- Two pixels of zeros, with a turn to come. -/
def twoPixels (q : SeqState) (ts : List Turn) : State :=
  (running q (load 0 [0, 0, 0, 0, 0, 0, 0, 0] (grid 2 1))).withTurns ts

/-- The four ways to change CAR: PACK_BYTE 0x01, the first header byte (as the engine's turn and as a POLL's wait), the
first payload byte with no turn left, and the host's own write. -/
theorem witness_OnlyPackingAndTheHostChangeCar :
    (∃ t, step (twoPixels .idle [.regWrite 0x00 4 0x10000001]) = .next t ∧ t.car ≠ (twoPixels .idle []).car)
      ∧ (∃ t, step (twoPixels .eHdr [.engine]) = .next t ∧ t.car ≠ (twoPixels .eHdr []).car)
      ∧ (∃ t, step (twoPixels .eHdr [.poll]) = .next t ∧ t.car ≠ (twoPixels .eHdr []).car)
      ∧ (∃ t, step { twoPixels .ePay [] with paycnt := 1, pay := [(0, 0xFF)] } = .next t
          ∧ t.car ≠ (twoPixels .ePay []).car)
      ∧ ∃ t, step (twoPixels .idle [.memWrite .car 7 0x80]) = .next t ∧ t.car ≠ (twoPixels .idle []).car :=
  ⟨⟨_, rfl, by decide⟩, ⟨_, rfl, by decide⟩, ⟨_, rfl, by decide⟩, ⟨_, rfl, by decide⟩, ⟨_, rfl, by decide⟩⟩

/-- UNPACK_BYTE of a pair that carries 0x45. -/
theorem witness_OnlyUnpackByteAndResetChangeDataOut :
    ∃ t, step ((load 0 [1, 0, 1, 0, 0, 0, 1, 0] (grid 2 1)).withTurns [.regWrite 0x00 4 0x11000000]) = .next t
      ∧ t.dataOut ≠ (grid 2 1).dataOut := ⟨_, rfl, by decide⟩

theorem witness_GeometryChangesResetTheCursor :
    (∃ t, step ((at_ (grid 3 2) 2 1).withTurns [.regWrite 0x10 4 9]) = .next t ∧ t.width ≠ (grid 3 2).width)
      ∧ (∃ t, step ((at_ (grid 3 2) 2 1).withTurns [.regWrite 0x14 4 9]) = .next t ∧ t.height ≠ (grid 3 2).height)
      ∧ ∃ t, step ((at_ (grid 3 2) 2 1).withTurns [.reset]) = .next t
          ∧ t.width ≠ (grid 3 2).width ∧ t.height ≠ (grid 3 2).height :=
  ⟨⟨_, rfl, by decide⟩, ⟨_, rfl, by decide⟩, ⟨_, rfl, by decide⟩⟩

theorem witness_FirstErrorIsKept :
    ({ smallest with err := .capHeader } : State).err ≠ .noError ∧ ({ smallest with err := .capHeader } : State).busy = false
      ∧ ∃ t, step (({ smallest with err := .capHeader } : State).withTurns [.regWrite 0x00 4 0x20000000]) = .next t :=
  ⟨by decide, by decide, _, rfl⟩

theorem witness_ErrorMeansIdleIsKept :
    ((running .dDepth smallest).err ≠ .noError → (running .dDepth smallest).busy = false)
      ∧ (∃ t, step (running .dDepth smallest) = .next t ∧ t.err ≠ .noError) := ⟨by decide, _, rfl, by decide⟩

theorem witness_CursorInvariantIsKept :
    (at_ (grid 3 2) 0 2).CursorOk ∧ (grid 3 2).W ≠ 0 ∧ (grid 3 2).H ≠ 0 ∧ ∃ t, step (at_ (grid 3 2) 0 2) = .next t := by
  refine ⟨?_, by decide, by decide, _, rfl⟩
  simp only [State.CursorOk]; decide

/-- A running session that meets the invariant. -/
theorem inPayload_inv : inPayload.Inv := by
  refine ⟨fun sp => ?_, ?_, ?_, ?_⟩
  · cases sp
    · exact ⟨rfl, fun c h => by cases h⟩
    · exact ⟨rfl, fun c h => by cases h⟩
    · exact ⟨rfl, by simp only [Memory.inside]; decide⟩
  · simp only [State.CursorOk]; decide
  · simp only [State.StatusOk]; decide
  · simp only [State.SeqOk, inPayload, State.Planned]; decide

theorem witness_RunInvariantIsKept : inPayload.Inv ∧ ∃ t, step inPayload = .next t := ⟨inPayload_inv, _, rfl⟩

theorem witness_SessionsNeverRaiseBounds : inPayload.Inv ∧ inPayload.busy = true := ⟨inPayload_inv, by decide⟩

theorem witness_EncodeEmbedsTheStream :
    (running .ePlan smallest).seq = .ePlan
      ∧ 18 + smallest.fnlen.toNat ≤ smallest.width.toNat * smallest.height.toNat / 2
      ∧ tooSmall.width.toNat * tooSmall.height.toNat / 2 < 18 + tooSmall.fnlen.toNat := by decide

/-- A decode can start from any carrier, so also from the one that the encode side leaves. -/
theorem decode_from_any_carrier (m : Memory) :
    ∃ u : State, u.seq = .dDepth ∧ u.mismatch = false ∧ u.alphaPresent = true ∧ u.width = smallest.width
      ∧ u.height = smallest.height ∧ ∀ a, memByte .car u.car a = memByte .car m a :=
  ⟨{ smallest with seq := .dDepth, alphaPresent := true, car := m }, rfl, rfl, rfl, rfl, rfl, fun _ => rfl⟩

theorem witness_DecodeRecoversWhatEncodeEmbedded :
    ((running .ePlan smallest).seq = .ePlan
      ∧ 18 + smallest.fnlen.toNat ≤ smallest.width.toNat * smallest.height.toNat / 2)
      ∧ ∃ u : State, u.seq = .dDepth ∧ u.mismatch = false ∧ u.alphaPresent = true ∧ u.width = smallest.width
        ∧ u.height = smallest.height
        ∧ ∀ a, memByte .car u.car a = memByte .car (engineRun (2 + 18 + 0) (running .ePlan smallest)).car a :=
  ⟨by decide, decode_from_any_carrier _⟩

theorem witness_EverySessionEnds : inPayload.Inv ∧ inPayload.turns = [] := ⟨inPayload_inv, rfl⟩

theorem witness_RegisterReadsHaveNoEffect :
    (inPayload.withTurns [.regRead 0x04 4]).turns = .regRead Reg.status.offset 4 :: []
      ∧ (inPayload.withTurns [.regRead 0x3C 4]).turns = .regRead Reg.reserved.offset 4 :: [] := by decide

theorem witness_RegisterWritesFollowTheirRules :
    ((inPayload.withTurns [.regWrite 0x28 4 7]).turns = .regWrite Reg.filesize.offset 4 7 :: []
        ∧ Reg.filesize ∈ [Reg.width, .height, .cfg, .fnlen, .filesize] ∧ inPayload.busy = true)
      ∧ ((smallest.withTurns [.regWrite 0x10 4 7]).turns = .regWrite Reg.width.offset 4 7 :: [] ∧ smallest.busy = false)
      ∧ ((smallest.withTurns [.regWrite 0x3C 4 7]).turns = .regWrite Reg.reserved.offset 4 7 :: []
        ∧ Reg.reserved ∈ [Reg.status, .session, .idx, .curCol, .curRow, .maxbytes, .hdrcnt, .paycnt, .dataOut, .reserved]) := by
  decide

theorem witness_OtherRegisterAccessesAreRefused :
    ((2 ≠ 4 ∨ 0 % 4 ≠ 0 ∨ 0x40 ≤ 0) ∧ (4 ≠ 4 ∨ 3 % 4 ≠ 0 ∨ 0x40 ≤ 3) ∧ (4 ≠ 4 ∨ 0x40 % 4 ≠ 0 ∨ 0x40 ≤ 0x40))
      ∧ (smallest.withTurns [.regRead 0x40 4]).turns = .regRead 0x40 4 :: []
      ∧ (smallest.withTurns [.regWrite 3 4 1]).turns = .regWrite 3 4 1 :: [] := by decide

theorem witness_HostByteAccesses :
    ((inPayload.withTurns [.memRead .car 0]).turns = .memRead .car 0 :: [] ∧ inPayload.busy = true)
      ∧ ((smallest.withTurns [.memRead .name 65536]).turns = .memRead .name 65536 :: [] ∧ smallest.busy = false
        ∧ Config.spaceSize .name ≤ 65536)
      ∧ ((smallest.withTurns [.memWrite .pay 0xFFFFFFFF 1]).turns = .memWrite .pay 0xFFFFFFFF 1 :: []
        ∧ 0xFFFFFFFF < Config.spaceSize .pay) := by decide

theorem witness_ResetClearsRegistersAndKeepsMemory :
    (inPayload.withTurns [.reset]).turns = .reset :: [] := by decide

end Sys2Proof.Tests
end

