-- ==== Sys2Proof/Proofs/Planner.lean ====
section
/-!
PROOFS. The capacity planner: what PLAN_ENCODE answers in a state that is ready, and the exact numbers its registers
hold afterwards.
-/
namespace Sys2Proof.Machine

theorem exec_planEncode_ready {s : State} (hr : s.ready) :
    exec .planEncode s = .next (performPlanEncode s.clearDone) := by
  rw [exec_eq_accept .planEncode s nofun nofun, State.accept_ready hr]
  rfl

/-! ### A number that fits its register is stored as it is (R9) -/

theorem State.writePlan_maxbytes_toNat (s : State) (r : EncodePlan) (h : r.maxB < 2 ^ 32) :
    (s.writePlan r).maxbytes.toNat = r.maxB := by
  rw [State.writePlan_maxbytes, BitVec.toNat_ofNat, Nat.mod_eq_of_lt h]

theorem State.writePlan_hdrcnt_toNat (s : State) (r : EncodePlan) (h : r.hdr < 2 ^ 17) :
    (s.writePlan r).hdrcnt.toNat = r.hdr := by
  rw [State.writePlan_hdrcnt, BitVec.toNat_ofNat, Nat.mod_eq_of_lt h]

theorem State.writePlan_paycnt_toNat (s : State) (r : EncodePlan) (h : r.pay < 2 ^ 32) :
    (s.writePlan r).paycnt.toNat = r.pay := by
  rw [State.writePlan_paycnt, BitVec.toNat_ofNat, Nat.mod_eq_of_lt h]

/-! ### The registers that PLAN_ENCODE leaves

MAXBYTES and HDRCNT do not depend on whether the plan succeeds, since the four writes survive a raise (R110). -/

theorem performPlanEncode_maxbytes_toNat (s : State) :
    (performPlanEncode s).maxbytes.toNat = s.npix / 2 := by
  have hMax : s.npix / 2 < 2 ^ 32 := by have := s.plan_fits_registers.1; omega
  rcases Nat.lt_or_ge (s.npix / 2) (18 + s.fnlen.toNat) with h | h
  · rw [performPlanEncode_fails h]
    exact s.writePlan_maxbytes_toNat _ hMax
  · rw [performPlanEncode_fits h]
    exact s.writePlan_maxbytes_toNat _ hMax

theorem performPlanEncode_hdrcnt_toNat (s : State) :
    (performPlanEncode s).hdrcnt.toNat = 18 + s.fnlen.toNat := by
  have hHdr := s.plan_fits_registers.2
  rcases Nat.lt_or_ge (s.npix / 2) (18 + s.fnlen.toNat) with h | h
  · rw [performPlanEncode_fails h]
    exact s.writePlan_hdrcnt_toNat _ hHdr
  · rw [performPlanEncode_fits h]
    exact s.writePlan_hdrcnt_toNat _ hHdr

/-- The payload count is a minimum with FILESIZE, which has 32 bits itself. -/
theorem performPlanEncode_paycnt_toNat {s : State} (h : 18 + s.fnlen.toNat ≤ s.npix / 2) :
    (performPlanEncode s).paycnt.toNat = min s.filesize.toNat (s.npix / 2 - (18 + s.fnlen.toNat)) := by
  rw [performPlanEncode_fits h]
  exact s.writePlan_paycnt_toNat _ (Nat.lt_of_le_of_lt (Nat.min_le_left _ _) s.filesize.isLt)

/-- PLAN_ENCODE raises nothing but CAP_HEADER, and exactly when the header does not fit; PAYCNT is 0 then (R109). -/
theorem performPlanEncode_err_cases {s : State} (he : s.err = .noError) :
    (18 + s.fnlen.toNat ≤ s.npix / 2 ∧ (performPlanEncode s).err = .noError)
    ∨ (s.npix / 2 < 18 + s.fnlen.toNat ∧ (performPlanEncode s).err = .capHeader
      ∧ (performPlanEncode s).paycnt = 0) := by
  rcases Nat.lt_or_ge (s.npix / 2) (18 + s.fnlen.toNat) with h | h
  · rw [performPlanEncode_fails h]
    exact .inr ⟨h, rfl, rfl⟩
  · rw [performPlanEncode_fits h]
    exact .inl ⟨h, he⟩

/-- Settles O25: MAXBYTES and HDRCNT are exact whatever the outcome, and ERR tells whether the header fits. -/
theorem planRegistersAreExact : Obligations.PlanRegistersAreExact := by
  intro s hr
  have hMaxbytes : (performPlanEncode s.clearDone).maxbytes.toNat = s.npix / 2 :=
    performPlanEncode_maxbytes_toNat s.clearDone
  have hHdrcnt : (performPlanEncode s.clearDone).hdrcnt.toNat = 18 + s.fnlen.toNat :=
    performPlanEncode_hdrcnt_toNat s.clearDone
  have hMax := s.plan_fits_registers.1
  have hName := s.fnlen.isLt
  refine ⟨_, exec_planEncode_ready hr, hMaxbytes, by omega, hHdrcnt, by omega, ?_⟩
  rw [hMaxbytes, hHdrcnt]
  obtain ⟨-, he, -, -⟩ := State.ready_of hr
  rcases performPlanEncode_err_cases (s := s.clearDone) he with ⟨hFits, hErr⟩ | ⟨hFails, hErr, hPay⟩
  · have hPaycnt : (performPlanEncode s.clearDone).paycnt.toNat
        = min s.filesize.toNat (s.npix / 2 - (18 + s.fnlen.toNat)) := performPlanEncode_paycnt_toNat hFits
    rw [State.clearDone_fnlen, State.clearDone_npix] at hFits
    exact ⟨fun _ => ⟨hPaycnt, by omega⟩, fun hn => absurd hErr hn⟩
  · exact ⟨fun h0 => absurd (hErr.symm.trans h0) nofun, fun _ => ⟨hErr, hFails, hPay⟩⟩

end Sys2Proof.Machine
end

/-!
PROOFS. The state (10_state.md): commands as the register window delivers them, the invariants that every step keeps,
which steps change a register, and the words of the register window.
-/
namespace Sys2Proof

/-! ### The command word -/

/-- A word that decodes is the encoding of its command (R73). -/
theorem word_eq_encode {w : Word} {i : Instr} (h : decode w = .ok i) : w = encode i := by
  obtain ⟨hOpc, hOperand, hwf⟩ := decode_ok h
  obtain ⟨hOpc', hOperand'⟩ := encode_fields i hwf
  exact (word_ext w (encode i)).2 ⟨hOpc.trans hOpc'.symm, hOperand.trans hOperand'.symm⟩

/-- With the fields of an encoding at hand, decoding picks the opcode's row and reads the operand back. -/
theorem decode_encode {i : Instr} (h : i.wellFormed = true) : decode (encode i) = .ok i := by
  obtain ⟨hOpc, hOperand⟩ := encode_fields i h
  cases i with
  | packByte c =>
    have hUpper : upper16Field (encode (.packByte c)) = 0 := by
      unfold upper16Field
      rw [hOperand]
      exact Nat.div_eq_of_lt c.isLt
    have hByte : byteField (encode (.packByte c)) = c :=
      BitVec.eq_of_toNat_eq ((byteField_of_upper16 hUpper).trans hOperand)
    simp [decode, hOpc, Instr.opc, formatF8, hUpper, hByte]
  | curAdvanceBy n => simp [decode, hOpc, Instr.opc, formatF24, hOperand, Instr.operand]
  | _ => simp [decode, hOpc, Instr.opc, formatF0, hOperand, Instr.operand]

end Sys2Proof

namespace Sys2Proof.Machine

/-! ### Invariants of a step -/

/-- What has to be shown of a predicate for every step to keep it: one field for each thing a turn can do. -/
structure StepInvariant (P : State → Prop) : Prop where
  withTurns : ∀ {s : State} (ts : List Turn), P s → P (s.withTurns ts)
  give : ∀ {s : State} (v : Word), P s → P (s.give v)
  markDropped : ∀ {s : State}, P s → P s.markDropped
  engine : ∀ {s t : State}, EngineMove s t → P s → P t
  command : ∀ {s t : State} {i : Instr}, CommandMove s i t → P s → P t
  illegal : ∀ {s : State}, s.busy = false → s.err = .noError → P s → P (s.clearDone.raise .illegal)
  written : ∀ {s : State} (r : Reg) (d : Word), s.busy = false → P s → P (r.effect d s)
  memWrite : ∀ {s : State} (sp : Space) (a : Nat) (v : Byte), a < Config.spaceSize sp → P s →
    P (s.memWrite sp a v)
  reset : ∀ {s : State}, P s → P s.resetBlock

theorem StepInvariant.acceptIllegal {P : State → Prop} (h : StepInvariant P) {s : State} (hs : P s) :
    P s.acceptIllegal := by
  rcases acceptIllegal_cases s with ⟨-, e⟩ | ⟨hb, he, e⟩
  · rw [e]; exact h.markDropped hs
  · rw [e]; exact h.illegal hb he hs

/-- A predicate with the fields above is kept by every step. -/
theorem StepInvariant.step {P : State → Prop} (h : StepInvariant P) {s t : State} (hs : P s)
    (ht : step s = .next t) : P t := by
  have engine : ∀ {u : State}, P u → P (engineStep u) := fun hu => h.engine (engineStep_move _) hu
  have turn : ∀ ts : List Turn, P (s.withTurns ts) := fun ts => h.withTurns ts hs
  cases step_move ht with
  | quiet => exact engine hs
  | engine rest => exact engine (turn rest)
  | pollBusy rest => exact h.withTurns _ (engine (turn rest))
  | pollDone rest => exact h.give _ (turn rest)
  | regRead r rest => exact h.give _ (turn rest)
  | command i w rest _ _ _ he => exact h.command (command_move he) (turn rest)
  | illegal w e rest => exact h.acceptIllegal (turn rest)
  | regIgnored r d rest => exact turn rest
  | regDropped r d rest => exact h.markDropped (turn rest)
  | regWritten r d rest _ _ hb => exact h.written r d hb (turn rest)
  | memRead sp a rest => exact h.give _ (turn rest)
  | memWrite sp a v rest _ _ ha => exact h.memWrite sp a v ha (turn rest)
  | reset rest => exact h.reset (turn rest)

/-! ### The cursor invariant (R32) -/

/-- Passing a pair of the grid leaves the cursor on a position of R32. -/
theorem State.CursorOk_passPair {s : State} {p : Nat} (h : p + 2 ≤ s.npix) : (s.passPair p).CursorOk :=
  s.CursorOk_setCursor_pix (p + 2) h

theorem EngineMove.cursorOk {s t : State} (m : EngineMove s t) (h : s.CursorOk) : t.CursorOk := by
  cases m with
  | planFits | sizeFits => exact (State.CursorOk_origin s).of_eq rfl rfl rfl rfl
  | skip _ hn => exact (s.CursorOk_setCursor_pix _ hn).of_eq rfl rfl rfl rfl
  | hdrMore _ hp | hdrLast _ hp | payMore _ hp | magicMore _ hp | magicBad _ hp | magicGood _ hp
  | fnlenLow _ hp | fnlenHighFits _ hp | fnlenHighOverruns _ hp | nameByte _ hp | paylenMore _ _ hp
  | paylenFits _ _ hp | paylenOverruns _ _ hp | takePayByte _ hp =>
    exact (State.CursorOk_passPair hp).of_eq rfl rfl rfl rfl
  | rest | planFails | bounds | sessionDone | depthOk | depthBad | sizeFails | skipBounds =>
    exact h.of_eq rfl rfl rfl rfl

/-- A cursor above the last row has a pixel left to step to. -/
theorem State.CursorOk.cursor_lt {s : State} (h : s.CursorOk) (hw : s.W ≠ 0) (hh : s.H ≠ 0)
    (hr : s.curRow.toNat < s.H) : s.cursor + 1 ≤ s.npix := by
  have hne : s.cursor ≠ s.npix := fun e => absurd ((h.row_ge_iff hw hh).2 e) (Nat.not_le.2 hr)
  exact Nat.lt_of_le_of_ne h.cursor_le hne

theorem State.CursorOk.advance {s : State} (h : s.CursorOk) (hw : s.W ≠ 0) (hh : s.H ≠ 0)
    (hr : s.curRow.toNat < s.H) : s.advance.CursorOk := by
  rw [State.advance_eq h hw hh]
  exact s.CursorOk_setCursor_pix _ (h.cursor_lt hw hh hr)

theorem State.CursorOk.advanceTimes {s : State} (h : s.CursorOk) (hw : s.W ≠ 0) (hh : s.H ≠ 0) {n : Nat}
    (hn : s.cursor + n ≤ s.npix) : (State.advanceTimes n s).CursorOk := by
  rw [State.advanceTimes_eq n h hw hh hn]
  exact s.CursorOk_setCursor_pix _ hn

theorem CommandMove.cursorOk {s t : State} {i : Instr} (m : CommandMove s i t) (h : s.CursorOk) : t.CursorOk := by
  have hDone : s.clearDone.CursorOk := h.of_eq rfl rfl rfl rfl
  cases m with
  | curReset => exact State.CursorOk_origin _
  | curAdvance hr hrow =>
    obtain ⟨-, -, hw, hh⟩ := State.ready_of hr
    exact hDone.advance hw hh hrow
  | curAdvanceBy n hr hn =>
    obtain ⟨-, -, hw, hh⟩ := State.ready_of hr
    exact hDone.advanceTimes hw hh hn
  | packByte _ _ hp | unpackByte _ hp => exact (State.CursorOk_passPair hp).of_eq rfl rfl rfl rfl
  | nop | clrStatus | dropped | config | bounds | planEncode | planEncodeFails | planDecode | planDecodeFails
  | encode | decode => exact h.of_eq rfl rfl rfl rfl

/-- A write to WIDTH or HEIGHT puts the cursor at the origin, and the other registers hold no part of R32. -/
theorem State.CursorOk.effect {s : State} (h : s.CursorOk) (r : Reg) (d : Word) : (r.effect d s).CursorOk := by
  cases r with
  | width => exact State.CursorOk_origin _
  | height => exact State.CursorOk_origin _
  | _ => exact h.of_eq rfl rfl rfl rfl

theorem State.CursorOk_reset : State.reset.CursorOk := State.CursorOk_origin State.reset

theorem cursorOk_stepInvariant : StepInvariant State.CursorOk where
  withTurns _ h := h.of_eq rfl rfl rfl rfl
  give _ h := h.of_eq rfl rfl rfl rfl
  markDropped h := h.of_eq rfl rfl rfl rfl
  engine m h := m.cursorOk h
  command m h := m.cursorOk h
  illegal _ _ h := h.of_eq rfl rfl rfl rfl
  written r d _ h := h.effect r d
  memWrite sp _ _ _ h := by cases sp <;> exact h.of_eq rfl rfl rfl rfl
  reset _ := State.CursorOk_reset.of_eq rfl rfl rfl rfl

/-- With a geometry that is not zero, R32 is its three bounds. -/
theorem State.CursorOk.bounds {s : State} (h : s.CursorOk) (hw : s.W ≠ 0) (hh : s.H ≠ 0) :
    s.curCol.toNat < s.W ∧ s.curRow.toNat ≤ s.H ∧ (s.curRow.toNat = s.H → s.curCol = 0) := by
  unfold State.CursorOk at h
  rwa [if_neg (not_or.2 ⟨hw, hh⟩)] at h

/-- Settles O47: R32 is a step invariant, and the linear form is `cursor_le`. -/
theorem cursorInvariantIsKept : Obligations.CursorInvariantIsKept := by
  refine ⟨State.CursorOk_reset, fun s t hs => cursorOk_stepInvariant.step hs, fun s hs hw hh => ?_⟩
  obtain ⟨hcol, hrow, hlast⟩ := hs.bounds hw hh
  exact ⟨hcol, hrow, hlast, hs.cursor_le⟩

/-! ### What the engine leaves alone -/

theorem EngineMove.keepsHostRegisters {s t : State} (m : EngineMove s t) :
    t.width = s.width ∧ t.height = s.height ∧ t.alphaPresent = s.alphaPresent ∧ t.filesize = s.filesize
    ∧ t.dataOut = s.dataOut ∧ t.dropped = s.dropped ∧ t.turns = s.turns ∧ t.got = s.got := by
  cases m <;> exact ⟨rfl, rfl, rfl, rfl, rfl, rfl, rfl, rfl⟩

/-- Settles O40: none of the engine's outcomes touches these fields. -/
theorem engineKeepsHostRegisters : Obligations.EngineKeepsHostRegisters := fun s =>
  (engineStep_move s).keepsHostRegisters

/-! ### STATUS and SESSION under the engine -/

theorem State.busy_of_seq {s : State} {q : SeqState} (h : s.seq = q) : s.busy = q.isBusy := congrArg _ h

/-- What a step of the engine can do to STATUS and SESSION: nothing, abort with an error, end the session, or go on
with it. A mismatch is seen by the magic compare, or was there before a step that is not the compare's. -/
inductive EngineStatus (s t : State) : Prop
  | rests (e : t = s)
  | aborts (hb : s.busy = true) (hq : t.seq = .abort) (he : t.err ≠ .noError) (hio : t.err ≠ .io)
      (hd : t.done = s.done)
  | ends (hb : s.busy = true) (hq : t.seq = .done) (he : t.err = s.err)
      (hm : t.mismatch = true → s.mismatch = true ∧ s.seq ≠ .dMagic)
  | goesOn (hb : s.busy = true) (hq : t.busy = true) (he : t.err = s.err) (hd : t.done = s.done)
      (hm : t.mismatch = true → t.seq = .dMagic ∨ s.mismatch = true ∧ s.seq ≠ .dMagic)

theorem State.busy_of_needsPair {s : State} (h : s.needsPair) : s.busy = true := by
  rcases h with hq | ⟨hq, -⟩ | hq | hq | ⟨hq, -⟩ <;> exact State.busy_of_seq hq

theorem EngineMove.status {s t : State} (m : EngineMove s t) : EngineStatus s t := by
  have other : ∀ {q : SeqState}, s.seq = q → q ≠ .dMagic → s.mismatch = true →
      s.mismatch = true ∧ s.seq ≠ .dMagic := fun hq hne hm => ⟨hm, hq ▸ hne⟩
  cases m with
  | rest => exact .rests rfl
  | planFails hq | depthBad hq | sizeFails hq | magicBad hq | fnlenHighOverruns hq | paylenOverruns _ hq
  | skipBounds hq => exact .aborts (State.busy_of_seq hq) rfl nofun nofun rfl
  | bounds hn => exact .aborts (State.busy_of_needsPair hn) rfl nofun nofun rfl
  | sessionDone hq =>
    rcases hq with hq | hq <;> exact .ends (State.busy_of_seq hq) rfl rfl (other hq nofun)
  | planFits hq | hdrLast hq | depthOk hq | paylenFits _ hq | skip hq =>
    exact .goesOn (State.busy_of_seq hq) rfl rfl rfl fun hm => .inr (other hq nofun hm)
  | hdrMore hq | payMore hq | fnlenLow hq | fnlenHighFits hq | nameByte hq | paylenMore _ hq
  | takePayByte hq =>
    exact .goesOn (State.busy_of_seq hq) (State.busy_of_seq hq) rfl rfl fun hm => .inr (other hq nofun hm)
  | sizeFits hq => exact .goesOn (State.busy_of_seq hq) rfl rfl rfl fun _ => .inl rfl
  | magicMore hq => exact .goesOn (State.busy_of_seq hq) (State.busy_of_seq hq) rfl rfl fun _ => .inl hq
  | magicGood hq _ _ hm => exact .goesOn (State.busy_of_seq hq) rfl rfl rfl fun h => absurd (hm.symm.trans h) nofun

/-! ### An error means the engine is idle (R42) -/

/-- ERR ≠ 0 implies BUSY = 0. -/
def State.ErrIdle (s : State) : Prop := s.err ≠ .noError → s.busy = false

/-- The same, read the other way: a running session has met no error. -/
theorem State.ErrIdle.err_of_busy {s : State} (h : s.ErrIdle) (hb : s.busy = true) : s.err = .noError := by
  by_contra he
  exact absurd (hb.symm.trans (h he)) nofun

theorem EngineMove.errIdle {s t : State} (m : EngineMove s t) (h : s.ErrIdle) : t.ErrIdle := by
  cases m.status with
  | rests e => exact e ▸ h
  | aborts _ hq => exact fun _ => State.busy_of_seq hq
  | ends _ hq => exact fun _ => State.busy_of_seq hq
  | goesOn hb _ he => exact fun hne => absurd (he.trans (h.err_of_busy hb)) hne

/-- Only ENCODE and DECODE start a session, and only without an error. -/
theorem CommandMove.errIdle {s t : State} {i : Instr} (m : CommandMove s i t) (h : s.ErrIdle) : t.ErrIdle := by
  cases m with
  | nop | dropped => exact h
  | clrStatus => exact fun _ => rfl
  | config _ _ _ hz => exact fun _ => hz.1
  | encode hr | decode hr =>
    obtain ⟨-, hNone, -⟩ := hr
    exact fun hne => absurd hNone hne
  | curAdvanceBy n hr => exact fun _ => (State.advanceTimes_busy n _).trans hr.1
  | bounds _ hr | curReset hr | curAdvance hr | packByte _ hr | unpackByte hr | planEncode hr | planEncodeFails hr
  | planDecode hr | planDecodeFails hr => exact fun _ => hr.1

theorem Reg.effect_status (r : Reg) (d : Word) (s : State) :
    (r.effect d s).err = s.err ∧ (r.effect d s).done = s.done ∧ (r.effect d s).seq = s.seq
    ∧ (r.effect d s).mismatch = s.mismatch := by
  cases r <;> exact ⟨rfl, rfl, rfl, rfl⟩

theorem Reg.effect_busy (r : Reg) (d : Word) (s : State) : (r.effect d s).busy = s.busy := by
  cases r <;> rfl

theorem errIdle_stepInvariant : StepInvariant State.ErrIdle where
  withTurns _ h := h
  give _ h := h
  markDropped h := h
  engine m h := m.errIdle h
  command m h := m.errIdle h
  illegal hb _ _ := fun _ => hb
  written r d hb _ := fun _ => (r.effect_busy d _).trans hb
  memWrite sp _ _ _ h := by cases sp <;> exact h
  reset _ := fun _ => rfl

/-- Settles O46: it is a step invariant. -/
theorem errorMeansIdleIsKept : Obligations.ErrorMeansIdleIsKept := fun _ _ hs =>
  errIdle_stepInvariant.step hs

/-! ### STATUS and SESSION in agreement -/

theorem State.StatusOk.of_eq {s t : State} (h : s.StatusOk) (he : t.err = s.err) (hd : t.done = s.done)
    (hq : t.seq = s.seq) (hm : t.mismatch = s.mismatch) (hw : t.width = s.width) (hh : t.height = s.height) :
    t.StatusOk := by
  unfold State.StatusOk State.busy at *
  rwa [he, hd, hq, hm, hw, hh]

/-- While the engine is idle `StatusOk` says nothing of the geometry. -/
theorem State.StatusOk.of_idle {s t : State} (h : s.StatusOk) (hb : s.busy = false) (he : t.err = s.err)
    (hd : t.done = s.done) (hq : t.seq = s.seq) (hm : t.mismatch = s.mismatch) : t.StatusOk := by
  unfold State.StatusOk State.busy at *
  obtain ⟨hErr, hIo, hDone, hAbort, hMismatch, -⟩ := h
  rw [he, hd, hq, hm]
  exact ⟨hErr, hIo, hDone, hAbort, hMismatch, fun h => absurd (hb.symm.trans h) nofun⟩

/-- An idle block without error that clears DONE, keeps STATE and MISMATCH, and raises anything but IO. -/
theorem State.StatusOk.afterCommand {s t : State} (h : s.StatusOk) (hb : s.busy = false) (he : s.err = .noError)
    (hio : t.err ≠ .io) (hd : t.done = false) (hq : t.seq = s.seq) (hm : t.mismatch = s.mismatch) : t.StatusOk := by
  obtain ⟨-, -, -, hAbort, hMismatch, -⟩ := h
  have hIdle : t.busy = false := (State.busy_of_seq hq).trans hb
  refine ⟨fun _ => hIdle, hio, fun h => ?_, fun ha => ?_, fun h => ?_, fun h => ?_⟩
  · exact absurd (hd.symm.trans h) nofun
  · exact absurd he (hAbort (hq ▸ ha))
  · exact hq ▸ hMismatch (hm ▸ h)
  · exact absurd (hIdle.symm.trans h) nofun

/-- A running session shows neither DONE nor an error. -/
theorem State.StatusOk.of_busy {s : State} (h : s.StatusOk) (hb : s.busy = true) :
    s.err = .noError ∧ s.done = false ∧ s.width ≠ 0 ∧ s.height ≠ 0 := by
  obtain ⟨hErr, -, hDone, -, -, hGeometry⟩ := h
  refine ⟨State.ErrIdle.err_of_busy hErr hb, ?_, hGeometry hb⟩
  by_contra hd
  have hq := (hDone (by simpa using hd)).1
  exact absurd (hb.symm.trans (State.busy_of_seq hq)) nofun

/-- While the session runs, a mismatch is seen by the magic compare only (R26). -/
theorem State.StatusOk.no_mismatch {s : State} (h : s.StatusOk) (hb : s.busy = true) :
    ¬ (s.mismatch = true ∧ s.seq ≠ .dMagic) := by
  obtain ⟨-, -, -, -, hMismatch, -⟩ := h
  rintro ⟨hm, hne⟩
  have hq := (hMismatch hm).resolve_left hne
  exact absurd (hb.symm.trans (State.busy_of_seq hq)) nofun

theorem EngineMove.statusOk {s t : State} (m : EngineMove s t) (h : s.StatusOk) : t.StatusOk := by
  obtain ⟨hWidth, hHeight, -⟩ := m.keepsHostRegisters
  cases m.status with
  | rests e => exact e ▸ h
  | aborts hb hq he hio hd =>
    obtain ⟨-, hNotDone, -⟩ := h.of_busy hb
    have hIdle : t.busy = false := State.busy_of_seq hq
    refine ⟨fun _ => hIdle, hio, fun h => ?_, fun _ => he, fun _ => .inr hq, fun h => ?_⟩
    · exact absurd ((hd.trans hNotDone).symm.trans h) nofun
    · exact absurd (hIdle.symm.trans h) nofun
  | ends hb hq he hm =>
    obtain ⟨hNoError, -⟩ := h.of_busy hb
    have hErr : t.err = .noError := he.trans hNoError
    refine ⟨fun hne => absurd hErr hne, by simp [hErr], fun _ => ⟨hq, hErr⟩, fun h => ?_, fun h' => ?_,
      fun h => ?_⟩
    · exact absurd (hq.symm.trans h) nofun
    · exact absurd (hm h') (h.no_mismatch hb)
    · exact absurd ((State.busy_of_seq hq).symm.trans h) nofun
  | goesOn hb hq he hd hm =>
    obtain ⟨hNoError, hNotDone, hGeometry⟩ := h.of_busy hb
    have hErr : t.err = .noError := he.trans hNoError
    refine ⟨fun hne => absurd hErr hne, by simp [hErr], fun h => ?_, fun h => ?_, fun h' => ?_, fun _ => ?_⟩
    · exact absurd ((hd.trans hNotDone).symm.trans h) nofun
    · exact absurd (hq.symm.trans (State.busy_of_seq h)) nofun
    · exact .inl ((hm h').resolve_right (h.no_mismatch hb))
    · rwa [hWidth, hHeight]

/-- A block whose MISMATCH is clear, that has neither DONE nor an error, and whose session has a geometry. -/
theorem State.StatusOk.of_clear {t : State} (he : t.err = .noError) (hd : t.done = false) (hm : t.mismatch = false)
    (hq : t.seq ≠ .abort) (hg : t.busy = true → t.width ≠ 0 ∧ t.height ≠ 0) : t.StatusOk :=
  ⟨fun hne => absurd he hne, by simp [he], fun h => absurd (hd.symm.trans h) nofun, fun h => absurd h hq,
    fun h => absurd (hm.symm.trans h) nofun, hg⟩

theorem CommandMove.statusOk {s t : State} {i : Instr} (m : CommandMove s i t) (h : s.StatusOk) : t.StatusOk := by
  cases m with
  | nop => exact h
  | dropped => exact h.of_eq rfl rfl rfl rfl rfl rfl
  | clrStatus => exact .of_clear rfl rfl rfl nofun nofun
  | encode hr | decode hr =>
    obtain ⟨-, he, hGeometry⟩ := hr
    exact .of_clear he rfl rfl nofun fun _ => hGeometry
  | config _ _ _ hIdle | bounds _ hIdle | planEncodeFails hIdle | planDecodeFails hIdle =>
    obtain ⟨hb, he, -⟩ := hIdle
    exact h.afterCommand hb he nofun rfl rfl rfl
  | curReset hr | curAdvance hr | curAdvanceBy _ hr | packByte _ hr | unpackByte hr | planEncode hr | planDecode hr =>
    obtain ⟨hb, he, -⟩ := hr
    exact h.afterCommand hb he (by simp [he]) (by simp) (by simp) (by simp)

theorem statusOk_stepInvariant : StepInvariant State.StatusOk where
  withTurns _ h := h.of_eq rfl rfl rfl rfl rfl rfl
  give _ h := h.of_eq rfl rfl rfl rfl rfl rfl
  markDropped h := h.of_eq rfl rfl rfl rfl rfl rfl
  engine m h := m.statusOk h
  command m h := m.statusOk h
  illegal hb he h := h.afterCommand hb he nofun rfl rfl rfl
  written r d hb h := by
    obtain ⟨he, hd, hq, hm⟩ := r.effect_status d _
    exact h.of_idle hb he hd hq hm
  memWrite sp _ _ _ h := by cases sp <;> exact h.of_eq rfl rfl rfl rfl rfl rfl
  reset _ := .of_clear rfl rfl rfl nofun nofun

/-! ### The memories -/

theorem State.MemOk.of_eq {s t : State} (h : s.MemOk) (hc : t.car = s.car) (hn : t.name = s.name)
    (hp : t.pay = s.pay) : t.MemOk := by
  intro sp
  have hm : t.memory sp = s.memory sp := by cases sp <;> assumption
  exact hm ▸ h sp

theorem State.MemOk.memWrite {s : State} (h : s.MemOk) {sp : Space} {a : Nat} (v : Byte)
    (ha : a < Config.spaceSize sp) : (s.memWrite sp a v).MemOk := by
  intro sp'
  rw [State.memory_memWrite]
  split
  · next e =>
    subst e
    obtain ⟨hwf, hinside⟩ := h sp'
    exact ⟨Memory.wf_put _ a v hwf, Memory.inside_put _ a v _ hinside ha⟩
  · exact h sp'

/-- A pair inside the geometry lies inside CAR, so packing it keeps the memories. -/
theorem State.MemOk.packed {s t : State} (h : s.MemOk) {p : Nat} {c : Byte} (hp : p + 2 ≤ s.npix)
    (hcar : t.car = packPair p c s.car) (hname : t.name = s.name) (hpay : t.pay = s.pay) : t.MemOk := by
  have hsize : 4 * p + 8 ≤ Config.spaceSize .car := by
    have := s.npix_le
    show 4 * p + 8 ≤ 4 * Config.npixMax
    omega
  intro sp
  cases sp with
  | car =>
    obtain ⟨hwf, hinside⟩ := h .car
    have hcar' : t.memory .car = packPair p c (s.memory .car) := hcar
    rw [hcar']
    exact ⟨packPair_wf p c _ hwf, packPair_inside p c _ _ hinside hsize⟩
  | name => exact (show t.memory .name = s.memory .name from hname) ▸ h .name
  | pay => exact (show t.memory .pay = s.memory .pay from hpay) ▸ h .pay

/-- The engine writes CAR inside the geometry, NAME below FNLEN and PAY at IDX. -/
theorem EngineMove.memOk {s t : State} (m : EngineMove s t) (h : s.MemOk) : t.MemOk := by
  have hMoved : (s.passPair s.cursor).MemOk := h.of_eq rfl rfl rfl
  cases m with
  | hdrMore _ hp | hdrLast _ hp | payMore _ hp => exact h.packed hp rfl rfl rfl
  | nameByte _ _ hi hf =>
    have ha : s.idx.toNat - 2 < Config.spaceSize .name := by
      have := s.fnlen.isLt
      show s.idx.toNat - 2 < 2 ^ 16
      omega
    exact (hMoved.memWrite _ ha).of_eq rfl rfl rfl
  | takePayByte => exact (hMoved.memWrite (sp := .pay) _ s.idx.isLt).of_eq rfl rfl rfl
  | rest | planFits | planFails | bounds | sessionDone | depthOk | depthBad | sizeFits | sizeFails | magicMore
  | magicBad | magicGood | fnlenLow | fnlenHighFits | fnlenHighOverruns | paylenMore | paylenFits | paylenOverruns
  | skip | skipBounds => exact h.of_eq rfl rfl rfl

theorem CommandMove.memOk {s t : State} {i : Instr} (m : CommandMove s i t) (h : s.MemOk) : t.MemOk := by
  cases m with
  | packByte c _ hp => exact h.packed hp rfl rfl rfl
  | curAdvanceBy n =>
    exact h.of_eq (State.advanceTimes_car n _) (State.advanceTimes_name n _) (State.advanceTimes_pay n _)
  | nop | clrStatus | dropped | config | bounds | curReset | curAdvance | unpackByte | planEncode | planEncodeFails
  | planDecode | planDecodeFails | encode | decode => exact h.of_eq rfl rfl rfl

theorem memOk_stepInvariant : StepInvariant State.MemOk where
  withTurns _ h := h.of_eq rfl rfl rfl
  give _ h := h.of_eq rfl rfl rfl
  markDropped h := h.of_eq rfl rfl rfl
  engine m h := m.memOk h
  command m h := m.memOk h
  illegal _ _ h := h.of_eq rfl rfl rfl
  written r d _ h := by cases r <;> exact h.of_eq rfl rfl rfl
  memWrite _ _ v ha h := h.memWrite v ha
  reset h := h.of_eq rfl rfl rfl

/-! ### Where the sequencer stands

`SeqOk` speaks of the running states only; each has its clause here by name. -/

theorem State.SeqOk.of_idle {s : State} (hb : s.busy = false) : s.SeqOk := by
  unfold State.SeqOk
  cases hq : s.seq with
  | idle | done | abort => trivial
  | _ => exact absurd ((State.busy_of_seq hq).symm.trans hb) nofun

theorem State.seqOk_ePlan {s : State} (hq : s.seq = .ePlan) : s.SeqOk := by
  unfold State.SeqOk; rw [hq]; trivial

theorem State.seqOk_dDepth {s : State} (hq : s.seq = .dDepth) : s.SeqOk := by
  unfold State.SeqOk; rw [hq]; trivial

theorem State.seqOk_dSize {s : State} (hq : s.seq = .dSize) : s.SeqOk := by
  unfold State.SeqOk; rw [hq]; trivial

theorem State.seqOk_eHdr {s : State} (hq : s.seq = .eHdr) :
    s.SeqOk ↔ s.Planned ∧ s.idx.toNat < s.hdrcnt.toNat ∧ s.cursor = 2 * s.idx.toNat := by
  unfold State.SeqOk; rw [hq]

theorem State.seqOk_payload {s : State} (hq : s.seq = .ePay ∨ s.seq = .dPay) :
    s.SeqOk ↔ s.Planned ∧ s.idx.toNat ≤ s.paycnt.toNat ∧ s.cursor = 2 * (s.hdrcnt.toNat + s.idx.toNat) := by
  unfold State.SeqOk; rcases hq with hq | hq <;> rw [hq]

theorem State.seqOk_dMagic {s : State} (hq : s.seq = .dMagic) :
    s.SeqOk ↔ s.maxbytes.toNat = s.npix / 2 ∧ 18 ≤ s.maxbytes.toNat ∧ s.idx.toNat < 12
      ∧ s.cursor = 2 * s.idx.toNat := by
  unfold State.SeqOk; rw [hq]

theorem State.seqOk_dHdr {s : State} (hq : s.seq = .dHdr) :
    s.SeqOk ↔ s.maxbytes.toNat = s.npix / 2 ∧ 18 ≤ s.maxbytes.toNat
      ∧ s.cursor = 2 * (12 + s.idx.toNat)
      ∧ (s.idx.toNat = 1 → s.fnlen.toNat < 256)
      ∧ (2 ≤ s.idx.toNat → s.hdrcnt.toNat = 18 + s.fnlen.toNat ∧ s.hdrcnt.toNat ≤ s.maxbytes.toNat
          ∧ s.idx.toNat < 6 + s.fnlen.toNat)
      ∧ (2 + s.fnlen.toNat < s.idx.toNat → s.paycnt.toNat < 256 ^ (s.idx.toNat - 2 - s.fnlen.toNat)) := by
  unfold State.SeqOk; rw [hq]

theorem State.seqOk_dSkip {s : State} (hq : s.seq = .dSkip) :
    s.SeqOk ↔ s.Planned ∧ s.cursor = 2 * s.hdrcnt.toNat := by
  unfold State.SeqOk; rw [hq]

theorem State.cursor_setCursor_origin (s : State) : (s.setCursor (0, 0)).cursor = 0 := by
  simp [State.cursor, lin]

/-- A plan that fits, written to the registers, is the plan of a running session (R109). -/
theorem State.planned_writePlan {s : State} (h : 18 + s.fnlen.toNat ≤ s.npix / 2) :
    (s.writePlan (fittingPlan (s.npix / 2) (18 + s.fnlen.toNat) s.filesize.toNat)).Planned := by
  obtain ⟨hMax, hHdr⟩ := s.plan_fits_registers
  have hMaxbytes := s.writePlan_maxbytes_toNat
    (fittingPlan (s.npix / 2) (18 + s.fnlen.toNat) s.filesize.toNat) (show s.npix / 2 < _ by omega)
  have hHdrcnt := s.writePlan_hdrcnt_toNat
    (fittingPlan (s.npix / 2) (18 + s.fnlen.toNat) s.filesize.toNat) hHdr
  have hPaycnt := s.writePlan_paycnt_toNat
    (fittingPlan (s.npix / 2) (18 + s.fnlen.toNat) s.filesize.toNat)
    (show min s.filesize.toNat (s.npix / 2 - (18 + s.fnlen.toNat)) < _ by omega)
  refine ⟨hMaxbytes, hHdrcnt, ?_⟩
  rw [hMaxbytes, hHdrcnt, hPaycnt]
  simp only [fittingPlan]
  omega

theorem State.writeMaxBytes_toNat (s : State) :
    (s.writeMaxBytes (s.npix / 2)).maxbytes.toNat = s.npix / 2 := by
  have := s.plan_fits_registers.1
  rw [State.writeMaxBytes_maxbytes, BitVec.toNat_ofNat, Nat.mod_eq_of_lt (by omega)]

/-! ### One byte moved -/

/-- A counter below HDRCNT or PAYCNT does not wrap. -/
theorem idx_succ_of_lt {i : BitVec 32} {n : Nat} (h : i.toNat < n) (hn : n < 2 ^ 32) :
    (i + 1).toNat = i.toNat + 1 := idx_succ i (by omega)

/-- Inside the header that E_HDR writes the counter does not wrap. -/
theorem State.SeqOk.hdr_idx_succ {s : State} (h : s.SeqOk) (hq : s.seq = .eHdr) :
    (s.idx + 1).toNat = s.idx.toNat + 1 := by
  obtain ⟨-, hlt, -⟩ := (State.seqOk_eHdr hq).1 h
  exact idx_succ_of_lt hlt (by have := s.hdrcnt.isLt; omega)

theorem State.SeqOk.hdrMore {s : State} (h : s.SeqOk) (hq : s.seq = .eHdr) (hp : s.cursor + 2 ≤ s.npix)
    (hi : (s.idx + 1).toNat ≠ s.hdrcnt.toNat) (c : Byte) : (s.packNext s.cursor c).SeqOk := by
  have hNext := h.hdr_idx_succ hq
  obtain ⟨hPlan, hlt, hCursor⟩ := (State.seqOk_eHdr hq).1 h
  refine (State.seqOk_eHdr (s := s.packNext s.cursor c) hq).2 ⟨hPlan, ?_, ?_⟩
  · rw [State.packNext_idx, State.packNext_hdrcnt]; omega
  · rw [State.cursor_packNext _ _ hp, State.packNext_idx]; omega

theorem State.SeqOk.hdrLast {s : State} (h : s.SeqOk) (hq : s.seq = .eHdr) (hp : s.cursor + 2 ≤ s.npix)
    (hi : (s.idx + 1).toNat = s.hdrcnt.toNat) (c : Byte) : ((s.packNext s.cursor c).goto .ePay).SeqOk := by
  have hNext := h.hdr_idx_succ hq
  obtain ⟨hPlan, hlt, hCursor⟩ := (State.seqOk_eHdr hq).1 h
  refine (State.seqOk_payload (.inl rfl)).2 ⟨hPlan, Nat.zero_le _, ?_⟩
  rw [State.goto_cursor, State.cursor_packNext _ _ hp]
  show s.cursor + 2 = 2 * (s.hdrcnt.toNat + 0)
  omega

/-- E_PAY and D_PAY: whatever a step writes besides, a byte moved counts IDX once and the cursor twice. -/
theorem State.SeqOk.payloadByte {s t : State} (h : s.SeqOk) (hq : s.seq = .ePay ∨ s.seq = .dPay)
    (hi : s.idx ≠ s.paycnt) (hplan : s.Planned → t.Planned) (hseq : t.seq = s.seq) (hidx : t.idx = s.idx + 1)
    (hpay : t.paycnt = s.paycnt) (hhdr : t.hdrcnt = s.hdrcnt) (hcur : t.cursor = s.cursor + 2) : t.SeqOk := by
  obtain ⟨hPlan, hle, hCursor⟩ := (State.seqOk_payload hq).1 h
  have hlt : s.idx.toNat < s.paycnt.toNat := Nat.lt_of_le_of_ne hle fun e => hi (BitVec.eq_of_toNat_eq e)
  have hNext := idx_succ_of_lt hlt s.paycnt.isLt
  refine (State.seqOk_payload (hseq ▸ hq)).2 ⟨hplan hPlan, ?_, ?_⟩
  · rw [hidx, hpay]; omega
  · rw [hcur, hhdr, hidx]; omega

theorem State.SeqOk.magicMore {s : State} (h : s.SeqOk) (hq : s.seq = .dMagic) (hp : s.cursor + 2 ≤ s.npix)
    (hi : s.idx + 1 ≠ 12) (c : Byte) : ((s.passPair s.cursor).takeMagicByte c).SeqOk := by
  obtain ⟨hMax, hFits, hlt, hCursor⟩ := (State.seqOk_dMagic hq).1 h
  have hNext := idx_succ_of_lt hlt (by decide)
  have hne : (s.idx + 1).toNat ≠ 12 := fun e => hi (BitVec.eq_of_toNat_eq e)
  refine (State.seqOk_dMagic (s := (s.passPair s.cursor).takeMagicByte c) hq).2 ⟨hMax, hFits, ?_, ?_⟩
  · rw [State.takeMagicByte_idx, State.passPair_idx]; omega
  · rw [State.takeMagicByte_cursor, State.cursor_passPair _ hp, State.takeMagicByte_idx, State.passPair_idx]; omega

theorem State.SeqOk.magicGood {s : State} (h : s.SeqOk) (hq : s.seq = .dMagic) (hp : s.cursor + 2 ≤ s.npix)
    (hi : s.idx + 1 = 12) (c : Byte) : (((s.passPair s.cursor).takeMagicByte c).goto .dHdr).SeqOk := by
  obtain ⟨hMax, hFits, hlt, hCursor⟩ := (State.seqOk_dMagic hq).1 h
  have hNext := idx_succ_of_lt hlt (by decide)
  have h12 : (s.idx + 1).toNat = 12 := congrArg BitVec.toNat hi
  refine (State.seqOk_dHdr rfl).2
    ⟨hMax, hFits, ?_, nofun, fun h2 => absurd h2 (by simp), fun h2 => absurd h2 (by simp)⟩
  rw [State.goto_cursor, State.takeMagicByte_cursor, State.cursor_passPair _ hp]
  show s.cursor + 2 = 2 * (12 + 0)
  omega

/-! ### The header's fields (R139) -/

theorem State.SeqOk.fnlenLow {s : State} (h : s.SeqOk) (hq : s.seq = .dHdr) (hp : s.cursor + 2 ≤ s.npix)
    (hi : s.idx.toNat = 0) (c : Byte) : ((s.passPair s.cursor).takeFnlenLow c).SeqOk := by
  obtain ⟨hMax, hFits, hCursor, -⟩ := (State.seqOk_dHdr hq).1 h
  refine (State.seqOk_dHdr (s := (s.passPair s.cursor).takeFnlenLow c) hq).2
    ⟨hMax, hFits, ?_, fun _ => ?_, fun h2 => absurd h2 (by simp), fun h2 => ?_⟩
  · rw [State.takeFnlenLow_cursor, State.cursor_passPair _ hp]
    show s.cursor + 2 = 2 * (12 + 1)
    omega
  · have := c.isLt
    rw [State.takeFnlenLow_fnlen, BitVec.toNat_ofNat, Nat.mod_eq_of_lt (by omega)]
    exact this
  · change _ < 1 at h2
    omega

theorem State.writeFnlenHigh_hdrcnt_toNat (s : State) (c : Byte) :
    (s.writeFnlenHigh c).hdrcnt.toNat = 18 + (s.writeFnlenHigh c).fnlen.toNat := by
  have := (s.writeFnlenHigh c).fnlen.isLt
  exact Nat.mod_eq_of_lt (show 18 + (s.writeFnlenHigh c).fnlen.toNat < 2 ^ 17 by omega)

theorem State.SeqOk.fnlenHighFits {s : State} (h : s.SeqOk) (hq : s.seq = .dHdr) (hp : s.cursor + 2 ≤ s.npix)
    (hi : s.idx.toNat = 1) (c : Byte) (hm : (s.writeFnlenHigh c).hdrcnt.toNat ≤ s.maxbytes.toNat) :
    (((s.passPair s.cursor).writeFnlenHigh c).setIdx 2).SeqOk := by
  obtain ⟨hMax, hFits, hCursor, -⟩ := (State.seqOk_dHdr hq).1 h
  refine (State.seqOk_dHdr (s := ((s.passPair s.cursor).writeFnlenHigh c).setIdx 2) hq).2
    ⟨hMax, hFits, ?_, fun h1 => absurd h1 (by simp), fun _ => ⟨?_, hm, ?_⟩, fun h2 => ?_⟩
  · rw [State.setIdx_cursor, State.writeFnlenHigh_cursor, State.cursor_passPair _ hp]
    show s.cursor + 2 = 2 * (12 + 2)
    omega
  · exact s.writeFnlenHigh_hdrcnt_toNat c
  · show 2 < _
    omega
  · change _ < 2 at h2
    omega

/-- Inside the header that D_HDR parses the counter does not wrap. -/
theorem State.SeqOk.dHdr_idx_succ {s : State} (h : s.SeqOk) (hq : s.seq = .dHdr) (hi : 2 ≤ s.idx.toNat) :
    (s.idx + 1).toNat = s.idx.toNat + 1 := by
  obtain ⟨-, -, -, -, hHeader, -⟩ := (State.seqOk_dHdr hq).1 h
  obtain ⟨-, -, hlt⟩ := hHeader hi
  exact idx_succ_of_lt hlt (by have := s.fnlen.isLt; omega)

theorem State.SeqOk.nameByte {s : State} (h : s.SeqOk) (hq : s.seq = .dHdr) (hp : s.cursor + 2 ≤ s.npix)
    (hi : 2 ≤ s.idx.toNat) (hf : s.idx.toNat < 2 + s.fnlen.toNat) (c : Byte) :
    ((s.passPair s.cursor).takeNameByte c).SeqOk := by
  have hNext := h.dHdr_idx_succ hq hi
  obtain ⟨hMax, hFits, hCursor, -, hHeader, -⟩ := (State.seqOk_dHdr hq).1 h
  obtain ⟨hHdr, hRoom, -⟩ := hHeader hi
  have hMoved : ((s.passPair s.cursor).takeNameByte c).cursor = s.cursor + 2 := State.cursor_passPair _ hp
  refine (State.seqOk_dHdr (s := (s.passPair s.cursor).takeNameByte c) hq).2
    ⟨hMax, hFits, ?_, fun h1 => ?_, fun _ => ⟨hHdr, hRoom, ?_⟩, fun h2 => ?_⟩
  · rw [hMoved]
    show s.cursor + 2 = 2 * (12 + (s.idx + 1).toNat)
    omega
  · change (s.idx + 1).toNat = 1 at h1
    omega
  · show (s.idx + 1).toNat < 6 + s.fnlen.toNat
    omega
  · change 2 + s.fnlen.toNat < (s.idx + 1).toNat at h2
    omega

/-- With k digits of the payload length taken before, the number with digit k fits k + 1 digits. -/
theorem State.writePaylen_paycnt_lt {s : State} {k : Nat} (h : 0 < k → s.paycnt.toNat < 256 ^ k) (c : Byte) :
    (s.writePaylen k c).paycnt.toNat < 256 ^ (k + 1) := by
  have hc : c.toNat < 256 := c.isLt
  rw [State.writePaylen_paycnt, BitVec.toNat_ofNat]
  refine Nat.lt_of_le_of_lt (Nat.mod_le _ _) ?_
  split
  · next h0 => subst h0; exact hc
  · next h0 =>
    have hOld := h (Nat.pos_of_ne_zero h0)
    calc s.paycnt.toNat + c.toNat * 256 ^ k < 256 ^ k + c.toNat * 256 ^ k := Nat.add_lt_add_right hOld _
      _ = (c.toNat + 1) * 256 ^ k := by ring
      _ ≤ 256 * 256 ^ k := Nat.mul_le_mul_right _ hc
      _ = 256 ^ (k + 1) := by ring

theorem State.SeqOk.paylenMore {s : State} (h : s.SeqOk) (hq : s.seq = .dHdr) (hp : s.cursor + 2 ≤ s.npix)
    {k : Nat} (hi : 2 ≤ s.idx.toNat) (hk : s.idx.toNat = 2 + s.fnlen.toNat + k) (h3 : k < 3) (c : Byte) :
    (((s.passPair s.cursor).writePaylen k c).setIdx (s.idx + 1)).SeqOk := by
  have hNext := h.dHdr_idx_succ hq hi
  obtain ⟨hMax, hFits, hCursor, -, hHeader, hDigits⟩ := (State.seqOk_dHdr hq).1 h
  obtain ⟨hHdr, hRoom, -⟩ := hHeader hi
  have hOld : 0 < k → s.paycnt.toNat < 256 ^ k := fun hpos => by
    have := hDigits (by omega)
    rwa [show s.idx.toNat - 2 - s.fnlen.toNat = k by omega] at this
  refine (State.seqOk_dHdr (s := ((s.passPair s.cursor).writePaylen k c).setIdx (s.idx + 1)) hq).2
    ⟨hMax, hFits, ?_, fun h1 => ?_, fun _ => ⟨hHdr, hRoom, ?_⟩, fun _ => ?_⟩
  · rw [State.setIdx_cursor, State.writePaylen_cursor, State.cursor_passPair _ hp, State.setIdx_idx]
    omega
  · rw [State.setIdx_idx] at h1
    omega
  · show (s.idx + 1).toNat < 6 + s.fnlen.toNat
    omega
  · show _ < 256 ^ ((s.idx + 1).toNat - 2 - s.fnlen.toNat)
    rw [show (s.idx + 1).toNat - 2 - s.fnlen.toNat = k + 1 by omega]
    exact State.writePaylen_paycnt_lt (s := s) hOld c

theorem State.SeqOk.paylenFits {s : State} (h : s.SeqOk) (hq : s.seq = .dHdr) (hp : s.cursor + 2 ≤ s.npix)
    {k : Nat} (hi : 2 ≤ s.idx.toNat) (hk : s.idx.toNat = 2 + s.fnlen.toNat + k) (h3 : 3 ≤ k) (c : Byte)
    (hm : s.hdrcnt.toNat + (s.writePaylen k c).paycnt.toNat ≤ s.maxbytes.toNat) :
    (((s.passPair s.cursor).writePaylen k c).goto .dSkip).SeqOk := by
  obtain ⟨hMax, -, hCursor, -, hHeader, -⟩ := (State.seqOk_dHdr hq).1 h
  obtain ⟨hHdr, -, hlt⟩ := hHeader hi
  refine (State.seqOk_dSkip rfl).2 ⟨⟨hMax, hHdr, hm⟩, ?_⟩
  rw [State.goto_cursor, State.writePaylen_cursor, State.cursor_passPair _ hp]
  show s.cursor + 2 = 2 * s.hdrcnt.toNat
  omega

/-! ### Every step -/

theorem EngineMove.seqOk {s t : State} (m : EngineMove s t) (h : s.SeqOk) : t.SeqOk := by
  cases m with
  | rest => exact h
  | planFails | bounds | sessionDone | depthBad | sizeFails | magicBad | fnlenHighOverruns | paylenOverruns
  | skipBounds => exact .of_idle rfl
  | planFits _ hf =>
    have hPlan := State.planned_writePlan hf
    obtain ⟨-, hHdr, -⟩ := hPlan
    have hPos := Nat.lt_of_lt_of_eq (Nat.add_pos_left (by decide) _) hHdr.symm
    exact (State.seqOk_eHdr rfl).2 ⟨State.planned_writePlan hf, hPos, State.cursor_setCursor_origin _⟩
  | hdrMore hq hp hi => exact h.hdrMore hq hp hi _
  | hdrLast hq hp hi => exact h.hdrLast hq hp hi _
  | payMore hq hp hi => exact h.payloadByte (.inl hq) hi id rfl rfl rfl rfl (State.cursor_packNext _ _ hp)
  | depthOk => exact State.seqOk_dSize rfl
  | sizeFits _ hf =>
    have hMax := s.writeMaxBytes_toNat
    have hFits : 18 ≤ (s.writeMaxBytes (s.npix / 2)).maxbytes.toNat := by omega
    exact (State.seqOk_dMagic rfl).2 ⟨hMax, hFits, show 0 < 12 by decide, State.cursor_setCursor_origin _⟩
  | magicMore hq hp hi => exact h.magicMore hq hp hi _
  | magicGood hq hp hi => exact h.magicGood hq hp hi _
  | fnlenLow hq hp hi => exact h.fnlenLow hq hp hi _
  | fnlenHighFits hq hp hi hm => exact h.fnlenHighFits hq hp hi _ hm
  | nameByte hq hp hi hf => exact h.nameByte hq hp hi hf _
  | paylenMore k hq hp hi hk h3 => exact h.paylenMore hq hp hi hk h3 _
  | paylenFits k hq hp hi hk h3 hm => exact h.paylenFits hq hp hi hk h3 _ hm
  | skip hq hn =>
    obtain ⟨hPlan, -⟩ := (State.seqOk_dSkip hq).1 h
    exact (State.seqOk_payload (.inr rfl)).2 ⟨hPlan, Nat.zero_le _, State.cursor_setCursor_pix s _ hn⟩
  | takePayByte hq hp hi => exact h.payloadByte (.inr hq) hi id rfl rfl rfl rfl (State.cursor_passPair _ hp)

/-- A command that is not dropped finds the engine idle, and only ENCODE and DECODE start it. -/
theorem CommandMove.seqOk {s t : State} {i : Instr} (m : CommandMove s i t) (h : s.SeqOk) : t.SeqOk := by
  cases m with
  | nop | dropped => exact h
  | clrStatus => exact .of_idle rfl
  | config _ _ _ hz => exact .of_idle hz.1
  | encode => exact State.seqOk_ePlan rfl
  | decode => exact State.seqOk_dDepth rfl
  | curAdvanceBy n hr => exact .of_idle ((State.advanceTimes_busy n _).trans hr.1)
  | bounds _ hr | curReset hr | curAdvance hr | packByte _ hr | unpackByte hr | planEncode hr | planEncodeFails hr
  | planDecode hr | planDecodeFails hr => exact .of_idle hr.1

theorem seqOk_stepInvariant : StepInvariant State.SeqOk where
  withTurns _ h := h
  give _ h := h
  markDropped h := h
  engine m h := m.seqOk h
  command m h := m.seqOk h
  illegal hb _ _ := .of_idle hb
  written r d hb _ := .of_idle ((r.effect_busy d _).trans hb)
  memWrite sp _ _ _ h := by cases sp <;> exact h
  reset _ := .of_idle rfl

/-- Settles O48: each of the four parts of the invariant is a step invariant of its own. -/
theorem runInvariantIsKept : Obligations.RunInvariantIsKept := by
  rintro s t ⟨hMem, hCursor, hStatus, hSeq⟩ ht
  exact ⟨memOk_stepInvariant.step hMem ht, cursorOk_stepInvariant.step hCursor ht,
    statusOk_stepInvariant.step hStatus ht, seqOk_stepInvariant.step hSeq ht⟩

/-! ### Commands through the register window -/

theorem issueWord_ok {w : Word} {i : Instr} (h : decode w = .ok i) (s : State) : issueWord w s = exec i s := by
  simp only [issueWord, h]

/-- Settles O7: a write to CMD issues the word, and a legal word runs its command. -/
theorem stepRunsTheDecodedCommand : Obligations.StepRunsTheDecodedCommand := fun _ _ _ _ hTurn hd =>
  (step_command hTurn).trans (issueWord_ok hd _)

/-- Settles O8: the word placed first is decoded back to the command, in the state as it was. -/
theorem stepRunsAnEncodedCommand : Obligations.StepRunsAnEncodedCommand := by
  intro s i h
  have hTurn : (s.withFetchWord 32 (encode i).toNat).turns = .regWrite 0x00 4 (encode i) :: s.turns := by
    simp [State.withFetchWord]
  exact stepRunsTheDecodedCommand _ _ _ i hTurn (decode_encode h)

/-- Settles O10: each outcome of such a command but the two session commands' leaves SESSION and IDX alone. -/
theorem primitiveCommandsLeaveTheSession : Obligations.PrimitiveCommandsLeaveTheSession := by
  intro i s t hClr hEnc hDec he
  cases command_move he with
  | clrStatus => exact absurd rfl hClr
  | encode => exact absurd rfl hEnc
  | decode => exact absurd rfl hDec
  | curAdvanceBy n =>
    exact ⟨State.advanceTimes_seq n _, State.advanceTimes_mismatch n _, State.advanceTimes_idx n _⟩
  | nop | dropped | config | bounds | curReset | curAdvance | packByte | unpackByte | planEncode | planEncodeFails
  | planDecode | planDecodeFails => exact ⟨rfl, rfl, rfl⟩

/-- Settles O11: CLR_STATUS is dropped while BUSY = 1, and every other command by the gate of acceptance. -/
theorem droppedCommandOnlySetsDropped : Obligations.DroppedCommandOnlySetsDropped := by
  intro i s hNop hd
  by_cases hClr : i = .clrStatus
  · subst hClr
    have hb : s.busy = true := hd.resolve_right fun h => h.2 rfl
    exact congrArg Host.Outcome.next (if_pos hb)
  · rw [exec_eq_accept i s hNop hClr, State.accept_dropped (hd.imp_right And.left)]
    rfl

/-! ### Which steps change a register -/

theorem engineStep_geometry (s : State) :
    (engineStep s).width = s.width ∧ (engineStep s).height = s.height := by
  obtain ⟨hw, hh, -⟩ := engineKeepsHostRegisters s
  exact ⟨hw, hh⟩

theorem engineStep_dataOut (s : State) : (engineStep s).dataOut = s.dataOut := by
  obtain ⟨-, -, -, -, hd, -⟩ := engineKeepsHostRegisters s
  exact hd

theorem acceptIllegal_geometry (s : State) :
    s.acceptIllegal.width = s.width ∧ s.acceptIllegal.height = s.height := by
  rcases acceptIllegal_cases s with ⟨-, e⟩ | ⟨-, -, e⟩ <;> rw [e] <;> exact ⟨rfl, rfl⟩

theorem acceptIllegal_dataOut (s : State) : s.acceptIllegal.dataOut = s.dataOut := by
  rcases acceptIllegal_cases s with ⟨-, e⟩ | ⟨-, -, e⟩ <;> rw [e] <;> rfl

theorem CommandMove.geometry {s t : State} {i : Instr} (m : CommandMove s i t) :
    t.width = s.width ∧ t.height = s.height := by
  cases m with
  | curAdvanceBy n => exact ⟨State.advanceTimes_width n _, State.advanceTimes_height n _⟩
  | _ => exact ⟨rfl, rfl⟩

theorem CommandMove.dataOut {s t : State} {i : Instr} (m : CommandMove s i t) (h : i ≠ .unpackByte) :
    t.dataOut = s.dataOut := by
  cases m with
  | unpackByte => exact absurd rfl h
  | curAdvanceBy n => exact State.advanceTimes_dataOut n _
  | _ => rfl

/-- Settles O43: of the commands only UNPACK_BYTE writes DATA_OUT, and its word is its encoding. -/
theorem onlyUnpackByteAndResetChangeDataOut : Obligations.OnlyUnpackByteAndResetChangeDataOut := by
  intro s t ht hne
  cases step_move ht with
  | quiet => exact absurd (engineStep_dataOut s) hne
  | engine rest | pollBusy rest => exact absurd (engineStep_dataOut (s.withTurns rest)) hne
  | command i w rest hTurn hd _ he =>
    by_cases hi : i = .unpackByte
    · subst hi
      exact .inl ⟨rest, by rw [hTurn, word_eq_encode hd]; rfl⟩
    · exact absurd ((command_move he).dataOut hi) hne
  | illegal w e rest => exact absurd (acceptIllegal_dataOut (s.withTurns rest)) hne
  | regWritten r d rest => exact absurd (by cases r <;> rfl) hne
  | memWrite sp a v rest => exact absurd (State.memWrite_dataOut _ sp a v) hne
  | reset rest hTurn => exact .inr ⟨rest, hTurn⟩
  | pollDone | regRead | regIgnored | regDropped | memRead => exact absurd rfl hne

/-- What a step can do to the geometry: keep it, take one dimension from the host while BUSY = 0, or clear it. -/
inductive GeometryMove (s t : State) : Prop
  | kept (h : t.width = s.width ∧ t.height = s.height)
  | width (d : Word) (rest : List Turn) (hb : s.busy = false) (hTurn : s.turns = .regWrite 0x10 4 d :: rest)
      (hw : t.width = d.setWidth 16) (hh : t.height = s.height) (hc : t.curCol = 0 ∧ t.curRow = 0)
  | height (d : Word) (rest : List Turn) (hb : s.busy = false) (hTurn : s.turns = .regWrite 0x14 4 d :: rest)
      (hw : t.width = s.width) (hh : t.height = d.setWidth 16) (hc : t.curCol = 0 ∧ t.curRow = 0)
  | reset (rest : List Turn) (hTurn : s.turns = .reset :: rest) (hc : t.curCol = 0 ∧ t.curRow = 0)

theorem step_geometry {s t : State} (h : step s = .next t) : GeometryMove s t := by
  cases step_move h with
  | quiet => exact .kept (engineStep_geometry s)
  | engine rest | pollBusy rest => exact .kept (engineStep_geometry (s.withTurns rest))
  | command i w rest _ _ _ he => exact .kept (command_move he).geometry
  | illegal w e rest => exact .kept (acceptIllegal_geometry (s.withTurns rest))
  | regWritten r d rest hTurn _ hb =>
    cases r with
    | width => exact .width d rest hb hTurn rfl rfl ⟨rfl, rfl⟩
    | height => exact .height d rest hb hTurn rfl rfl ⟨rfl, rfl⟩
    | _ => exact .kept ⟨rfl, rfl⟩
  | memWrite sp a v rest => exact .kept ⟨State.memWrite_width _ sp a v, State.memWrite_height _ sp a v⟩
  | reset rest hTurn => exact .reset rest hTurn ⟨rfl, rfl⟩
  | pollDone | regRead | regIgnored | regDropped | memRead => exact .kept ⟨rfl, rfl⟩

/-- Settles O44: the two dimensions read off `GeometryMove`. -/
theorem geometryChangesResetTheCursor : Obligations.GeometryChangesResetTheCursor := by
  intro s t ht
  cases step_geometry ht with
  | kept h =>
    obtain ⟨hw, hh⟩ := h
    exact ⟨fun hne => absurd hw hne, fun hne => absurd hh hne⟩
  | width d rest hb hTurn hw hh hc =>
    obtain ⟨hCol, hRow⟩ := hc
    exact ⟨fun _ => ⟨hCol, hRow, .inl ⟨d, rest, hb, hTurn, hw⟩⟩, fun hne => absurd hh hne⟩
  | height d rest hb hTurn hw hh hc =>
    obtain ⟨hCol, hRow⟩ := hc
    exact ⟨fun hne => absurd hw hne, fun _ => ⟨hCol, hRow, .inl ⟨d, rest, hb, hTurn, hh⟩⟩⟩
  | reset rest hTurn hc =>
    obtain ⟨hCol, hRow⟩ := hc
    exact ⟨fun _ => ⟨hCol, hRow, .inr ⟨rest, hTurn⟩⟩, fun _ => ⟨hCol, hRow, .inr ⟨rest, hTurn⟩⟩⟩

/-- While ERR holds an error a command keeps it, but for CLR_STATUS: the others would need `ready`. -/
theorem CommandMove.err_of_error {s t : State} {i : Instr} (m : CommandMove s i t) (he : s.err ≠ .noError) :
    t.err = s.err ∨ (i = .clrStatus ∧ t.err = .noError) := by
  cases m with
  | nop | dropped => exact .inl rfl
  | clrStatus => exact .inr ⟨rfl, rfl⟩
  | config _ _ _ hr | bounds _ hr | curReset hr | curAdvance hr | curAdvanceBy _ hr | packByte _ hr | unpackByte hr
  | planEncode hr | planEncodeFails hr | planDecode hr | planDecodeFails hr | encode hr | decode hr =>
    obtain ⟨-, hNone, -⟩ := hr
    exact absurd hNone he

/-- Settles O45: an idle engine does nothing, and acceptance drops every word but NOP and CLR_STATUS. -/
theorem firstErrorIsKept : Obligations.FirstErrorIsKept := by
  intro s t he hb ht
  have engine : ∀ rest : List Turn, (engineStep (s.withTurns rest)).err = s.err := fun rest =>
    by rw [engineStep_idle (s := s.withTurns rest) hb, State.withTurns_err]
  cases step_move ht with
  | quiet => exact .inl (congrArg State.err (engineStep_idle hb))
  | engine rest | pollBusy rest => exact .inl (engine rest)
  | command i w rest hTurn hd _ hx =>
    rcases (command_move hx).err_of_error he with hKept | ⟨hi, hCleared⟩
    · exact .inl hKept
    · subst hi
      exact .inr ⟨hCleared, rest, .inl (by rw [hTurn, word_eq_encode hd]; rfl)⟩
  | illegal w e rest =>
    rcases acceptIllegal_cases (s.withTurns rest) with ⟨-, hx⟩ | ⟨-, hNone, -⟩
    · exact .inl (by rw [hx]; rfl)
    · exact absurd hNone he
  | regWritten r d rest => exact .inl (r.effect_status d _).1
  | memWrite sp a v rest => exact .inl (State.memWrite_err _ sp a v)
  | reset rest hTurn => exact .inr ⟨rfl, rest, .inr hTurn⟩
  | pollDone | regRead | regIgnored | regDropped | memRead => exact .inl rfl

/-! ### The register window -/

/-- Settles O56: such an access reaches no register. -/
theorem otherRegisterAccessesAreRefused : Obligations.OtherRegisterAccessesAreRefused := by
  intro s offset nbytes rest h
  have hNone := regAt_none h
  refine ⟨fun hTurn => ?_, fun d hTurn => ?_⟩ <;> rw [step_turn hTurn] <;> simp only [runTurn, hNone]

/-- The registers that a host write can change, CMD aside (R17). -/
def Reg.readWrite : List Reg := [.width, .height, .cfg, .fnlen, .filesize]

theorem writeReg_busy {r : Reg} (hr : r ∈ Reg.readWrite) (d : Word) {s : State} (hb : s.busy = true) :
    writeReg r d s = .next s.markDropped := by
  have hDropped : ∀ f, s.hostWrite f = s.markDropped := fun _ => if_pos hb
  simp only [Reg.readWrite, List.mem_cons, List.not_mem_nil, or_false] at hr
  rcases hr with rfl | rfl | rfl | rfl | rfl <;> exact congrArg Host.Outcome.next (hDropped _)

theorem writeReg_idle {r : Reg} (hr : r ∈ Reg.readWrite) (d : Word) {s : State} (hb : s.busy = false) :
    writeReg r d s = .next (r.effect d s) := by
  have hTaken : ∀ f, s.hostWrite f = f s := fun _ => if_neg (by simp [hb])
  simp only [Reg.readWrite, List.mem_cons, List.not_mem_nil, or_false] at hr
  rcases hr with rfl | rfl | rfl | rfl | rfl <;> exact congrArg Host.Outcome.next (hTaken _)

theorem writeReg_ignored {r : Reg} (hr : r ∉ Reg.readWrite) (hCmd : r ≠ .cmd) (d : Word) (s : State) :
    writeReg r d s = .next s := by
  cases r with
  | cmd => exact absurd rfl hCmd
  | width | height | cfg | fnlen | filesize => exact absurd (by decide) hr
  | _ => rfl

/-- Settles O55: a write to a register is `writeReg`, in the state without the turn. -/
theorem registerWritesFollowTheirRules : Obligations.RegisterWritesFollowTheirRules := by
  intro s d rest r hTurn
  rw [step_regWrite hTurn]
  refine ⟨fun hr hb => writeReg_busy (s := s.withTurns rest) hr d hb, fun hb => ?_, fun hr => ?_⟩
  · have hIdle : ∀ r' ∈ Reg.readWrite, writeReg r' d (s.withTurns rest) = .next (r'.effect d (s.withTurns rest)) :=
      fun r' hr' => writeReg_idle hr' d hb
    refine ⟨?_, ?_, ?_, ?_, ?_⟩ <;> rintro rfl <;> exact hIdle _ (by decide)
  · have hOther : ∀ r' ∈ [Reg.status, .session, .idx, .curCol, .curRow, .maxbytes, .hdrcnt, .paycnt, .dataOut,
        .reserved], r' ∉ Reg.readWrite ∧ r' ≠ .cmd := by decide
    obtain ⟨hrw, hCmd⟩ := hOther r hr
    exact writeReg_ignored hrw hCmd d _

/-! ### The words of the registers -/

/-- The number that two fields side by side make. -/
theorem toNat_append_eq_add {m n : Nat} (x : BitVec m) (y : BitVec n) :
    (x ++ y).toNat = x.toNat * 2 ^ n + y.toNat := by
  rw [BitVec.toNat_append, ← Nat.shiftLeft_add_eq_or_of_lt y.isLt, Nat.shiftLeft_eq]

/-- A field alone at the bottom of a word. -/
theorem setWidth_eq_zero_append (k : Nat) {n : Nat} (x : BitVec n) :
    x.setWidth (k + n) = (0 : BitVec k) ++ x := by
  apply BitVec.eq_of_toNat_eq
  rw [toNat_append_eq_add, BitVec.toNat_setWidth_of_le (Nat.le_add_left n k)]
  simp

/-- STATUS has its five fields side by side (R17). -/
theorem State.statusWord_eq (s : State) :
    s.statusWord = (0 : BitVec 24) ++ BitVec.ofBool s.dropped ++ BitVec.ofBool s.busy ++ BitVec.ofBool s.done
      ++ BitVec.ofBool s.truncWarn ++ s.err.code := by
  have hCode := s.err.code.isLt
  have hTrunc := s.truncWarn.toNat_lt
  have hDone := s.done.toNat_lt
  have hBusy := s.busy.toNat_lt
  have hDropped := s.dropped.toNat_lt
  apply BitVec.eq_of_toNat_eq
  simp only [State.statusWord, toNat_append_eq_add, BitVec.toNat_ofNat, BitVec.toNat_ofBool, BitVec.ofNat_eq_ofNat]
  omega

/-- SESSION has STATE and MISMATCH side by side (R17). -/
theorem State.sessionWord_eq (s : State) :
    s.sessionWord = (0 : BitVec 27) ++ BitVec.ofBool s.mismatch ++ s.seq.code := by
  have hCode := s.seq.code.isLt
  have hMismatch := s.mismatch.toNat_lt
  apply BitVec.eq_of_toNat_eq
  simp only [State.sessionWord, toNat_append_eq_add, BitVec.toNat_ofNat, BitVec.toNat_ofBool, BitVec.ofNat_eq_ofNat]
  omega

theorem State.cfgWord_eq (s : State) :
    s.readReg .cfg = (0 : BitVec 31) ++ BitVec.ofBool s.alphaPresent := by
  unfold State.readReg
  cases s.alphaPresent <;> rfl

/-- Settles O54: the table row by row, each word by the lemma about its fields. -/
theorem registerReadsHaveNoEffect : Obligations.RegisterReadsHaveNoEffect := by
  intro s
  refine ⟨fun r rest hTurn => step_regRead hTurn, fun r offset word h => ?_⟩
  simp only [List.mem_cons, Prod.mk.injEq, List.not_mem_nil, or_false] at h
  cases r <;> simp only [reduceCtorEq, false_and, or_false, false_or, true_and] at h <;> obtain ⟨rfl, rfl⟩ := h
  case status => exact ⟨rfl, s.statusWord_eq⟩
  case session => exact ⟨rfl, s.sessionWord_eq⟩
  case cfg => exact ⟨rfl, s.cfgWord_eq⟩
  case width | height | curCol | fnlen => exact ⟨rfl, setWidth_eq_zero_append 16 _⟩
  case curRow | hdrcnt => exact ⟨rfl, setWidth_eq_zero_append 15 _⟩
  case dataOut => exact ⟨rfl, setWidth_eq_zero_append 24 _⟩
  all_goals exact ⟨rfl, rfl⟩

end Sys2Proof.Machine

/-!
PROOFS. The memories (20_memory.md): which steps change CAR, and the host's byte accesses.
-/
namespace Sys2Proof.Machine

/-! ### Which steps change CAR -/

/-- Of the engine's steps only those of E_HDR and E_PAY pack a byte (R131, R132). -/
theorem EngineMove.car {s t : State} (m : EngineMove s t) (hHdr : s.seq ≠ .eHdr) (hPay : s.seq ≠ .ePay) :
    t.car = s.car := by
  cases m with
  | hdrMore hq | hdrLast hq => exact absurd hq hHdr
  | payMore hq => exact absurd hq hPay
  | _ => rfl

theorem seq_of_engineStep_car_ne {s : State} (h : (engineStep s).car ≠ s.car) : s.seq = .eHdr ∨ s.seq = .ePay := by
  by_contra hq
  obtain ⟨hHdr, hPay⟩ := not_or.1 hq
  exact h ((engineStep_move s).car hHdr hPay)

theorem acceptIllegal_car (s : State) : s.acceptIllegal.car = s.car := by
  rcases acceptIllegal_cases s with ⟨-, e⟩ | ⟨-, -, e⟩ <;> rw [e] <;> rfl

theorem CommandMove.packByte_of_car_ne {s t : State} {i : Instr} (m : CommandMove s i t) (h : t.car ≠ s.car) :
    ∃ c : Byte, i = .packByte c := by
  cases m with
  | packByte c => exact ⟨c, rfl⟩
  | curAdvanceBy n => exact absurd (State.advanceTimes_car n _) h
  | _ => exact absurd rfl h

/-- Settles O42: only the engine, a command and the host's byte write can reach CAR; the engine does so in E_HDR and
E_PAY, and a command as PACK_BYTE. -/
theorem onlyPackingAndTheHostChangeCar : Obligations.OnlyPackingAndTheHostChangeCar := by
  intro s t ht hne
  cases step_move ht with
  | quiet hTurn => exact .inl ⟨seq_of_engineStep_car_ne hne, .inl hTurn⟩
  | engine rest hTurn =>
    exact .inl ⟨seq_of_engineStep_car_ne (s := s.withTurns rest) hne, .inr ⟨rest, .inl hTurn⟩⟩
  | pollBusy rest hTurn =>
    exact .inl ⟨seq_of_engineStep_car_ne (s := s.withTurns rest) hne, .inr ⟨rest, .inr hTurn⟩⟩
  | command i w rest hTurn hd _ he =>
    obtain ⟨c, rfl⟩ := (command_move he).packByte_of_car_ne hne
    exact .inr (.inl ⟨w, c, rest, hTurn, hd⟩)
  | memWrite sp a v rest hTurn hb =>
    cases sp with
    | car => exact .inr (.inr ⟨a, v, rest, hb, hTurn⟩)
    | name | pay => exact absurd rfl hne
  | illegal w e rest => exact absurd (acceptIllegal_car (s.withTurns rest)) hne
  | regWritten r d rest => exact absurd (by cases r <;> rfl) hne
  | pollDone | regRead | regIgnored | regDropped | memRead | reset => exact absurd rfl hne

/-! ### The host's byte accesses (R46) -/

theorem step_memRead {s : State} {sp : Space} {a : Nat} {rest : List Turn} (h : s.turns = .memRead sp a :: rest) :
    step s = (s.withTurns rest).hostByte sp a
      ((s.withTurns rest).give (((s.withTurns rest).memRead sp a).setWidth 32)) := step_turn h

theorem step_memWrite {s : State} {sp : Space} {a : Nat} {v : Byte} {rest : List Turn}
    (h : s.turns = .memWrite sp a v :: rest) :
    step s = (s.withTurns rest).hostByte sp a ((s.withTurns rest).memWrite sp a v) := step_turn h

/-- The turns to come are no part of a memory. -/
@[simp] theorem State.withTurns_memRead (s : State) (ts : List Turn) (sp : Space) (a : Nat) :
    (s.withTurns ts).memRead sp a = s.memRead sp a := by
  simp only [State.memRead, State.withTurns_memory]

/-- Settles O57: both accesses go through `hostByte`, and what a write leaves in the spaces is `memRead_memWrite`. -/
theorem hostByteAccesses : Obligations.HostByteAccesses := by
  intro s sp a v rest
  refine ⟨fun hTurn => ?_, fun hTurn => ?_⟩
  · rw [step_memRead hTurn, State.withTurns_memRead]
    exact ⟨fun hb => hostByte_busy _ hb, fun hb ha => hostByte_outside _ hb ha, fun hb ha => hostByte_inside _ hb ha⟩
  · rw [step_memWrite hTurn]
    refine ⟨fun hb => hostByte_busy _ hb, fun hb ha => hostByte_outside _ hb ha, fun hb ha => ?_⟩
    refine ⟨_, hostByte_inside _ hb ha, State.memWrite_regs (s.withTurns rest) sp a v, fun sp' b => ?_⟩
    rw [State.memRead_memWrite, State.withTurns_memRead]

end Sys2Proof.Machine

/-!
PROOFS. The command word (30_encoding.md): the encoder and the decoder undo each other, the decoder answers the row of
the opcode map that a word selects, and which words are illegal.
-/
namespace Sys2Proof

/-! ### Encoder and decoder -/

/-- Settles O1: the fields of an encoding are the opcode and the operand, from which `decode_encode` reads the command
back. -/
theorem decodeOfEncodeIsTheCommand : Obligations.DecodeOfEncodeIsTheCommand :=
  fun _ => decode_encode

/-- Settles O2: a word is its two fields, and inverting the decoder names both. -/
theorem encodeOfDecodeIsTheWord : Obligations.EncodeOfDecodeIsTheWord := by
  intro w i h
  obtain ⟨-, -, hwf⟩ := decode_ok h
  exact ⟨(word_eq_encode h).symm, hwf⟩

/-- Settles O5: each word is fixed, so the decoder evaluates on it. -/
theorem specWordsDecodeAsWritten : Obligations.SpecWordsDecodeAsWritten := by
  unfold Obligations.SpecWordsDecodeAsWritten
  decide

/-! ### The rows of the opcode map (R68, R69) -/

/-- Every command has its row, and its encoding selects it (R68, R73). -/
theorem tableRow_statement : ∀ i : Instr, Laws.TableRow.Statement i
  | .nop => Laws.TableRow.nop
  | .clrStatus => Laws.TableRow.clrStatus
  | .curReset => Laws.TableRow.curReset
  | .curAdvance => Laws.TableRow.curAdvance
  | .curAdvanceBy n => Laws.TableRow.curAdvanceBy n
  | .packByte c => Laws.TableRow.packByte c
  | .unpackByte => Laws.TableRow.unpackByte
  | .planEncode => Laws.TableRow.planEncode
  | .planDecode => Laws.TableRow.planDecode
  | .encode => Laws.TableRow.encode
  | .decode => Laws.TableRow.decode

theorem opcodeRows_mnemonic_injective :
    ∀ r ∈ opcodeRows, ∀ r' ∈ opcodeRows, r.mnemonic = r'.mnemonic → r = r' := by decide

/-- The rows with an operand are those of CUR_ADVANCE_BY and PACK_BYTE; every other mask keeps the whole word. -/
theorem opcodeRow_cases {r : OpcodeRow} (hr : r ∈ opcodeRows) :
    r.mask = 0xFFFFFFFF ∨ r = ⟨"CUR_ADVANCE_BY", 0x04000000, 0xFF000000⟩
      ∨ r = ⟨"PACK_BYTE", 0x10000000, 0xFFFFFF00⟩ := by
  revert r
  decide

/-- The match of a row is itself a word of the row's command, with operand 0. -/
theorem decode_matchBits :
    ∀ r ∈ opcodeRows, (decode r.matchBits).map Instr.mnemonic = .ok r.mnemonic := by decide

theorem decode_of_selectedBy {r : OpcodeRow} (hr : r ∈ opcodeRows) {w : Word} (h : r.selectedBy w = true) :
    (decode w).map Instr.mnemonic = .ok r.mnemonic := by
  have hw : w &&& r.mask = r.matchBits := beq_iff_eq.1 h
  rcases opcodeRow_cases hr with hMask | rfl | rfl
  · rw [hMask, and_allOnes] at hw
    rw [hw]
    exact decode_matchBits r hr
  · have hOpc : opcField w = 0x04 := (selects_f24 w 0x04 (by decide)).1 hw
    simp [decode, hOpc, formatF24, Except.map, Instr.mnemonic]
  · obtain ⟨hOpc, hUpper⟩ := (selects_f8 w 0x10 (by decide)).1 hw
    simp [decode, hOpc, formatF8, hUpper, Except.map, Instr.mnemonic]

/-- A word that decodes is an encoding, which selects a row; the mnemonic says which. -/
theorem selectedBy_of_decode {r : OpcodeRow} (hr : r ∈ opcodeRows) {w : Word} {i : Instr} (h : decode w = .ok i)
    (hName : i.mnemonic = r.mnemonic) : r.selectedBy w = true := by
  obtain ⟨-, -, hwf⟩ := decode_ok h
  obtain ⟨r', hr', hName', hSelected⟩ := tableRow_statement i hwf
  rw [opcodeRows_mnemonic_injective r hr r' hr' (hName.symm.trans hName'.symm), word_eq_encode h]
  exact hSelected

/-- R69, row by row. -/
theorem selectedBy_iff {r : OpcodeRow} (hr : r ∈ opcodeRows) (w : Word) :
    r.selectedBy w = true ↔ (decode w).map Instr.mnemonic = .ok r.mnemonic := by
  refine ⟨decode_of_selectedBy hr, fun h => ?_⟩
  cases hd : decode w with
  | ok i =>
    rw [hd] at h
    exact selectedBy_of_decode hr hd (Except.ok.inj h)
  | error e =>
    rw [hd] at h
    exact absurd h nofun

/-- The opcode map has exactly one row under the mnemonic of a command. -/
theorem filter_mnemonic (i : Instr) :
    (opcodeRows.filter fun r => i.mnemonic == r.mnemonic).map OpcodeRow.mnemonic = [i.mnemonic] := by
  cases i <;> rfl

/-- Settles O3: by `selectedBy_iff` the rows kept are those under the mnemonic of the decoded command. -/
theorem decodedRowIsTheOneSelected : Obligations.DecodedRowIsTheOneSelected := by
  intro w
  change (opcodeRows.filter fun r => r.selectedBy w).map OpcodeRow.mnemonic = _
  cases hd : decode w with
  | ok i =>
    have hRows : (opcodeRows.filter fun r => r.selectedBy w) = opcodeRows.filter fun r => i.mnemonic == r.mnemonic := by
      refine List.filter_congr fun r hr => Bool.eq_iff_iff.2 ?_
      rw [selectedBy_iff hr, hd, beq_iff_eq]
      exact ⟨Except.ok.inj, congrArg Except.ok⟩
    rw [hRows, filter_mnemonic]
  | error e =>
    have hRows : (opcodeRows.filter fun r => r.selectedBy w) = [] := by
      refine List.filter_eq_nil_iff.2 fun r hr => ?_
      rw [selectedBy_iff hr, hd]
      exact nofun
    rw [hRows, List.map_nil]

/-! ### Illegal words (R70) -/

/-- The opcodes of format F0 (R66, R68). -/
def opcodesF0 : List Nat := [0x00, 0x01, 0x02, 0x03, 0x11, 0x20, 0x21, 0x30, 0x31]

/-- What the decoder does with a word: the check of one of the three formats, or no row. -/
inductive DecodeCase (w : Word) : Prop
  | f0 (i : Instr) (hOpc : opcField w ∈ opcodesF0) (h : decode w = formatF0 w i)
  | f24 (hOpc : opcField w = 0x04) (h : decode w = formatF24 w .curAdvanceBy)
  | f8 (hOpc : opcField w = 0x10) (h : decode w = formatF8 w .packByte)
  | unassigned (hF0 : opcField w ∉ opcodesF0) (hF24 : opcField w ≠ 0x04) (hF8 : opcField w ≠ 0x10)
      (h : decode w = .error .unassignedOpcode)

theorem decode_case (w : Word) : DecodeCase w := by
  by_cases hF0 : opcField w ∈ opcodesF0
  · have hCases := hF0
    simp only [opcodesF0, List.mem_cons, List.not_mem_nil, or_false] at hCases
    rcases hCases with h | h | h | h | h | h | h | h | h <;>
      exact .f0 _ hF0 (by simp only [decode, h]; rfl)
  by_cases hF24 : opcField w = 0x04
  · exact .f24 hF24 (by simp only [decode, hF24]; rfl)
  by_cases hF8 : opcField w = 0x10
  · exact .f8 hF8 (by simp only [decode, hF8]; rfl)
  refine .unassigned hF0 hF24 hF8 ?_
  simp only [opcodesF0, List.mem_cons, List.not_mem_nil, or_false, not_or] at hF0
  simp only [decode, hF0, hF24, hF8, if_false]

theorem formatF0_error (w : Word) (i : Instr) (e : IllegalWord) :
    formatF0 w i = .error e ↔ e = .mustBeZero ∧ imm24Field w ≠ 0 := by
  unfold formatF0
  by_cases hz : imm24Field w = 0
  · simp [hz]
  · simp [hz, eq_comm]

theorem formatF8_error (w : Word) (f : Byte → Instr) (e : IllegalWord) :
    formatF8 w f = .error e ↔ e = .mustBeZero ∧ upper16Field w ≠ 0 := by
  unfold formatF8
  by_cases hz : upper16Field w = 0
  · simp [hz]
  · simp [hz, eq_comm]

theorem decode_unassignedOpcode_iff (w : Word) :
    decode w = .error .unassignedOpcode ↔ opcField w ∉ opcodesF0 ∧ opcField w ≠ 0x04 ∧ opcField w ≠ 0x10 := by
  cases decode_case w with
  | f0 i hOpc h => simp [h, formatF0_error, hOpc]
  | f24 hOpc h => simp [h, formatF24, hOpc]
  | f8 hOpc h => simp [h, formatF8_error, hOpc]
  | unassigned hF0 hF24 hF8 h => simp [h, hF0, hF24, hF8]

theorem decode_mustBeZero_iff (w : Word) :
    decode w = .error .mustBeZero ↔
      (opcField w ∈ opcodesF0 ∧ imm24Field w ≠ 0) ∨ (opcField w = 0x10 ∧ upper16Field w ≠ 0) := by
  cases decode_case w with
  | f0 i hOpc h =>
    have hF8 : opcField w ≠ 0x10 := fun hEq => absurd (hEq ▸ hOpc) (by decide)
    simp [h, formatF0_error, hOpc, hF8]
  | f24 hOpc h => simp [h, formatF24, hOpc, opcodesF0]
  | f8 hOpc h => simp [h, formatF8_error, hOpc, opcodesF0]
  | unassigned hF0 _ hF8 h => simp [h, hF0, hF8]

/-- Outside the table's opcodes lie the four ranges of R70. -/
theorem opcField_unassigned_iff (w : Word) :
    (opcField w ∉ opcodesF0 ∧ opcField w ≠ 0x04 ∧ opcField w ≠ 0x10) ↔
      (0x05 ≤ opcField w ∧ opcField w ≤ 0x0F) ∨ (0x12 ≤ opcField w ∧ opcField w ≤ 0x1F)
        ∨ (0x22 ≤ opcField w ∧ opcField w ≤ 0x2F) ∨ (0x32 ≤ opcField w ∧ opcField w ≤ 0xFF) := by
  have hLt := opcField_lt w
  simp only [opcodesF0, List.mem_cons, List.not_mem_nil, or_false]
  omega

/-- w[23:8], read off the whole word. -/
theorem upper16Field_eq (w : Word) : upper16Field w = w.toNat / 2 ^ 8 % 2 ^ 16 := by
  simp only [upper16Field, imm24Field]
  omega

end Sys2Proof

namespace Sys2Proof.Machine

theorem issueWord_error {w : Word} {e : IllegalWord} (h : decode w = .error e) (s : State) :
    issueWord w s = .next s.acceptIllegal := by
  simp only [issueWord, h]

/-- What accepting an illegal word does, in one formula (R70, R81). -/
theorem acceptIllegal_eq (s : State) :
    s.acceptIllegal = if s.busy = true ∨ s.err ≠ .noError then { s with dropped := true }
      else { s with done := false, err := .illegal } := by
  rcases acceptIllegal_cases s with ⟨hDrop, e⟩ | ⟨hb, he, e⟩
  · rw [e, if_pos hDrop]
    rfl
  · rw [e, if_neg (by simp [hb, he])]
    rfl

/-- Settles O4: the two kinds are read off `DecodeCase`, and what acceptance does is `acceptIllegal_eq`. -/
theorem illegalWordsRaiseIllegal : Obligations.IllegalWordsRaiseIllegal := by
  intro w
  refine ⟨(decode_unassignedOpcode_iff w).trans (opcField_unassigned_iff w), ?_, fun e s h => ?_⟩
  · rw [decode_mustBeZero_iff, upper16Field_eq]
    rfl
  · rw [issueWord_error h, acceptIllegal_eq]

end Sys2Proof.Machine

/-!
PROOFS. Command acceptance (40_control.md): the pseudocode of R81 case by case of the word, what every command keeps, NOP
and CLR_STATUS.
-/
namespace Sys2Proof.Machine

/-! ### The pseudocode of R81, by the kind of word -/

theorem acceptanceR81_nop (s : State) : acceptanceR81 (encode .nop) s = s := by
  have hWord : encode .nop = 0x00000000 := by decide
  rw [hWord]
  by_cases hb : s.busy = true <;> simp [acceptanceR81, hb]

theorem acceptanceR81_clrStatus (s : State) :
    acceptanceR81 (encode .clrStatus) s = if s.busy then s.markDropped else s.clearStatus := by
  have hWord : encode .clrStatus = 0x01000000 := by decide
  rw [hWord]
  by_cases hb : s.busy = true <;> simp [acceptanceR81, State.markDropped, hb]

/-- Steps 5 to 7 of R81, from where DONE is cleared, in the model's own operations. -/
def acceptedWord (w : Word) (s : State) : State :=
  match decode w with
  | .error _ => s.raise .illegal
  | .ok i => s.withGeometry (perform i)

theorem acceptedWord_error {w : Word} {e : IllegalWord} (hd : decode w = .error e) :
    acceptedWord w = fun s => s.raise .illegal := by
  funext s
  simp only [acceptedWord, hd]

theorem acceptedWord_ok {w : Word} {i : Instr} (hd : decode w = .ok i) :
    acceptedWord w = fun s => s.withGeometry (perform i) := by
  funext s
  simp only [acceptedWord, hd]

/-- Past NOP and CLR_STATUS (steps 2 and 3), the drops of steps 1 and 4 are those of the gate. -/
theorem acceptanceR81_eq_gate {w : Word} (h0 : w ≠ 0x00000000) (h1 : w ≠ 0x01000000) (s : State) :
    acceptanceR81 w s = s.gate (acceptedWord w) := by
  unfold acceptanceR81 State.gate
  by_cases hb : s.busy = true
  · rw [if_pos hb, if_pos h0, if_pos hb, State.markDropped]
  rw [if_neg hb, if_neg h0, if_neg h1, if_neg hb]
  by_cases he : s.err ≠ .noError
  · rw [if_pos he, if_pos he, State.markDropped]
  rw [if_neg he, if_neg he]
  cases hd : decode w with
  | error e =>
    rw [acceptedWord_error hd]
    rfl
  | ok i =>
    rw [acceptedWord_ok hd]
    simp only [State.withGeometry, State.W_eq_zero, State.H_eq_zero]
    rfl

theorem acceptanceR81_of_decode_error {w : Word} {e : IllegalWord} (hd : decode w = .error e) (s : State) :
    acceptanceR81 w s = s.acceptIllegal := by
  have h0 : w ≠ 0x00000000 := by rintro rfl; exact absurd hd nofun
  have h1 : w ≠ 0x01000000 := by rintro rfl; exact absurd hd nofun
  rw [acceptanceR81_eq_gate h0 h1, acceptedWord_error hd, State.acceptIllegal]

theorem acceptanceR81_of_decode_ok {w : Word} {i : Instr} (hd : decode w = .ok i) (hNop : i ≠ .nop)
    (hClr : i ≠ .clrStatus) (s : State) : acceptanceR81 w s = s.accept (perform i) := by
  have h0 : w ≠ 0x00000000 := by rintro rfl; exact hNop (Except.ok.inj hd).symm
  have h1 : w ≠ 0x01000000 := by rintro rfl; exact hClr (Except.ok.inj hd).symm
  rw [acceptanceR81_eq_gate h0 h1, acceptedWord_ok hd, State.accept]

/-- Settles O6: an illegal word, NOP, CLR_STATUS and every other command each have the pseudocode's own equation. -/
theorem acceptanceFollowsR81 : Obligations.AcceptanceFollowsR81 := by
  intro w s
  cases hd : decode w with
  | error e => rw [issueWord_error hd, acceptanceR81_of_decode_error hd]
  | ok i =>
    rw [issueWord_ok hd]
    by_cases hNop : i = .nop
    · subst hNop
      rw [word_eq_encode hd, acceptanceR81_nop]
      rfl
    by_cases hClr : i = .clrStatus
    · subst hClr
      rw [word_eq_encode hd, acceptanceR81_clrStatus]
      rfl
    rw [exec_eq_accept i s hNop hClr, acceptanceR81_of_decode_ok hd hNop hClr]

/-! ### What every command keeps -/

/-- Settles O9: each outcome of a command leaves the host's registers, NAME and PAY alone; CUR_ADVANCE_BY does so move
by move. -/
theorem commandsAnswerAndKeepHostRegisters : Obligations.CommandsAnswerAndKeepHostRegisters := by
  intro i s
  obtain ⟨t, he, hMove⟩ := exec_move i s
  refine ⟨t, he, ?_⟩
  cases hMove with
  | curAdvanceBy n => simp
  | nop | clrStatus | dropped | config | bounds | curReset | curAdvance | packByte | unpackByte | planEncode
  | planEncodeFails | planDecode | planDecodeFails | encode | decode =>
    exact ⟨rfl, rfl, rfl, rfl, rfl, rfl, rfl, rfl, rfl⟩

/-! ### NOP and CLR_STATUS -/

/-- Settles O12: a word from 0x00000001 to 0x00FFFFFF has NOP's opcode and a set bit in IMM24. -/
theorem nopDoesNothing : Obligations.NopDoesNothing := by
  refine ⟨by decide, fun _ => rfl, fun w hLow hHigh => ?_⟩
  have hOpc : opcField w = 0 := Nat.div_eq_of_lt (by omega)
  have hImm : imm24Field w ≠ 0 := by
    rw [imm24Field, Nat.mod_eq_of_lt (by omega)]
    omega
  exact (decode_mustBeZero_iff w).2 (.inl ⟨by simp [hOpc, opcodesF0], hImm⟩)

/-- Settles O13: BUSY alone decides whether CLR_STATUS is dropped. -/
theorem clrStatusReturnsToIdle : Obligations.ClrStatusReturnsToIdle := by
  refine ⟨by decide, fun s => ⟨fun hb => ?_, fun hb => ?_⟩⟩
  · exact congrArg Host.Outcome.next (if_pos hb)
  · exact congrArg Host.Outcome.next (if_neg (Bool.eq_false_iff.1 hb))

end Sys2Proof.Machine

/-!
PROOFS. The pixel cursor's commands (41_cursor.md): CUR_RESET, CUR_ADVANCE and CUR_ADVANCE_BY in a state that is ready
and with a zero geometry, the closed form of R94, and CUR_ADVANCE_BY as repeated CUR_ADVANCE.
-/
namespace Sys2Proof.Machine

/-! ### Steps 6 and 7 of R81, for any command that is accepted -/

theorem exec_ready (i : Instr) {s : State} (hr : s.ready) (hNop : i ≠ .nop) (hClr : i ≠ .clrStatus) :
    exec i s = .next (perform i s.clearDone) := by
  rw [exec_eq_accept i s hNop hClr, State.accept_ready hr]

theorem exec_zeroGeometry (i : Instr) {s : State} (hz : s.zeroGeometry) (hNop : i ≠ .nop) (hClr : i ≠ .clrStatus) :
    exec i s = .next (s.clearDone.raise .config) := by
  rw [exec_eq_accept i s hNop hClr, State.accept_zeroGeometry hz]

/-! ### One step of the cursor -/

/-- `step1` in the fields' own arithmetic (R89): storing a position drops the same high bits as adding in the field. -/
theorem State.advance_eq_fields (s : State) :
    s.advance = { s with
      curCol := if s.curCol.toNat + 1 = s.W then 0 else s.curCol + 1
      curRow := if s.curCol.toNat + 1 = s.W then s.curRow + 1 else s.curRow } := by
  by_cases hLast : s.curCol.toNat + 1 = s.W <;>
    simp [State.advance, State.setCursor, step1, hLast, BitVec.ofNat_add]

theorem performCurAdvance_above {s : State} (h : s.curRow.toNat < s.H) : performCurAdvance s = s.advance :=
  if_neg (Nat.not_le.2 h)

theorem performCurAdvance_atEnd {s : State} (h : s.H ≤ s.curRow.toNat) : performCurAdvance s = s.raise .bounds :=
  if_pos h

/-- DONE is no part of R32. -/
theorem State.CursorOk.clearDone {s : State} (h : s.CursorOk) : s.clearDone.CursorOk := h.of_eq rfl rfl rfl rfl

/-! ### Many steps of the cursor -/

theorem performCurAdvanceBy_fits {n : Nat} {s : State} (h : s.cursor + n ≤ s.npix) :
    performCurAdvanceBy n s = State.advanceTimes n s :=
  if_neg (Nat.not_lt.2 h)

theorem performCurAdvanceBy_past {n : Nat} {s : State} (h : s.npix < s.cursor + n) :
    performCurAdvanceBy n s = s.raise .bounds :=
  if_pos h

theorem exec_curAdvanceBy_fits {n : Nat} {s : State} (hr : s.ready) (hn : s.cursor + n ≤ s.npix) :
    exec (.curAdvanceBy n) s = .next (State.advanceTimes n s.clearDone) := by
  rw [exec_ready (.curAdvanceBy n) hr nofun nofun]
  exact congrArg _ (performCurAdvanceBy_fits (s := s.clearDone) hn)

/-- The closed form of R94 for the command: `advanceTimes_eq` under acceptance. -/
theorem exec_curAdvanceBy_eq {n : Nat} {s : State} (hr : s.ready) (hc : s.CursorOk) (hn : s.cursor + n ≤ s.npix) :
    exec (.curAdvanceBy n) s = .next (s.clearDone.setCursor (pix s.W (s.cursor + n))) := by
  obtain ⟨-, -, hw, hh⟩ := State.ready_of hr
  rw [exec_curAdvanceBy_fits hr hn, State.advanceTimes_eq n hc.clearDone hw hh hn]
  rfl

/-! ### Repeated CUR_ADVANCE -/

/-- A cursor with a pixel left is above row H. -/
theorem State.CursorOk.row_lt {s : State} (h : s.CursorOk) (hw : s.W ≠ 0) (hh : s.H ≠ 0)
    (hn : s.cursor < s.npix) : s.curRow.toNat < s.H :=
  Nat.lt_of_not_le fun hge => Nat.ne_of_lt hn ((h.row_ge_iff hw hh).1 hge)

theorem State.CursorOk.cursor_advance {s : State} (h : s.CursorOk) (hw : s.W ≠ 0) (hh : s.H ≠ 0)
    (hn : s.cursor < s.npix) : s.advance.cursor = s.cursor + 1 := by
  rw [State.advance_eq h hw hh]
  exact s.cursor_setCursor_pix _ hn

theorem exec_curAdvance_of_cursor_lt {s : State} (hr : s.ready) (hc : s.CursorOk) (hn : s.cursor < s.npix) :
    exec .curAdvance s = .next s.clearDone.advance := by
  obtain ⟨-, -, hw, hh⟩ := State.ready_of hr
  rw [exec_ready .curAdvance hr nofun nofun]
  exact congrArg _ (performCurAdvance_above (s := s.clearDone) (hc.row_lt hw hh hn))

/-- The first command clears DONE; the later ones find it clear, and each meets the invariant of R32 again. -/
theorem execTimes_curAdvance (n : Nat) {s : State} (hr : s.ready) (hc : s.CursorOk)
    (hn : s.cursor + (n + 1) ≤ s.npix) :
    execTimes .curAdvance (n + 1) s = .next (State.advanceTimes (n + 1) s.clearDone) := by
  induction n generalizing s with
  | zero =>
    rw [execTimes, exec_curAdvance_of_cursor_lt hr hc hn]
    rfl
  | succ n ih =>
    have hLeft : s.cursor < s.npix := by omega
    obtain ⟨-, -, hw, hh⟩ := State.ready_of hr
    have hDone : s.clearDone.CursorOk := hc.clearDone
    have hReady : s.clearDone.advance.ready := hr
    have hOk : s.clearDone.advance.CursorOk := hDone.advance hw hh (hDone.row_lt hw hh hLeft)
    have hCur : s.clearDone.advance.cursor = s.cursor + 1 := hDone.cursor_advance hw hh hLeft
    have hFits : s.clearDone.advance.cursor + (n + 1) ≤ s.clearDone.advance.npix := by
      rw [hCur, State.advance_npix, State.clearDone_npix]
      omega
    rw [execTimes, exec_curAdvance_of_cursor_lt hr hc hLeft]
    exact ih hReady hOk hFits

/-! ### The statements -/

/-- Settles O15: the three outcomes are those of `performCurAdvance` and of a zero geometry. -/
theorem curAdvanceMovesOnePixel : Obligations.CurAdvanceMovesOnePixel := by
  refine ⟨by decide, fun s => ⟨fun hr hRow => ?_, fun hr hRow => ?_, fun hz => exec_zeroGeometry _ hz nofun nofun⟩⟩
  · rw [exec_ready .curAdvance hr nofun nofun]
    exact congrArg _ ((performCurAdvance_above (s := s.clearDone) hRow).trans s.clearDone.advance_eq_fields)
  · rw [exec_ready .curAdvance hr nofun nofun]
    exact congrArg _ (performCurAdvance_atEnd (s := s.clearDone) hRow)

/-- Settles O16: SEEK is the first clause again, from the origin that CUR_RESET leaves. -/
theorem curAdvanceByReachesPix : Obligations.CurAdvanceByReachesPix := by
  intro s n hr hc
  refine ⟨fun hn => exec_curAdvanceBy_eq hr hc hn, fun hn => ?_⟩
  have hOrigin : (s.clearDone.setCursor (0, 0)).cursor = 0 := s.clearDone.cursor_setCursor_origin
  have hReady : (s.clearDone.setCursor (0, 0)).ready := hr
  refine ⟨s.clearDone.setCursor (0, 0), exec_ready .curReset hr nofun nofun, ?_⟩
  rw [exec_curAdvanceBy_eq hReady (State.CursorOk_origin _) (by rw [hOrigin, Nat.zero_add]; exact hn), hOrigin,
    Nat.zero_add]
  rfl

/-- Settles O18: both sides are n steps from the state with DONE cleared. -/
theorem curAdvanceByIsRepeatedCurAdvance : Obligations.CurAdvanceByIsRepeatedCurAdvance := by
  intro s n hr hc hPos hn
  obtain ⟨m, rfl⟩ := Nat.exists_eq_add_of_le' hPos
  rw [exec_curAdvanceBy_fits hr hn, execTimes_curAdvance m hr hc hn]

/-- Settles O14: CUR_RESET has no bounds check, so readiness alone decides. -/
theorem curResetMovesToOrigin : Obligations.CurResetMovesToOrigin :=
  ⟨by decide, fun _ => ⟨fun hr => exec_ready _ hr nofun nofun, fun hz => exec_zeroGeometry _ hz nofun nofun⟩⟩

/-- A count below 2^24 shares no bit with the opcode above it, so adding is OR (R73). -/
theorem encode_curAdvanceBy_eq_or {n : Nat} (hn : n < 2 ^ 24) :
    encode (.curAdvanceBy n) = 0x04000000 ||| BitVec.ofNat 32 n := by
  have hOr : 4 * 2 ^ 24 + n = 4 * 2 ^ 24 ||| n := by
    rw [Nat.mul_comm, Nat.two_pow_add_eq_or_of_lt hn]
  calc encode (.curAdvanceBy n) = BitVec.ofNat 32 (4 * 2 ^ 24 + n) := rfl
    _ = BitVec.ofNat 32 (4 * 2 ^ 24) ||| BitVec.ofNat 32 n := by rw [hOr, BitVec.ofNat_or]

/-- Settles O17: the encoding, and the two raises, both before any move. -/
theorem curAdvanceByChecksFirst : Obligations.CurAdvanceByChecksFirst := by
  refine ⟨fun n hn => encode_curAdvanceBy_eq_or (Nat.lt_succ_of_le hn), fun s n => ⟨fun hr hn => ?_, fun hz => ?_⟩⟩
  · rw [exec_ready (.curAdvanceBy n) hr nofun nofun]
    exact congrArg _ (performCurAdvanceBy_past (s := s.clearDone) hn)
  · exact exec_zeroGeometry _ hz nofun nofun

end Sys2Proof.Machine

/-!
PROOFS. The bit codec (42_bitcodec.md): one channel byte, a pair packed and unpacked, and the commands PACK_BYTE and
UNPACK_BYTE in a state that is ready and with a zero geometry.
-/
namespace Sys2Proof.Machine

/-! ### One channel byte (R98) -/

/-- The mask keeps bits [7:1] and OR puts t below them, as `setLSB` does by arithmetic. -/
theorem setLSB_eq_or (v : Byte) {t : Nat} (ht : t < 2) : setLSB v t = (v &&& 0xFE) ||| BitVec.ofNat 8 t := by
  have hOr : ((v &&& 0xFE) ||| BitVec.ofNat 8 t).toNat = v.toNat &&& 254 ||| t := by
    rw [BitVec.toNat_or, BitVec.toNat_and, BitVec.toNat_ofNat, Nat.mod_eq_of_lt (by omega)]
    rfl
  refine BitVec.eq_of_toNat_eq (Nat.ext_div_mod (n := 2) ?_ ?_)
  · have hMask : v.toNat / 2 &&& 127 = v.toNat / 2 := by
      have := v.isLt
      rw [Nat.and_two_pow_sub_one_eq_mod _ 7, Nat.mod_eq_of_lt (by omega)]
    rw [setLSB_div v t ht, hOr, Nat.or_div_two, Nat.and_div_two, hMask, Nat.div_eq_of_lt ht, Nat.or_zero]
  · have hMask : (v.toNat &&& 254) % 2 = 0 := by
      rw [Nat.and_mod_two_pow (n := 1)]
      exact Nat.and_zero _
    rw [setLSB_mod v t ht, hOr, Nat.or_mod_two_pow (n := 1), pow_one, hMask, Nat.zero_or, Nat.mod_eq_of_lt ht]

theorem setLSB_eq_self_iff (v : Byte) {t : Nat} (ht : t < 2) : setLSB v t = v ↔ v.toNat % 2 = t :=
  ⟨fun h => by rw [← setLSB_mod v t ht, h],
    fun h => BitVec.eq_of_toNat_eq (Nat.ext_div_mod (setLSB_div v t ht) ((setLSB_mod v t ht).trans h.symm))⟩

/-- Settles O19: the parity is all that `setLSB` writes, so its arithmetic form gives the bounds. -/
theorem setLsbSetsOnlyTheParity : Obligations.SetLsbSetsOnlyTheParity := by
  intro v t ht
  have hDiv : (setLSB v t).toNat / 2 = v.toNat / 2 := setLSB_div v t ht
  exact ⟨setLSB_toNat v t ht, setLSB_eq_or v ht, hDiv, by omega, by omega, setLSB_eq_self_iff v ht⟩

/-! ### A pair packed and unpacked (R101) -/

theorem memByte_packPair_channel (p : Nat) (c : Byte) (m : Memory) {i : Nat} (hi : i < 8) :
    memByte .car (packPair p c m) (4 * p + i) = setLSB (memByte .car m (4 * p + i)) (bitOf c i) := by
  rw [memByte_packPair, if_pos (by omega), Nat.add_sub_cancel_left]

theorem memByte_packPair_outside (p : Nat) (c : Byte) (m : Memory) {a : Nat} (ha : ¬(4 * p ≤ a ∧ a < 4 * p + 8)) :
    memByte .car (packPair p c m) a = memByte .car m a := by
  rw [memByte_packPair, if_neg ha]

/-- Bits [7:1] of every byte of CAR survive a pack, inside the pair and outside it. -/
theorem memByte_packPair_div (p : Nat) (c : Byte) (m : Memory) (a : Nat) :
    (memByte .car (packPair p c m) a).toNat / 2 = (memByte .car m a).toNat / 2 := by
  rw [memByte_packPair]
  split
  · exact setLSB_div _ _ (bitOf_lt c _)
  · rfl

theorem unpackPair_packPair (p : Nat) (c : Byte) (m : Memory) : unpackPair p (packPair p c m) = c :=
  unpackPair_of_parities p _ c fun i hi => by
    rw [memByte_packPair_channel p c m hi, setLSB_mod _ _ (bitOf_lt c i)]

/-- The last pack of a pair wins: each of its cells is overwritten, and canonical memories with the same cells are
equal. -/
theorem packPair_packPair (p : Nat) (c c' : Byte) {m : Memory} (hm : m.wf = true) :
    packPair p c' (packPair p c m) = packPair p c' m := by
  refine Memory.ext_of_find _ _ (packPair_wf p c' _ (packPair_wf p c m hm)) (packPair_wf p c' m hm) fun a => ?_
  by_cases ha : 4 * p ≤ a ∧ a < 4 * p + 8
  · simp only [find_packPair, memByte_packPair, if_pos ha, setLSB_setLSB _ _ _ (bitOf_lt c _) (bitOf_lt c' _)]
  · simp only [find_packPair, if_neg ha]

/-- Settles O20: a byte that keeps bits [7:1] moves by at most 1, and idempotence is the last pack winning over an
equal one. -/
theorem packUnpackProperties : Obligations.PackUnpackProperties := by
  intro p c m
  refine ⟨unpackPair_packPair p c m, fun a => ?_, fun hm =>
    ⟨packPair_packPair p c c hm, fun c2 => packPair_packPair p c c2 hm⟩⟩
  have hDiv := memByte_packPair_div p c m a
  exact ⟨by omega, by omega, hDiv, memByte_packPair_outside p c m⟩

/-! ### The two commands -/

theorem performPackByte_fits (c : Byte) {s : State} (h : s.cursor + 2 ≤ s.npix) :
    performPackByte c s = s.packAt s.cursor c :=
  if_neg (Nat.not_lt.2 h)

theorem performPackByte_past (c : Byte) {s : State} (h : s.npix < s.cursor + 2) :
    performPackByte c s = s.raise .bounds :=
  if_pos h

theorem performUnpackByte_fits {s : State} (h : s.cursor + 2 ≤ s.npix) :
    performUnpackByte s = s.unpackAt s.cursor :=
  if_neg (Nat.not_lt.2 h)

theorem performUnpackByte_past {s : State} (h : s.npix < s.cursor + 2) : performUnpackByte s = s.raise .bounds :=
  if_pos h

/-- An operand below 2^24 shares no bit with the opcode above it, so adding is OR (R73). -/
theorem encode_eq_or {i : Instr} (h : i.operand < 2 ^ 24) :
    encode i = BitVec.ofNat 32 (2 ^ 24 * i.opc) ||| BitVec.ofNat 32 i.operand := by
  rw [encode, Nat.mul_comm, Nat.two_pow_add_eq_or_of_lt h, BitVec.ofNat_or]

theorem encode_packByte_eq_or (c : Byte) : encode (.packByte c) = 0x10000000 ||| c.setWidth 32 := by
  have hOperand : c.toNat < 2 ^ 24 := c.isLt.trans (by decide)
  rw [encode_eq_or (i := .packByte c) hOperand]
  exact congrArg _ (BitVec.ofNat_toNat 32 c)

theorem decode_eq_packByte_iff (w : Word) (c : Byte) :
    decode w = .ok (.packByte c) ↔ w = 0x10000000 ||| c.setWidth 32 := by
  rw [← encode_packByte_eq_or]
  exact ⟨word_eq_encode, fun h => h ▸ decode_encode rfl⟩

/-- Settles O21: the new CAR is the pair at the cursor packed, byte by byte as `memByte_packPair` gives it. -/
theorem packByteEmbedsTheByte : Obligations.PackByteEmbedsTheByte := by
  refine ⟨decode_eq_packByte_iff, fun s c => ⟨fun hr hFits => ?_, fun hr hPast => ?_, fun hz =>
    exec_zeroGeometry _ hz nofun nofun⟩⟩
  · refine ⟨packPair s.cursor c s.car, ?_, fun i hi => memByte_packPair_channel s.cursor c s.car hi,
      fun a ha => memByte_packPair_outside s.cursor c s.car (by omega)⟩
    rw [exec_ready (.packByte c) hr nofun nofun]
    exact congrArg _ (performPackByte_fits c (s := s.clearDone) hFits)
  · rw [exec_ready (.packByte c) hr nofun nofun]
    exact congrArg _ (performPackByte_past c (s := s.clearDone) hPast)

/-- Settles O22: DATA_OUT takes the pair at the cursor unpacked, whose bits are its parities. -/
theorem unpackByteReadsTheByte : Obligations.UnpackByteReadsTheByte := by
  refine ⟨by decide, fun s => ⟨fun hr hFits => ?_, fun hr hPast => ?_, fun hz => exec_zeroGeometry _ hz nofun nofun⟩⟩
  · refine ⟨unpackPair s.cursor s.car, ?_, bitOf_unpackPair s.cursor s.car⟩
    rw [exec_ready .unpackByte hr nofun nofun]
    exact congrArg _ (performUnpackByte_fits (s := s.clearDone) hFits)
  · rw [exec_ready .unpackByte hr nofun nofun]
    exact congrArg _ (performUnpackByte_past (s := s.clearDone) hPast)

end Sys2Proof.Machine

/-!
PROOFS. The capacity planner (43_planner.md): PLAN_ENCODE and PLAN_DECODE in a state that is ready, with both outcomes of
the plan, and with a zero geometry.
-/
namespace Sys2Proof.Machine

/-- Settles O23: the two results of R109 by whether the header fits, each written to the registers. -/
theorem planEncodeWritesThePlan : Obligations.PlanEncodeWritesThePlan := by
  refine ⟨by decide, fun s => ⟨fun hr hFits => ?_, fun hr hShort => ?_, fun hz => exec_zeroGeometry _ hz nofun nofun⟩⟩
  · rw [exec_planEncode_ready hr]
    exact congrArg _ (performPlanEncode_fits (s := s.clearDone) hFits)
  · rw [exec_planEncode_ready hr]
    exact congrArg _ (performPlanEncode_fails (s := s.clearDone) hShort)

/-- Settles O24: the two results of R111 by whether the carrier holds the 36 pixels of the shortest header. -/
theorem planDecodeWritesMaxbytes : Obligations.PlanDecodeWritesMaxbytes := by
  refine ⟨by decide, fun s => ⟨fun hr hFits => ?_, fun hr hShort => ?_, fun hz => exec_zeroGeometry _ hz nofun nofun⟩⟩
  · rw [exec_ready .planDecode hr nofun nofun]
    exact congrArg _ (performPlanDecode_fits (s := s.clearDone) hFits)
  · rw [exec_ready .planDecode hr nofun nofun]
    exact congrArg _ (performPlanDecode_fails (s := s.clearDone) hShort)

end Sys2Proof.Machine

/-!
PROOFS. The header frame (44_header.md): the fields of a serialized header one by one, the bytes E_HDR fetches, the
parser on the stream of a header, and the magic compare of D_MAGIC.
-/
namespace Sys2Proof.Machine

/-! ### Where each field of a serialized header stands (R118) -/

@[simp] theorem headerBytes_length (name : List Byte) (L : Nat) : (headerBytes name L).length = 18 + name.length := by
  simp only [headerBytes, List.length_append, magic_length, List.length_cons, List.length_nil]
  omega

theorem headerBytes_magic (name : List Byte) (L : Nat) {i : Nat} (hi : i < 12) :
    (headerBytes name L)[i]? = some (Config.magicAt i) := by
  have hMagic : i < Config.magic.length := hi
  rw [headerBytes_append, List.getElem?_append_left hMagic, Config.magicAt, List.getD_eq_getElem _ _ hMagic]
  exact List.getElem?_eq_getElem hMagic

/-- Past the tag, positions count from the filename length. -/
theorem headerBytes_afterMagic (name : List Byte) (L k : Nat) :
    (headerBytes name L)[12 + k]? = (digit256 name.length 0 :: digit256 name.length 1 :: (name
      ++ [digit256 L 0, digit256 L 1, digit256 L 2, digit256 L 3]))[k]? := by
  rw [headerBytes_append, List.getElem?_append_right (Nat.le_add_right 12 k), magic_length, Nat.add_sub_cancel_left]

theorem headerBytes_fnlen (name : List Byte) (L : Nat) {k : Nat} (hk : k < 2) :
    (headerBytes name L)[12 + k]? = some (digit256 name.length k) := by
  rw [headerBytes_afterMagic]
  match k, hk with
  | 0, _ => rfl
  | 1, _ => rfl

/-- Past the filename length, positions count from the name. -/
theorem headerBytes_afterFnlen (name : List Byte) (L k : Nat) :
    (headerBytes name L)[14 + k]? = (name ++ [digit256 L 0, digit256 L 1, digit256 L 2, digit256 L 3])[k]? := by
  rw [show 14 + k = 12 + (k + 2) by omega, headerBytes_afterMagic]
  rfl

theorem headerBytes_name {name : List Byte} (L : Nat) {k : Nat} (hk : k < name.length) :
    (headerBytes name L)[14 + k]? = name[k]? := by
  rw [headerBytes_afterFnlen, List.getElem?_append_left hk]

theorem headerBytes_paylen (name : List Byte) (L : Nat) {k : Nat} (hk : k < 4) :
    (headerBytes name L)[14 + (name.length + k)]? = some (digit256 L k) := by
  rw [headerBytes_afterFnlen, List.getElem?_append_right (Nat.le_add_right _ k), Nat.add_sub_cancel_left]
  match k, hk with
  | 0, _ => rfl
  | 1, _ => rfl
  | 2, _ => rfl
  | 3, _ => rfl

/-! ### The same fields as `hbyte` finds them -/

theorem State.hbyte_magic (s : State) {i : Nat} (hi : i < 12) : s.hbyte i = Config.magicAt i := if_pos hi

theorem State.hbyte_fnlen (s : State) {k : Nat} (hk : k < 2) : s.hbyte (12 + k) = digit256 s.fnlen.toNat k := by
  match k, hk with
  | 0, _ => rfl
  | 1, _ => rfl

/-- Past the filename length only the last two branches of `hbyte` are left. -/
theorem State.hbyte_afterFnlen (s : State) (k : Nat) : s.hbyte (14 + k) =
    if 14 + k < 14 + s.fnlen.toNat then s.memRead .name k else digit256 s.paycnt.toNat (k - s.fnlen.toNat) := by
  unfold State.hbyte
  rw [if_neg (by omega), if_neg (by omega), if_neg (by omega), Nat.add_sub_cancel_left]

theorem State.hbyte_name {s : State} {k : Nat} (hk : k < s.fnlen.toNat) : s.hbyte (14 + k) = s.memRead .name k := by
  rw [State.hbyte_afterFnlen, if_pos (by omega)]

theorem State.hbyte_paylen (s : State) (k : Nat) :
    s.hbyte (14 + (s.fnlen.toNat + k)) = digit256 s.paycnt.toNat k := by
  rw [State.hbyte_afterFnlen, if_neg (by omega), Nat.add_sub_cancel_left]

/-- A position in a header lies in one of its four fields. -/
theorem header_position_cases {i F : Nat} (hi : i < 18 + F) :
    i < 12 ∨ (∃ k < 2, i = 12 + k) ∨ (∃ k < F, i = 14 + k) ∨ ∃ k < 4, i = 14 + (F + k) := by
  rcases Nat.lt_or_ge i 12 with hMagic | hMagic
  · exact .inl hMagic
  rcases Nat.lt_or_ge i 14 with hFnlen | hFnlen
  · exact .inr (.inl ⟨i - 12, by omega, by omega⟩)
  rcases Nat.lt_or_ge i (14 + F) with hName | hName
  · exact .inr (.inr (.inl ⟨i - 14, by omega, by omega⟩))
  · exact .inr (.inr (.inr ⟨i - 14 - F, by omega, by omega⟩))

/-- Settles O26: in each field, the byte of the header and the byte of `hbyte` are the same. -/
theorem headerByteIsTheSerializedByte : Obligations.HeaderByteIsTheSerializedByte := by
  intro s i hi
  have hLength := s.bytes_length .name s.fnlen.toNat
  rcases header_position_cases hi with hMagic | ⟨k, hk, rfl⟩ | ⟨k, hk, rfl⟩ | ⟨k, hk, rfl⟩
  · rw [s.hbyte_magic hMagic, headerBytes_magic _ _ hMagic]
  · rw [s.hbyte_fnlen hk, headerBytes_fnlen _ _ hk, hLength]
  · rw [State.hbyte_name hk, headerBytes_name _ (hLength.symm ▸ hk), s.bytes_getElem? _ _ _ hk]
  · have hPaylen := headerBytes_paylen (s.bytes .name s.fnlen.toNat) s.paycnt.toNat hk
    rwa [hLength, ← s.hbyte_paylen k] at hPaylen

/-! ### The parser on a serialized header (R121 to R123) -/

/-- What the parser gives on a stream that is cut at the parser's own positions. -/
theorem parseFrame_of_fields {stream fnlen name paylen rest : List Byte}
    (hStream : stream = Config.magic ++ (fnlen ++ (name ++ (paylen ++ rest)))) (hFnlen : fnlen.length = 2)
    (hName : name.length = littleEndian fnlen) (hPaylen : paylen.length = 4) :
    parseFrame stream = some { name := name, payloadLength := littleEndian paylen, rest := rest } := by
  have hTag : stream.take 12 = Config.magic := by rw [hStream, List.take_left' magic_length]
  have hLength : ¬stream.length < 18 + name.length := by
    simp only [hStream, List.length_append, magic_length, hFnlen, hPaylen]
    omega
  have drop12 : stream.drop 12 = fnlen ++ (name ++ (paylen ++ rest)) := by
    rw [hStream, List.drop_left' magic_length]
  have drop14 : stream.drop 14 = name ++ (paylen ++ rest) := by
    rw [← List.drop_drop (i := 2) (j := 12), drop12, List.drop_left' hFnlen]
  have dropName : stream.drop (14 + name.length) = paylen ++ rest := by
    rw [← List.drop_drop, drop14, List.drop_left]
  have dropAll : stream.drop (18 + name.length) = rest := by
    rw [show 18 + name.length = 14 + name.length + 4 by omega, ← List.drop_drop, dropName, List.drop_left' hPaylen]
  unfold parseFrame
  rw [if_neg (not_not.2 hTag), drop12, List.take_left' hFnlen, ← hName]
  dsimp only
  rw [if_neg hLength, drop14, dropName, dropAll, List.take_left, List.take_left' hPaylen]

/-- Settles O27: the fields of a header have the lengths the parser cuts at, and their digits give back F and L. -/
theorem parsingTheFrameGivesItBack : Obligations.ParsingTheFrameGivesItBack := by
  intro name payload L hName hL
  refine ⟨headerBytes_length name L, ?_⟩
  have hF : littleEndian [digit256 name.length 0, digit256 name.length 1] = name.length :=
    littleEndian_digits2 name.length (by omega)
  have hStream : headerBytes name L ++ payload = Config.magic ++ ([digit256 name.length 0, digit256 name.length 1]
      ++ (name ++ ([digit256 L 0, digit256 L 1, digit256 L 2, digit256 L 3] ++ payload))) := by
    simp only [headerBytes, List.append_assoc]
  rw [parseFrame_of_fields hStream rfl hF.symm rfl, littleEndian_digits4 L hL]

/-! ### The magic compare (R137) -/

/-- Whether some of the first `k` bytes embedded in `m` differs from the tag (R26). -/
def magicDiffers (m : Memory) (k : Nat) : Bool :=
  (List.range k).any fun j => unpackPair (2 * j) m != Config.magicAt j

theorem magicDiffers_succ (m : Memory) (k : Nat) :
    magicDiffers m (k + 1) = mismatchAfter (magicDiffers m k) (unpackPair (2 * k) m) k := by
  simp only [magicDiffers, mismatchAfter, List.range_succ, List.any_append, List.any_cons, List.any_nil, Bool.or_false]

/-- After all twelve bytes MISMATCH is R121's comparison with the whole tag. -/
theorem magicDiffers_eq_false_iff (m : Memory) :
    magicDiffers m 12 = false ↔ ((List.range 12).map fun k => unpackPair (2 * k) m) = Config.magic := by
  have hTag : Config.magic = (List.range 12).map Config.magicAt := by decide
  rw [hTag, List.map_inj_left, magicDiffers, List.any_eq_false]
  simp only [bne_iff_ne, not_not]

/-- `t` is `s` after `k` bytes of the magic compare, no verdict given yet. -/
structure MagicRead (s : State) (k : Nat) (t : State) : Prop where
  seq : t.seq = .dMagic
  idx : t.idx.toNat = k
  cursor : t.cursor = 2 * k
  npix : t.npix = s.npix
  car : t.car = s.car
  err : t.err = s.err
  mismatch : t.mismatch = magicDiffers s.car k

/-- One more byte taken, as D_MAGIC takes it before its verdict. -/
theorem MagicRead.take {s t : State} {k : Nat} (h : MagicRead s k t) (hk : k < 12) (hp : 2 * (k + 1) ≤ s.npix) :
    MagicRead s (k + 1) ((t.passPair t.cursor).takeMagicByte (unpackPair t.cursor t.car)) where
  seq := h.seq
  idx := by rw [State.takeMagicByte_idx, State.passPair_idx, idx_succ_of_lt (h.idx ▸ hk) (by decide), h.idx]
  cursor := by
    have hPair : t.cursor + 2 ≤ t.npix := by rw [h.cursor, h.npix]; exact hp
    rw [State.takeMagicByte_cursor, State.cursor_passPair _ hPair, h.cursor]
    rfl
  npix := h.npix
  car := h.car
  err := h.err
  mismatch := by
    rw [State.takeMagicByte_mismatch, State.passPair_mismatch, State.passPair_idx, h.mismatch, h.idx, h.cursor, h.car,
      magicDiffers_succ]

/-- A D_MAGIC step takes the byte and then gives the verdict, if it is time for one. -/
theorem MagicRead.step {s t : State} {k : Nat} (h : MagicRead s k t) (hk : k < 12) (hp : 2 * (k + 1) ≤ s.npix) :
    ∃ u, MagicRead s (k + 1) u ∧ engineStep t = u.magicVerdict := by
  have hPair : t.cursor + 2 ≤ t.npix := by rw [h.cursor, h.npix]; exact hp
  exact ⟨_, h.take hk hp, (engineStep_dMagic h.seq).trans (stepDMagic_ok hPair)⟩

/-- Before the twelfth byte there is no verdict, so the engine only reads. -/
theorem MagicRead.run {s : State} (h : MagicRead s 0 s) {k : Nat} (hk : k < 12) (hp : 2 * k ≤ s.npix) :
    MagicRead s k (engineRun k s) := by
  induction k with
  | zero => exact h
  | succ k ih =>
    obtain ⟨u, hu, hStep⟩ := (ih (by omega) (by omega)).step (by omega) hp
    have hNot : u.idx ≠ 12 := fun e => absurd (hu.idx.symm.trans (congrArg BitVec.toNat e)) (Nat.ne_of_lt hk)
    rw [engineRun_succ, hStep, magicVerdict_more hNot]
    exact hu

/-- The twelfth step gives the verdict on the twelve bytes read. -/
theorem MagicRead.verdict {s : State} (h : MagicRead s 0 s) (hp : 24 ≤ s.npix) :
    ∃ u, MagicRead s 12 u ∧ u.idx = 12 ∧ engineRun 12 s = u.magicVerdict := by
  obtain ⟨u, hu, hStep⟩ := (h.run (k := 11) (by decide) (by omega)).step (by decide) hp
  exact ⟨u, hu, BitVec.eq_of_toNat_eq hu.idx, (engineRun_succ 11 s).trans hStep⟩

/-- Settles O39: the verdict goes by MISMATCH, which says whether the bytes differ from the tag. -/
theorem magicIsRecognisedExactly : Obligations.MagicIsRecognisedExactly := by
  intro s hSeq hIdx hMismatch hCursor hNpix
  have hStart : MagicRead s 0 s := ⟨hSeq, congrArg BitVec.toNat hIdx, hCursor, rfl, rfl, rfl, hMismatch⟩
  obtain ⟨u, hu, hIdx12, hRun⟩ := hStart.verdict (by omega)
  have hTag := magicDiffers_eq_false_iff s.car
  rw [← hu.mismatch] at hTag
  simp only [hRun]
  cases hm : u.mismatch with
  | false =>
    rw [magicVerdict_good hIdx12 hm]
    exact ⟨hu.cursor, hu.car, fun _ => ⟨rfl, rfl, hu.err⟩, fun hne => absurd (hTag.1 hm) hne⟩
  | true =>
    rw [magicVerdict_bad hIdx12 hm]
    exact ⟨hu.cursor, hu.car, fun he => absurd (hm.symm.trans (hTag.2 he)) nofun, fun _ => ⟨rfl, rfl, hm, hIdx12⟩⟩

end Sys2Proof.Machine

/-!
PROOFS. The sessions (45_session.md): acceptance of ENCODE and DECODE, when the engine moves, and each step of the
sequencer written out, state by state; what sessions leave alone, that they raise no BOUNDS and that they end; the whole
encode session, and the round trip.
-/
namespace Sys2Proof.Machine

/-! ### The session commands and the turns of the engine -/

/-- Settles O28: acceptance in a ready state and with a zero geometry. -/
theorem encodeStartsASession : Obligations.EncodeStartsASession :=
  ⟨by decide, fun _ => ⟨fun hr => exec_ready _ hr nofun nofun, fun hz => exec_zeroGeometry _ hz nofun nofun⟩⟩

/-- Settles O29: acceptance in a ready state and with a zero geometry. -/
theorem decodeStartsASession : Obligations.DecodeStartsASession :=
  ⟨by decide, fun _ => ⟨fun hr => exec_ready _ hr nofun nofun, fun hz => exec_zeroGeometry _ hz nofun nofun⟩⟩

theorem step_engine {s : State} {rest : List Turn} (h : s.turns = .engine :: rest) :
    step s = .next (engineStep (s.withTurns rest)) := step_turn h

theorem step_poll_busy {s : State} {rest : List Turn} (h : s.turns = .poll :: rest) (hb : s.busy = true) :
    step s = .next ((engineStep (s.withTurns rest)).withTurns (.poll :: rest)) :=
  (step_turn h).trans (if_pos hb)

theorem step_poll_idle {s : State} {rest : List Turn} (h : s.turns = .poll :: rest) (hb : s.busy = false) :
    step s = .next ((s.withTurns rest).give s.statusWord) :=
  (step_turn h).trans (if_neg (Bool.eq_false_iff.1 hb))

/-- Settles O30: one equation for each of the turns that let the engine move. -/
theorem engineMovesWhenItIsItsTurn : Obligations.EngineMovesWhenItIsItsTurn :=
  ⟨fun _ hb => engineStep_idle hb, fun _ hTurn => step_nil hTurn, fun _ _ hTurn => step_engine hTurn,
    fun _ _ hTurn => ⟨step_poll_busy hTurn, step_poll_idle hTurn⟩⟩

/-! ### The encode steps -/

/-- Settles O31: the two results of R109 by whether the header fits. -/
theorem ePlanPlansTheSession : Obligations.EPlanPlansTheSession := by
  intro s hq
  refine ⟨fun hFits => ?_, fun hShort => ?_⟩
  · exact (engineStep_ePlan hq).trans (stepEPlan_fits hFits)
  · exact (engineStep_ePlan hq).trans (stepEPlan_fails hShort)

/-- Settles O32: the last header byte, where IDX + 1 = HDRCNT, goes to E_PAY. -/
theorem eHdrPacksOneHeaderByte : Obligations.EHdrPacksOneHeaderByte := by
  intro s hq
  refine ⟨fun hPair => ?_, fun hPast => engineMove_bounds (.inl hq) hPast⟩
  rw [engineStep_eHdr hq]
  by_cases hLast : (s.idx + 1).toNat = s.hdrcnt.toNat
  · rw [stepEHdr_last hPair hLast, if_pos hLast, if_pos hLast]
    rfl
  · rw [stepEHdr_more hPair hLast, if_neg hLast, if_neg hLast, ← hq]
    rfl

/-- Settles O33: IDX = PAYCNT ends the session before the pair is looked at. -/
theorem ePayPacksOnePayloadByte : Obligations.EPayPacksOnePayloadByte := fun _ hq =>
  ⟨fun hEnd => (engineStep_ePay hq).trans (stepEPay_last hEnd),
    fun hMore hPair => (engineStep_ePay hq).trans (stepEPay_more hPair hMore),
    fun hMore hPast => engineMove_bounds (.inr (.inl ⟨hq, hMore⟩)) hPast⟩

/-! ### The decode steps -/

theorem stepDDepth_ok {s : State} (h : s.alphaPresent = true) : stepDDepth s = s.goto .dSize := if_pos h

theorem stepDDepth_bad {s : State} (h : s.alphaPresent = false) : stepDDepth s = s.raiseInStep .fmtDepth :=
  if_neg (Bool.eq_false_iff.1 h)

/-- Settles O34: both outcomes of each of the two checks. -/
theorem decodeChecksDepthThenSize : Obligations.DecodeChecksDepthThenSize := fun _ =>
  ⟨fun hq => ⟨fun ha => (engineStep_dDepth hq).trans (stepDDepth_bad ha),
      fun ha => (engineStep_dDepth hq).trans (stepDDepth_ok ha)⟩,
    fun hq => ⟨fun hShort => (engineStep_dSize hq).trans (stepDSize_fails hShort),
      fun hFits => (engineStep_dSize hq).trans (stepDSize_fits hFits)⟩⟩

/-- Settles O35: the byte is taken first, and the verdict looks at the IDX and MISMATCH that it leaves. -/
theorem dMagicComparesOneByte : Obligations.DMagicComparesOneByte := by
  intro s hq
  have hStep : s.cursor + 2 ≤ s.npix → engineStep s =
      ((s.passPair s.cursor).takeMagicByte (unpackPair s.cursor s.car)).magicVerdict := fun hPair =>
    (engineStep_dMagic hq).trans (stepDMagic_ok hPair)
  refine ⟨fun hPair hMore => ?_, fun hPair hTwelve hDiffers => ?_, fun hPair hTwelve hSame => ?_,
    fun hPast => engineMove_bounds (.inr (.inr (.inl hq))) hPast⟩
  · exact (hStep hPair).trans (magicVerdict_more hMore)
  · rw [hStep hPair, magicVerdict_bad hTwelve hDiffers, ← hTwelve]
    rfl
  · exact (hStep hPair).trans (magicVerdict_good hTwelve hSame)

/-- Settles O37: the bounds check of R140 decides. -/
theorem dSkipGoesToThePayload : Obligations.DSkipGoesToThePayload := fun _ hq =>
  ⟨fun hFits => (engineStep_dSkip hq).trans (stepDSkip_ok hFits),
    fun hPast => (engineStep_dSkip hq).trans (if_pos hPast)⟩

/-- Settles O38: IDX = PAYCNT ends the session before the pair is looked at. -/
theorem dPayUnpacksOnePayloadByte : Obligations.DPayUnpacksOnePayloadByte := fun _ hq =>
  ⟨fun hEnd => (engineStep_dPay hq).trans (stepDPay_last hEnd),
    fun hMore hPair => (engineStep_dPay hq).trans (stepDPay_more hPair hMore),
    fun hMore hPast => engineMove_bounds (.inr (.inr (.inr (.inr ⟨hq, hMore⟩)))) hPast⟩

/-! ### The numbers that D_HDR parses (R139)

In a state that a run reaches, the partial numbers leave room for the next digit, so nothing wraps. -/

theorem State.writeFnlenHigh_fnlen_toNat {s : State} (h : s.fnlen.toNat < 256) (c : Byte) :
    (s.writeFnlenHigh c).fnlen.toNat = s.fnlen.toNat + 256 * c.toNat := by
  have := c.isLt
  rw [State.writeFnlenHigh_fnlen, BitVec.toNat_ofNat, Nat.mod_eq_of_lt (by omega)]

theorem State.writeFnlenHigh_hdrcnt_exact {s : State} (h : s.fnlen.toNat < 256) (c : Byte) :
    (s.writeFnlenHigh c).hdrcnt.toNat = 18 + (s.fnlen.toNat + 256 * c.toNat) := by
  rw [State.writeFnlenHigh_hdrcnt_toNat, State.writeFnlenHigh_fnlen_toNat h]

theorem State.writeFnlenHigh_eq {s : State} (h : s.fnlen.toNat < 256) (c : Byte) :
    s.writeFnlenHigh c = { s with
      fnlen := BitVec.ofNat 16 (s.fnlen.toNat + 256 * c.toNat)
      hdrcnt := BitVec.ofNat 17 (18 + (s.fnlen.toNat + 256 * c.toNat)) } := by
  have hExact := State.writeFnlenHigh_fnlen_toNat h c
  rw [State.writeFnlenHigh_fnlen] at hExact
  rw [State.writeFnlenHigh, hExact]

theorem State.writePaylen_zero (s : State) (c : Byte) : s.writePaylen 0 c = { s with paycnt := c.setWidth 32 } := by
  rw [← BitVec.ofNat_toNat]
  rfl

theorem State.writePaylen_pos {k : Nat} (hk : k ≠ 0) (s : State) (c : Byte) :
    s.writePaylen k c = { s with paycnt := BitVec.ofNat 32 (s.paycnt.toNat + c.toNat * 256 ^ k) } := by
  rw [State.writePaylen, if_neg hk]

theorem State.writePaylen_paycnt_toNat {s : State} {k : Nat} (h0 : k ≠ 0) (h3 : k ≤ 3)
    (h : s.paycnt.toNat < 256 ^ k) (c : Byte) :
    (s.writePaylen k c).paycnt.toNat = s.paycnt.toNat + c.toNat * 256 ^ k := by
  have hFits : s.paycnt.toNat + c.toNat * 256 ^ k < 2 ^ 32 :=
    calc s.paycnt.toNat + c.toNat * 256 ^ k < (c.toNat + 1) * 256 ^ k := by rw [Nat.succ_mul]; omega
      _ ≤ 256 * 256 ^ k := Nat.mul_le_mul_right _ c.isLt
      _ ≤ 256 * 256 ^ 3 := Nat.mul_le_mul_left _ (Nat.pow_le_pow_right (by decide) h3)
      _ = 2 ^ 32 := by decide
  rw [State.writePaylen_paycnt, if_neg h0, BitVec.toNat_ofNat, Nat.mod_eq_of_lt hFits]

/-! ### One step of D_HDR -/

theorem engineStep_fnlenHigh {s : State} (hq : s.seq = .dHdr) (hp : s.cursor + 2 ≤ s.npix) (hi : s.idx.toNat = 1) :
    engineStep s = (s.passPair s.cursor).takeFnlenHigh (unpackPair s.cursor s.car) :=
  (engineStep_dHdr hq).trans (stepDHdr_fnlenHigh hp hi)

theorem engineStep_paylen {s : State} (hq : s.seq = .dHdr) (hp : s.cursor + 2 ≤ s.npix) (hi : 2 ≤ s.idx.toNat)
    (hf : 2 + s.fnlen.toNat ≤ s.idx.toNat) :
    engineStep s = (s.passPair s.cursor).takePaylen (unpackPair s.cursor s.car) :=
  (engineStep_dHdr hq).trans (stepDHdr_paylen hp hi hf)

/-- The digit that a byte of the payload length is. -/
theorem State.paylen_digit {s : State} {k : Nat} (hk : s.idx.toNat = 2 + s.fnlen.toNat + k) (p : Nat) :
    (s.passPair p).idx.toNat - 2 - (s.passPair p).fnlen.toNat = k := by
  rw [State.passPair_idx, State.passPair_fnlen]
  omega

theorem engineStep_paylen_more {s : State} {k : Nat} (hq : s.seq = .dHdr) (hp : s.cursor + 2 ≤ s.npix)
    (hi : 2 ≤ s.idx.toNat) (hk : s.idx.toNat = 2 + s.fnlen.toNat + k) (h3 : k < 3) :
    engineStep s = ((s.passPair s.cursor).writePaylen k (unpackPair s.cursor s.car)).setIdx (s.idx + 1) :=
  (engineStep_paylen hq hp hi (by omega)).trans (State.takePaylen_more k (State.paylen_digit hk _) h3)

/-- Settles O36: the ranges of IDX are those of R139, and the premises keep the two checked numbers exact. -/
theorem dHdrParsesOneByte : Obligations.DHdrParsesOneByte := by
  intro s hq
  refine ⟨fun hPast => engineMove_bounds (.inr (.inr (.inr (.inl hq)))) hPast, fun hPair => ⟨fun hi => ?_,
    fun hi hLow => ?_, fun hi hName => ?_, fun hi hPaylen => ?_, fun k hPos h3 hk => ?_, fun hk hPartial => ?_⟩⟩
  · rw [engineStep_dHdr hq, stepDHdr_fnlenLow hPair hi, ← BitVec.ofNat_toNat]
    rfl
  · have hExact := State.writeFnlenHigh_eq (s := s.passPair s.cursor) hLow (unpackPair s.cursor s.car)
    have hHdrcnt : ((s.passPair s.cursor).writeFnlenHigh (unpackPair s.cursor s.car)).hdrcnt.toNat
        = 18 + (s.fnlen.toNat + 256 * (unpackPair s.cursor s.car).toNat) :=
      State.writeFnlenHigh_hdrcnt_exact (s := s.passPair s.cursor) hLow _
    refine ⟨fun hFits => ?_, fun hOver => ?_⟩
    · rw [engineStep_fnlenHigh hq hPair hi,
        State.takeFnlenHigh_fits (t := s.passPair s.cursor) (hHdrcnt.le.trans hFits), hExact]
      rfl
    · rw [engineStep_fnlenHigh hq hPair hi,
        State.takeFnlenHigh_overruns (t := s.passPair s.cursor) (hOver.trans_eq hHdrcnt.symm), hExact]
      rfl
  · exact (engineStep_dHdr hq).trans (stepDHdr_name hPair hi hName)
  · rw [engineStep_paylen_more hq hPair hi (k := 0) hPaylen (by decide), State.writePaylen_zero]
    rfl
  · rw [engineStep_paylen_more hq hPair (by omega) hk h3, State.writePaylen_pos (by omega)]
    rfl
  · have hDigit : (s.passPair s.cursor).idx.toNat - 2 - (s.passPair s.cursor).fnlen.toNat = 3 :=
      State.paylen_digit (by omega) _
    have hPaycnt : ((s.passPair s.cursor).writePaylen 3 (unpackPair s.cursor s.car)).paycnt.toNat
        = s.paycnt.toNat + (unpackPair s.cursor s.car).toNat * 16777216 :=
      State.writePaylen_paycnt_toNat (s := s.passPair s.cursor) (by decide) le_rfl hPartial _
    have hExact := State.writePaylen_pos (k := 3) (by decide) (s.passPair s.cursor) (unpackPair s.cursor s.car)
    rw [engineStep_paylen hq hPair (by omega) (by omega)]
    refine ⟨fun hFits => ?_, fun hOver => ?_⟩
    · rw [State.takePaylen_last_fits 3 hDigit le_rfl (by rw [hPaycnt]; exact hFits), hExact]
      rfl
    · rw [State.takePaylen_last_overruns 3 hDigit le_rfl (by rw [hPaycnt]; exact hOver), hExact]
      rfl

/-! ### What the engine leaves alone, by the side of the session -/

/-- Of the engine's steps only those of D_HDR and D_PAY write the name and its length or the payload. -/
theorem EngineMove.nameAndPay {s t : State} (m : EngineMove s t) (hHdr : s.seq ≠ .dHdr) (hPay : s.seq ≠ .dPay) :
    t.name = s.name ∧ t.pay = s.pay ∧ t.fnlen = s.fnlen := by
  cases m with
  | fnlenLow hq | fnlenHighFits hq | fnlenHighOverruns hq | nameByte hq | paylenMore _ hq | paylenFits _ hq
  | paylenOverruns _ hq => exact absurd hq hHdr
  | takePayByte hq => exact absurd hq hPay
  | _ => exact ⟨rfl, rfl, rfl⟩

/-- The states of a decode session (R25). -/
def SeqState.decodes : List SeqState := [.dDepth, .dSize, .dMagic, .dHdr, .dSkip, .dPay]

theorem engineStep_car_of_decodes {s : State} (h : s.seq ∈ SeqState.decodes) : (engineStep s).car = s.car :=
  (engineStep_move s).car (ne_of_mem_of_not_mem h (by decide)) (ne_of_mem_of_not_mem h (by decide))

/-- Settles O41: CAR is written in two encode states, and NAME, PAY and FNLEN in two decode states. -/
theorem sessionsWriteOnlyTheirSide : Obligations.SessionsWriteOnlyTheirSide := fun s =>
  ⟨engineStep_car_of_decodes, fun h =>
    (engineStep_move s).nameAndPay (ne_of_mem_of_not_mem h (by decide)) (ne_of_mem_of_not_mem h (by decide))⟩

/-! ### The bounds hold -/

/-- Under the invariant the pair that a step needs is there: the bytes moved are fewer than the plan's, or the header's
so far. -/
theorem State.SeqOk.pair {s : State} (h : s.SeqOk) (hn : s.needsPair) : s.cursor + 2 ≤ s.npix := by
  rcases hn with hq | ⟨hq, hi⟩ | hq | hq | ⟨hq, hi⟩
  case inl =>
    obtain ⟨⟨hMax, -, hFits⟩, hlt, hCursor⟩ := (State.seqOk_eHdr hq).1 h
    omega
  case inr.inr.inl =>
    obtain ⟨hMax, hFits, hlt, hCursor⟩ := (State.seqOk_dMagic hq).1 h
    omega
  case inr.inr.inr.inl =>
    obtain ⟨hMax, hFits, hCursor, -, hHeader, -⟩ := (State.seqOk_dHdr hq).1 h
    rcases Nat.lt_or_ge s.idx.toNat 2 with hi | hi
    · omega
    · obtain ⟨hHdr, hRoom, hlt⟩ := hHeader hi
      omega
  all_goals
    obtain ⟨⟨hMax, -, hFits⟩, hle, hCursor⟩ := (State.seqOk_payload (by simp [hq])).1 h
    have hne : s.idx.toNat ≠ s.paycnt.toNat := fun e => hi (BitVec.eq_of_toNat_eq e)
    omega

theorem State.SeqOk.skip {s : State} (h : s.SeqOk) (hq : s.seq = .dSkip) : 2 * s.hdrcnt.toNat ≤ s.npix := by
  obtain ⟨⟨hMax, -, hFits⟩, -⟩ := (State.seqOk_dSkip hq).1 h
  omega

/-- A step that raises an error raises another one than BOUNDS; the steps that raise none find ERR clear. -/
theorem EngineMove.err_ne_bounds {s t : State} (m : EngineMove s t) (h : s.SeqOk) (he : s.err ≠ .bounds) :
    t.err ≠ .bounds := by
  cases m with
  | bounds hn hPast => exact absurd (h.pair hn) (Nat.not_le.2 hPast)
  | skipBounds hq hPast => exact absurd (h.skip hq) (Nat.not_le.2 hPast)
  | planFails | depthBad | sizeFails | magicBad | fnlenHighOverruns | paylenOverruns => exact nofun
  | _ => exact he

/-- Settles O50: a running session finds ERR clear, and the pair or the skip that a step needs is there. -/
theorem sessionsNeverRaiseBounds : Obligations.SessionsNeverRaiseBounds := by
  intro s hInv hb
  have hClear : s.err = .noError := (hInv.statusOk.of_busy hb).1
  exact (engineStep_move s).err_ne_bounds hInv.seqOk (by simp [hClear])

/-! ### Every session ends (R143)

Each step of a running session lowers the number of steps that it can still take: a byte moved takes two pixels of the
carrier, and the steps that move none lead on to a later state. -/

/-- A bound on the steps that a session in a state can still take, with the cursor at linear index `c` of `n` pixels. -/
def SeqState.stepsLeft (n c : Nat) : SeqState → Nat
  | .idle => 0
  | .ePlan => 2 + n / 2
  | .eHdr => 1 + (n - c) / 2
  | .ePay => 1 + (n - c) / 2
  | .dDepth => 4 + n / 2
  | .dSize => 3 + n / 2
  | .dMagic => 2 + (n - c) / 2
  | .dHdr => 2 + (n - c) / 2
  | .dSkip => 2 + (n - c) / 2
  | .dPay => 1 + (n - c) / 2
  | .done => 0
  | .abort => 0

/-- The same bound, for the state the machine is in. -/
def State.stepsLeft (s : State) : Nat := s.seq.stepsLeft s.npix s.cursor

theorem State.stepsLeft_of_seq {s : State} {q : SeqState} (h : s.seq = q) :
    s.stepsLeft = q.stepsLeft s.npix s.cursor := congrArg _ h

theorem State.stepsLeft_pos {s : State} (hb : s.busy = true) : 0 < s.stepsLeft := by
  unfold State.stepsLeft State.busy at *
  cases hq : s.seq with
  | idle | done | abort => exact absurd (hq ▸ hb) nofun
  | _ => exact Nat.add_pos_left (by decide) _

theorem State.stepsLeft_le (s : State) : s.stepsLeft ≤ 4 + s.npix / 2 := by
  unfold State.stepsLeft
  cases s.seq <;> simp only [SeqState.stepsLeft] <;> omega

/-- From which state to which a step moves a byte. -/
def SeqState.byteMoves : List (SeqState × SeqState) :=
  [(.eHdr, .eHdr), (.eHdr, .ePay), (.ePay, .ePay), (.dMagic, .dMagic), (.dMagic, .dHdr), (.dHdr, .dHdr),
    (.dHdr, .dSkip), (.dPay, .dPay)]

theorem SeqState.stepsLeft_byteMoves {n c : Nat} (hp : c + 2 ≤ n) :
    ∀ m ∈ SeqState.byteMoves, m.2.stepsLeft n (c + 2) < m.1.stepsLeft n c := by
  simp only [SeqState.byteMoves, List.forall_mem_cons, List.not_mem_nil, false_implies, implies_true, and_true,
    SeqState.stepsLeft]
  omega

theorem State.stepsLeft_lt_of_byte {s t : State} {q q' : SeqState} (hq : s.seq = q) (hq' : t.seq = q')
    (hm : (q, q') ∈ SeqState.byteMoves) (hp : s.cursor + 2 ≤ s.npix) (hn : t.npix = s.npix)
    (hc : t.cursor = s.cursor + 2) : t.stepsLeft < s.stepsLeft := by
  rw [State.stepsLeft_of_seq hq, State.stepsLeft_of_seq hq', hn, hc]
  exact SeqState.stepsLeft_byteMoves hp _ hm

theorem EngineMove.stepsLeft_lt {s t : State} (m : EngineMove s t) (h : s.SeqOk) (hb : s.busy = true) :
    t.stepsLeft < s.stepsLeft := by
  cases m with
  | rest hIdle => exact absurd (hb.symm.trans hIdle) nofun
  | planFails | bounds | sessionDone | depthBad | sizeFails | magicBad | fnlenHighOverruns | paylenOverruns
  | skipBounds => exact State.stepsLeft_pos hb
  | planFits hq =>
    rw [State.stepsLeft_of_seq hq]
    show 1 + (s.npix - _) / 2 < 2 + s.npix / 2
    omega
  | sizeFits hq =>
    rw [State.stepsLeft_of_seq hq]
    show 2 + (s.npix - _) / 2 < 3 + s.npix / 2
    omega
  | depthOk hq =>
    rw [State.stepsLeft_of_seq hq]
    show 3 + s.npix / 2 < 4 + s.npix / 2
    omega
  | skip hq hn =>
    obtain ⟨-, hCursor⟩ := (State.seqOk_dSkip hq).1 h
    have hKept : (s.setCursor (pix s.W (2 * s.hdrcnt.toNat))).cursor = s.cursor :=
      (s.cursor_setCursor_pix _ hn).trans hCursor.symm
    rw [State.stepsLeft_of_seq hq, State.stepsLeft_of_seq rfl, State.goto_cursor, hKept]
    exact Nat.add_lt_add_right (by decide : 1 < 2) _
  | hdrMore hq hp | payMore hq hp =>
    exact State.stepsLeft_lt_of_byte hq hq (by decide) hp rfl (State.cursor_packNext _ _ hp)
  | hdrLast hq hp =>
    exact State.stepsLeft_lt_of_byte (q' := .ePay) hq rfl (by decide) hp rfl
      ((State.goto_cursor _ _).trans (State.cursor_packNext _ _ hp))
  | magicMore hq hp | fnlenLow hq hp | fnlenHighFits hq hp | nameByte hq hp | paylenMore _ hq hp
  | takePayByte hq hp =>
    exact State.stepsLeft_lt_of_byte hq hq (by decide) hp rfl (State.cursor_passPair _ hp)
  | magicGood hq hp =>
    exact State.stepsLeft_lt_of_byte (q' := .dHdr) hq rfl (by decide) hp rfl
      ((State.goto_cursor _ _).trans (State.cursor_passPair _ hp))
  | paylenFits _ hq hp =>
    exact State.stepsLeft_lt_of_byte (q' := .dSkip) hq rfl (by decide) hp rfl
      ((State.goto_cursor _ _).trans (State.cursor_passPair _ hp))

/-- With no turn left each step is the engine's, so the steps left run out. -/
theorem core_run_ends (n : Nat) {s : State} (hInv : s.Inv) (hTurns : s.turns = []) (hn : s.stepsLeft ≤ n) :
    ∃ k t, k ≤ n ∧ Sys2Proof.core.run k s = .next t ∧ t.busy = false := by
  induction n generalizing s with
  | zero =>
    cases hb : s.busy with
    | false => exact ⟨0, s, le_rfl, rfl, hb⟩
    | true => exact absurd (State.stepsLeft_pos hb) (Nat.not_lt.2 hn)
  | succ n ih =>
    cases hb : s.busy with
    | false => exact ⟨0, s, Nat.zero_le _, rfl, hb⟩
    | true =>
      have hStep := step_nil hTurns
      have hLess := (engineStep_move s).stepsLeft_lt hInv.seqOk hb
      obtain ⟨-, -, -, -, -, -, hTurns', -⟩ := engineKeepsHostRegisters s
      obtain ⟨k, t, hk, hRun, hIdle⟩ := ih (runInvariantIsKept s _ hInv hStep) (hTurns'.trans hTurns) (by omega)
      exact ⟨k + 1, t, Nat.succ_le_succ hk, (core_run_next k s _ hStep).trans hRun, hIdle⟩

/-- Settles O53: a carrier of fewer than 2^32 pixels bounds the steps left. -/
theorem everySessionEnds : Obligations.EverySessionEnds := by
  intro s hInv hTurns
  have hLeft := s.stepsLeft_le
  have hCarrier := s.plan_fits_registers.1
  exact core_run_ends _ hInv hTurns (by omega)

/-! ### The stream S (R134), byte by byte -/

/-- S[j]; past the end it reads 0. -/
def State.streamByte (s : State) (L j : Nat) : Byte := (s.stream L).getD j 0

/-- Inside the header, S is the serialized header. -/
theorem State.stream_header (s : State) (L : Nat) {i : Nat} (hi : i < 18 + s.fnlen.toNat) :
    (s.stream L)[i]? = (headerBytes (s.bytes .name s.fnlen.toNat) L)[i]? := by
  have hLength : i < (headerBytes (s.bytes .name s.fnlen.toNat) L).length := by
    rwa [headerBytes_length, s.bytes_length]
  exact List.getElem?_append_left hLength

theorem State.streamByte_eq_of_header {s : State} {L i : Nat} {c : Byte} (hi : i < 18 + s.fnlen.toNat)
    (h : (headerBytes (s.bytes .name s.fnlen.toNat) L)[i]? = some c) : s.streamByte L i = c := by
  rw [State.streamByte, List.getD_eq_getElem?_getD, s.stream_header L hi, h, Option.getD_some]

/-- The byte that E_HDR fetches is the byte of S. -/
theorem State.streamByte_hbyte {s : State} {i : Nat} (hi : i < 18 + s.fnlen.toNat) :
    s.streamByte s.paycnt.toNat i = s.hbyte i :=
  State.streamByte_eq_of_header hi (headerByteIsTheSerializedByte s i hi)

/-- Past the header, S is the payload. -/
theorem State.streamByte_payload (s : State) {L i : Nat} (hi : i < L) :
    s.streamByte L (18 + s.fnlen.toNat + i) = s.memRead .pay i := by
  have hLength : (headerBytes (s.bytes .name s.fnlen.toNat) L).length = 18 + s.fnlen.toNat := by
    rw [headerBytes_length, s.bytes_length]
  have hByte : (s.stream L)[18 + s.fnlen.toNat + i]? = some (s.memRead .pay i) := by
    rw [State.stream, List.getElem?_append_right (by omega), hLength, Nat.add_sub_cancel_left]
    exact s.bytes_getElem? .pay L i hi
  rw [State.streamByte, List.getD_eq_getElem?_getD, hByte, Option.getD_some]

/-! ### The carrier with a stream embedded -/

/-- `m` after the bytes `S 0`, ..., `S (n - 1)` are packed one after another from pixel 0 on. -/
def embed (S : Nat → Byte) (m : Memory) : Nat → Memory
  | 0 => m
  | n + 1 => packPair (2 * n) (S n) (embed S m n)

theorem memByte_embed (S : Nat → Byte) (m : Memory) (n a : Nat) :
    memByte .car (embed S m n) a =
      if a < 8 * n then setLSB (memByte .car m a) (bitOf (S (a / 8)) (a % 8)) else memByte .car m a := by
  induction n with
  | zero => rfl
  | succ n ih =>
    rw [embed, memByte_packPair, ih]
    rcases (by omega : a < 8 * n ∨ (8 * n ≤ a ∧ a < 8 * n + 8) ∨ 8 * n + 8 ≤ a) with hBefore | hPair | hAfter
    · rw [if_neg (by omega), if_pos hBefore, if_pos (by omega)]
    · have hByte : a / 8 = n := by omega
      have hBit : a % 8 = a - 4 * (2 * n) := by omega
      rw [if_pos (by omega), if_neg (by omega), if_pos (by omega), hByte, hBit]
    · rw [if_neg (by omega), if_neg (by omega), if_neg (by omega)]

theorem memByte_embed_byte (S : Nat → Byte) (m : Memory) {n j i : Nat} (hj : j < n) (hi : i < 8) :
    memByte .car (embed S m n) (8 * j + i) = setLSB (memByte .car m (8 * j + i)) (bitOf (S j) i) := by
  have hByte : (8 * j + i) / 8 = j := by omega
  have hBit : (8 * j + i) % 8 = i := by omega
  rw [memByte_embed, if_pos (by omega), hByte, hBit]

theorem memByte_embed_after (S : Nat → Byte) (m : Memory) {n a : Nat} (ha : 8 * n ≤ a) :
    memByte .car (embed S m n) a = memByte .car m a := by
  rw [memByte_embed, if_neg (by omega)]

/-! ### The run of an encode session -/

/-- The encode session that starts E_HDR from `e`, once it has embedded `j` bytes and stands in state `q` at IDX `i`. -/
def State.embedding (e : State) (q : SeqState) (i j : Nat) : State :=
  { e.setCursor (pix e.W (2 * j)) with
    car := embed (e.streamByte e.paycnt.toNat) e.car j, idx := BitVec.ofNat 32 i, seq := q }

theorem State.embedding_cursor {e : State} {j : Nat} (h : 2 * j ≤ e.npix) (q : SeqState) (i : Nat) :
    (e.embedding q i j).cursor = 2 * j :=
  e.cursor_setCursor_pix _ h

theorem State.embedding_idx_toNat (e : State) (q : SeqState) {i : Nat} (hi : i < 2 ^ 32) (j : Nat) :
    (e.embedding q i j).idx.toNat = i := by
  show (BitVec.ofNat 32 i).toNat = i
  rw [BitVec.toNat_ofNat, Nat.mod_eq_of_lt hi]

theorem State.embedding_position {e : State} {j : Nat} (h : 2 * j ≤ e.npix) (q : SeqState) (i : Nat) :
    (e.embedding q i j).curCol.toNat = 2 * j % e.W ∧ (e.embedding q i j).curRow.toNat = 2 * j / e.W := by
  obtain ⟨hCol, hRow⟩ := pix_fits e (2 * j) h
  exact ⟨Nat.mod_eq_of_lt hCol, Nat.mod_eq_of_lt hRow⟩

/-- Moving one more byte. -/
theorem State.embedding_packNext (e : State) (q : SeqState) (i j : Nat) :
    (e.embedding q i j).packNext (2 * j) (e.streamByte e.paycnt.toNat j) = e.embedding q (i + 1) (j + 1) := by
  have hIdx : BitVec.ofNat 32 i + 1 = BitVec.ofNat 32 (i + 1) := (BitVec.ofNat_add i 1).symm
  calc (e.embedding q i j).packNext (2 * j) (e.streamByte e.paycnt.toNat j)
      = (e.embedding q (i + 1) (j + 1)).setIdx (BitVec.ofNat 32 i + 1) := rfl
    _ = e.embedding q (i + 1) (j + 1) := by rw [hIdx]; rfl

section EncodeRun

variable {e : State} (hPlan : e.Planned)

include hPlan

theorem State.Planned.hdrcnt_eq : e.hdrcnt.toNat = 18 + e.fnlen.toNat := by
  obtain ⟨-, hHdr, -⟩ := hPlan
  exact hHdr

/-- A planned stream fits: each of its bytes has its pair, and the counters do not wrap. -/
theorem State.Planned.byte_fits {j : Nat} (hj : j < e.hdrcnt.toNat + e.paycnt.toNat) :
    2 * j + 2 ≤ e.npix ∧ j + 1 < 2 ^ 32 := by
  obtain ⟨hMax, -, hFits⟩ := hPlan
  have := e.plan_fits_registers.1
  omega

theorem State.Planned.pair {j : Nat} (hj : j < e.hdrcnt.toNat + e.paycnt.toNat) (q : SeqState) (i : Nat) :
    (e.embedding q i j).cursor = 2 * j ∧ (e.embedding q i j).cursor + 2 ≤ (e.embedding q i j).npix := by
  have hPair := (hPlan.byte_fits hj).1
  have hCursor := State.embedding_cursor (e := e) (j := j) (by omega) q i
  exact ⟨hCursor, by rw [hCursor]; exact hPair⟩

theorem State.Planned.step_header {j : Nat} (hj : j < e.hdrcnt.toNat) :
    engineStep (e.embedding .eHdr j j) =
      if j + 1 = e.hdrcnt.toNat then e.embedding .ePay 0 (j + 1) else e.embedding .eHdr (j + 1) (j + 1) := by
  have hLt : j < e.hdrcnt.toNat + e.paycnt.toNat := by omega
  obtain ⟨hCursor, hPair⟩ := hPlan.pair hLt .eHdr j
  have hIdx := e.embedding_idx_toNat .eHdr (show j < 2 ^ 32 by have := e.hdrcnt.isLt; omega) j
  have hNext : ((e.embedding .eHdr j j).idx + 1).toNat = j + 1 := by
    rw [idx_succ _ (by have := e.hdrcnt.isLt; omega), hIdx]
  have hByte : (e.embedding .eHdr j j).hbyte j = e.streamByte e.paycnt.toNat j :=
    (State.streamByte_hbyte (s := e) (hPlan.hdrcnt_eq ▸ hj)).symm
  rw [engineStep_eHdr rfl]
  split
  · next hLast =>
    rw [stepEHdr_last hPair (hNext.trans hLast), hCursor, hIdx, hByte, State.embedding_packNext]
    rfl
  · next hMore =>
    rw [stepEHdr_more hPair (fun h => hMore (hNext.symm.trans h)), hCursor, hIdx, hByte, State.embedding_packNext]

theorem State.Planned.step_payload {i : Nat} (hi : i < e.paycnt.toNat) :
    engineStep (e.embedding .ePay i (e.hdrcnt.toNat + i)) = e.embedding .ePay (i + 1) (e.hdrcnt.toNat + (i + 1)) := by
  obtain ⟨hCursor, hPair⟩ := hPlan.pair (Nat.add_lt_add_left hi _) .ePay i
  have hIdx := e.embedding_idx_toNat .ePay (hi.trans e.paycnt.isLt) (e.hdrcnt.toNat + i)
  have hMore : (e.embedding .ePay i (e.hdrcnt.toNat + i)).idx ≠ (e.embedding .ePay i (e.hdrcnt.toNat + i)).paycnt :=
    fun h => Nat.ne_of_lt hi (hIdx.symm.trans (congrArg BitVec.toNat h))
  have hByte : (e.embedding .ePay i (e.hdrcnt.toNat + i)).memRead .pay i
      = e.streamByte e.paycnt.toNat (e.hdrcnt.toNat + i) := by
    rw [hPlan.hdrcnt_eq]
    exact (e.streamByte_payload hi).symm
  rw [engineStep_ePay rfl, stepEPay_more hPair hMore, hCursor, hIdx, hByte, State.embedding_packNext]
  rfl

theorem State.Planned.run_header {j : Nat} (hj : j < e.hdrcnt.toNat) :
    engineRun j (e.embedding .eHdr 0 0) = e.embedding .eHdr j j := by
  induction j with
  | zero => rfl
  | succ j ih => rw [engineRun_succ, ih (by omega), hPlan.step_header (by omega), if_neg (by omega)]

theorem State.Planned.run_payload {i : Nat} (hi : i ≤ e.paycnt.toNat) :
    engineRun (e.hdrcnt.toNat + i) (e.embedding .eHdr 0 0) = e.embedding .ePay i (e.hdrcnt.toNat + i) := by
  induction i with
  | zero =>
    obtain ⟨j, hj⟩ : ∃ j, e.hdrcnt.toNat = j + 1 := ⟨17 + e.fnlen.toNat, by rw [hPlan.hdrcnt_eq]; omega⟩
    rw [Nat.add_zero, hj, engineRun_succ, hPlan.run_header (by omega), hPlan.step_header (by omega), if_pos hj.symm]
  | succ i ih => rw [← Nat.add_assoc, engineRun_succ, ih (by omega), hPlan.step_payload (by omega)]; rfl

theorem State.Planned.run_busy {k : Nat} (hk : k ≤ e.hdrcnt.toNat + e.paycnt.toNat) :
    (engineRun k (e.embedding .eHdr 0 0)).busy = true := by
  rcases Nat.lt_or_ge k e.hdrcnt.toNat with hHdr | hHdr
  · rw [hPlan.run_header hHdr]
    rfl
  · obtain ⟨i, rfl⟩ := Nat.exists_eq_add_of_le hHdr
    rw [hPlan.run_payload (by omega)]
    rfl

/-- The run ends with the whole stream embedded. -/
theorem State.Planned.run_done :
    engineRun (e.hdrcnt.toNat + e.paycnt.toNat + 1) (e.embedding .eHdr 0 0) =
      (e.embedding .ePay e.paycnt.toNat (e.hdrcnt.toNat + e.paycnt.toNat)).enterDone := by
  rw [engineRun_succ, hPlan.run_payload le_rfl, engineStep_ePay rfl, stepEPay_last]
  exact BitVec.eq_of_toNat_eq (e.embedding_idx_toNat _ e.paycnt.isLt _)

end EncodeRun

/-! ### The whole encode session -/

/-- The registers after E_PLAN has written a plan that fits (R129). -/
def State.planFitting (s : State) : State :=
  s.writePlan (fittingPlan (s.npix / 2) (18 + s.fnlen.toNat) s.filesize.toNat)

/-- The payload bytes of a plan that fits (R109). -/
def State.plannedPay (s : State) : Nat := min s.filesize.toNat (s.npix / 2 - (18 + s.fnlen.toNat))

section EncodeSession

variable {s : State} (hFits : 18 + s.fnlen.toNat ≤ s.npix / 2)

include hFits

theorem State.planFitting_planned : s.planFitting.Planned := State.planned_writePlan hFits

theorem State.planFitting_paycnt_toNat : s.planFitting.paycnt.toNat = s.plannedPay := by
  have hPaycnt := performPlanEncode_paycnt_toNat hFits
  rwa [performPlanEncode_fits hFits] at hPaycnt

theorem State.planFitting_hdrcnt_toNat : s.planFitting.hdrcnt.toNat = 18 + s.fnlen.toNat :=
  (State.planFitting_planned hFits).hdrcnt_eq

theorem State.plannedStream_le : 18 + s.fnlen.toNat + s.plannedPay ≤ s.npix / 2 := by
  unfold State.plannedPay
  omega

variable (hq : s.seq = .ePlan)

include hq

theorem engineStep_ePlan_fits : engineStep s = s.planFitting.embedding .eHdr 0 0 := by
  rw [engineStep_ePlan hq, stepEPlan_fits hFits, State.embedding, pix, Nat.mul_zero, Nat.zero_mod, Nat.zero_div]
  rfl

theorem engineRun_encode_busy {k : Nat} (hk : k < 2 + (18 + s.fnlen.toNat) + s.plannedPay) :
    (engineRun k s).busy = true := by
  cases k with
  | zero => exact State.busy_of_seq hq
  | succ k =>
    rw [engineRun, engineStep_ePlan_fits hFits hq]
    refine (State.planFitting_planned hFits).run_busy ?_
    rw [State.planFitting_hdrcnt_toNat hFits, State.planFitting_paycnt_toNat hFits]
    omega

theorem engineRun_encode : engineRun (2 + (18 + s.fnlen.toNat) + s.plannedPay) s =
    (s.planFitting.embedding .ePay s.plannedPay (18 + s.fnlen.toNat + s.plannedPay)).enterDone := by
  have hRun := (State.planFitting_planned hFits).run_done
  rw [State.planFitting_hdrcnt_toNat hFits, State.planFitting_paycnt_toNat hFits, ← engineStep_ePlan_fits hFits hq]
    at hRun
  rw [← hRun, ← engineRun]
  congr 1
  omega

theorem engineRun_encode_car : (engineRun (2 + (18 + s.fnlen.toNat) + s.plannedPay) s).car =
    embed (s.streamByte s.plannedPay) s.car (18 + s.fnlen.toNat + s.plannedPay) := by
  rw [engineRun_encode hFits hq, ← State.planFitting_paycnt_toNat hFits]
  rfl

end EncodeSession

/-- Settles O51: E_PLAN leads to the run that `engineRun_encode` ends, whose carrier `memByte_embed` reads. -/
theorem encodeEmbedsTheStream : Obligations.EncodeEmbedsTheStream := by
  intro s hq
  refine ⟨fun hShort => ?_, fun hFits => ?_⟩
  · rw [engineStep_ePlan hq, stepEPlan_fails hShort]
    exact ⟨rfl, rfl, rfl⟩
  · obtain ⟨hMaxbytes, -, -⟩ := State.planFitting_planned hFits
    have hPaycnt := State.planFitting_paycnt_toNat hFits
    have hIdx := s.planFitting.embedding_idx_toNat .ePay (hPaycnt ▸ s.planFitting.paycnt.isLt)
      (18 + s.fnlen.toNat + s.plannedPay)
    have hRoom : 2 * (18 + s.fnlen.toNat + s.plannedPay) ≤ s.npix := by
      have := State.plannedStream_le hFits
      omega
    obtain ⟨hCol, hRow⟩ := State.embedding_position (e := s.planFitting) hRoom .ePay s.plannedPay
    intro t
    have ht : t = (s.planFitting.embedding .ePay s.plannedPay (18 + s.fnlen.toNat + s.plannedPay)).enterDone :=
      engineRun_encode hFits hq
    have hCar : t.car = embed (s.streamByte s.plannedPay) s.car (18 + s.fnlen.toNat + s.plannedPay) :=
      engineRun_encode_car hFits hq
    refine ⟨fun k hk => engineRun_encode_busy hFits hq hk, ?_⟩
    rw [hCar, ht]
    refine ⟨rfl, rfl, rfl, hMaxbytes, State.planFitting_hdrcnt_toNat hFits, hPaycnt, hIdx, hCol, hRow, hRoom,
      fun j i hj hi => ?_, fun a ha => ?_, rfl, rfl⟩
    · exact memByte_embed_byte _ _ hj hi
    · exact memByte_embed_after _ _ ha

/-! ### The fields of the stream as a decode session meets them (R117) -/

theorem State.streamByte_magic (s : State) (L : Nat) {i : Nat} (hi : i < 12) : s.streamByte L i = Config.magicAt i :=
  State.streamByte_eq_of_header (by omega) (headerBytes_magic _ L hi)

theorem State.streamByte_fnlen (s : State) (L : Nat) {k : Nat} (hk : k < 2) :
    s.streamByte L (12 + k) = digit256 s.fnlen.toNat k := by
  refine State.streamByte_eq_of_header (by omega) ?_
  rw [headerBytes_fnlen _ L hk, s.bytes_length]

theorem State.streamByte_name {s : State} (L : Nat) {k : Nat} (hk : k < s.fnlen.toNat) :
    s.streamByte L (14 + k) = s.memRead .name k := by
  refine State.streamByte_eq_of_header (by omega) ?_
  rw [headerBytes_name L ((s.bytes_length .name s.fnlen.toNat).symm ▸ hk), s.bytes_getElem? _ _ _ hk]

theorem State.streamByte_paylen (s : State) (L : Nat) {k : Nat} (hk : k < 4) :
    s.streamByte L (14 + s.fnlen.toNat + k) = digit256 L k := by
  have hByte := headerBytes_paylen (s.bytes .name s.fnlen.toNat) L hk
  rw [s.bytes_length, ← Nat.add_assoc] at hByte
  exact State.streamByte_eq_of_header (by omega) hByte

/-! ### A decode session on its way -/

theorem seqOk_engineRun {s : State} (h : s.SeqOk) (k : Nat) : (engineRun k s).SeqOk := by
  induction k with
  | zero => exact h
  | succ k ih =>
    rw [engineRun_succ]
    exact (engineStep_move _).seqOk ih

theorem engineStep_npix (s : State) : (engineStep s).npix = s.npix := by
  obtain ⟨hw, hh⟩ := engineStep_geometry s
  exact State.npix_of_eq hw hh

theorem engineRun_npix (k : Nat) (s : State) : (engineRun k s).npix = s.npix := by
  induction k with
  | zero => rfl
  | succ k ih => rw [engineRun_succ, engineStep_npix, ih]

/-- A step after which the session still runs has raised nothing. -/
theorem EngineMove.err_of_busy {s t : State} (m : EngineMove s t) (hb : t.busy = true) : t.err = s.err := by
  cases m.status with
  | rests e => rw [e]
  | aborts _ hq => exact absurd (hb.symm.trans (State.busy_of_seq hq)) nofun
  | ends _ _ he => exact he
  | goesOn _ _ he => exact he

/-- A decode session over the carrier of `u` stands in state `q` at IDX `i`, and has raised nothing. -/
structure Decoding (u : State) (q : SeqState) (i : Nat) (t : State) : Prop where
  seq : t.seq = q
  idx : t.idx.toNat = i
  seqOk : t.SeqOk
  npix : t.npix = u.npix
  car : t.car = u.car
  err : t.err = u.err

/-- What a step keeps in any case; where the session goes on to is left to show. -/
theorem Decoding.next {u t : State} {q q' : SeqState} {i i' : Nat} (h : Decoding u q i t)
    (hq : q ∈ SeqState.decodes) (hb : q'.isBusy = true) (hSeq : (engineStep t).seq = q')
    (hIdx : (engineStep t).idx.toNat = i') : Decoding u q' i' (engineStep t) where
  seq := hSeq
  idx := hIdx
  seqOk := (engineStep_move t).seqOk h.seqOk
  npix := (engineStep_npix t).trans h.npix
  car := (engineStep_car_of_decodes (h.seq ▸ hq)).trans h.car
  err := ((engineStep_move t).err_of_busy ((State.busy_of_seq hSeq).trans hb)).trans h.err

/-- In D_HDR the pair at the cursor is stream byte 12 + IDX. -/
theorem Decoding.headerPair {u t : State} {i : Nat} (h : Decoding u .dHdr i t) :
    t.cursor + 2 ≤ t.npix ∧ unpackPair t.cursor t.car = unpackPair (2 * (12 + i)) u.car := by
  obtain ⟨-, -, hCursor, -⟩ := (State.seqOk_dHdr h.seq).1 h.seqOk
  refine ⟨h.seqOk.pair (.inr (.inr (.inr (.inl h.seq)))), ?_⟩
  rw [hCursor, h.idx, h.car]

/-- The filename length and the first `k` bytes of the name are those of `s`. -/
def HasName (s : State) (k : Nat) (t : State) : Prop :=
  t.fnlen = s.fnlen ∧ ∀ i < k, t.memRead .name i = s.memRead .name i

theorem HasName.fnlen_eq {s t : State} {k : Nat} (hName : HasName s k t) : t.fnlen = s.fnlen := by
  obtain ⟨hFnlen, -⟩ := hName
  exact hFnlen

/-- The name of `s` and the payload length are decoded. -/
def HasHeader (s : State) (L : Nat) (t : State) : Prop := HasName s s.fnlen.toNat t ∧ t.paycnt.toNat = L

/-- D_SKIP only moves the cursor. -/
theorem HasHeader.skips {s u t : State} {L : Nat} (hHeader : HasHeader s L t) (ht : Decoding u .dSkip 0 t) :
    Decoding u .dPay 0 (engineStep t) ∧ HasHeader s L (engineStep t) := by
  have hStep := (engineStep_dSkip ht.seq).trans (stepDSkip_ok (ht.seqOk.skip ht.seq))
  refine ⟨ht.next (by decide) rfl (by rw [hStep]; rfl) (by rw [hStep]; rfl), ?_⟩
  rw [hStep]
  exact hHeader

/-- Bytes taken in order: the next one goes behind those that are there. -/
theorem State.memRead_memWrite_next {t : State} {sp : Space} {f : Nat → Byte} {k : Nat}
    (h : ∀ i < k, t.memRead sp i = f i) : ∀ i < k + 1, (t.memWrite sp k (f k)).memRead sp i = f i := by
  intro i hi
  rw [State.memRead_memWrite]
  split
  · next hNew =>
    obtain ⟨-, rfl⟩ := hNew
    rfl
  · next hOld => exact h i (Nat.lt_of_le_of_ne (Nat.le_of_lt_succ hi) fun e => hOld ⟨rfl, e⟩)

/-- With the lower digits of `n` taken before, PAYCNT takes digit `k` above them (R139). -/
theorem State.writePaylen_digit {t : State} {n k : Nat} (h3 : k ≤ 3) (h : k ≠ 0 → t.paycnt.toNat = n % 256 ^ k) :
    (t.writePaylen k (digit256 n k)).paycnt.toNat = n % 256 ^ (k + 1) := by
  by_cases h0 : k = 0
  · subst h0
    rw [State.writePaylen_zero, BitVec.toNat_setWidth_of_le (by decide), digit256_toNat]
    simp
  · have hLow : t.paycnt.toNat < 256 ^ k := by
      rw [h h0]
      exact Nat.mod_lt _ (by positivity)
    rw [State.writePaylen_paycnt_toNat h0 h3 hLow, h h0, digit256_toNat, Nat.mod_pow_succ, Nat.mul_comm]

/-- A decode session that is about to start on a carrier that holds the stream of `s` with `L` payload bytes. -/
structure HoldsStream (s u : State) (L : Nat) : Prop where
  seq : u.seq = .dDepth
  mismatch : u.mismatch = false
  alphaPresent : u.alphaPresent = true
  length_lt : L < 2 ^ 32
  fits : 18 + s.fnlen.toNat + L ≤ u.npix / 2
  carries : ∀ j < 18 + s.fnlen.toNat + L, unpackPair (2 * j) u.car = s.streamByte L j

section RoundTrip

variable {s u : State} {L : Nat} (h : HoldsStream s u L)

include h

/-! #### D_DEPTH, D_SIZE and D_MAGIC -/

/-- Both checks pass, and the compare starts. -/
theorem HoldsStream.startsMagic :
    engineRun 2 u = (((u.goto .dSize).writeMaxBytes (u.npix / 2)).setCursor (0, 0)).goto .dMagic := by
  have hDepth : engineStep u = u.goto .dSize := (engineStep_dDepth h.seq).trans (stepDDepth_ok h.alphaPresent)
  have hSize : 36 ≤ (u.goto .dSize).npix := by
    have := h.fits
    rw [State.goto_npix]
    omega
  exact (congrArg engineStep hDepth).trans ((engineStep_dSize rfl).trans (stepDSize_fits hSize))

/-- The first twelve bytes are the tag, so the session goes on to D_HDR (R137). -/
theorem HoldsStream.readsMagic : Decoding u .dHdr 0 (engineRun 14 u) := by
  have hTag : ((List.range 12).map fun k => unpackPair (2 * k) u.car) = Config.magic := by
    have hBytes : ((List.range 12).map fun k => unpackPair (2 * k) u.car) = (List.range 12).map Config.magicAt := by
      refine List.map_congr_left fun k hk => ?_
      have hk12 := List.mem_range.1 hk
      rw [h.carries k (by omega), s.streamByte_magic L hk12]
    rw [hBytes]
    decide
  have hCompare := magicIsRecognisedExactly (engineRun 2 u)
  rw [← engineRun_add, h.startsMagic] at hCompare
  have hSize : 36 ≤ u.npix := by
    have := h.fits
    omega
  obtain ⟨-, hCar, hGood, -⟩ := hCompare rfl rfl h.mismatch (State.cursor_setCursor_origin _) hSize
  obtain ⟨hSeq, hIdx, hErr⟩ := hGood hTag
  exact ⟨hSeq, congrArg BitVec.toNat hIdx, seqOk_engineRun (State.seqOk_dDepth h.seq) 14, engineRun_npix 14 u, hCar,
    hErr⟩

/-! #### D_HDR (R139) -/

theorem HoldsStream.headerByte {t : State} {i : Nat} (ht : Decoding u .dHdr i t) (hi : i < 6 + s.fnlen.toNat) :
    t.cursor + 2 ≤ t.npix ∧ unpackPair t.cursor t.car = s.streamByte L (12 + i) := by
  obtain ⟨hPair, hByte⟩ := ht.headerPair
  exact ⟨hPair, hByte.trans (h.carries _ (by omega))⟩

theorem HoldsStream.readsFnlenLow {t : State} (ht : Decoding u .dHdr 0 t) :
    Decoding u .dHdr 1 (engineStep t) ∧ (engineStep t).fnlen.toNat = s.fnlen.toNat % 256 := by
  obtain ⟨hPair, hByte⟩ := h.headerByte ht (by omega)
  have hStep : engineStep t = (t.passPair t.cursor).takeFnlenLow (digit256 s.fnlen.toNat 0) := by
    rw [engineStep_dHdr ht.seq, stepDHdr_fnlenLow hPair ht.idx, hByte, s.streamByte_fnlen L (by decide)]
  refine ⟨ht.next (by decide) rfl (by rw [hStep]; exact ht.seq) (by rw [hStep]; rfl), ?_⟩
  rw [hStep, State.takeFnlenLow_fnlen, digit256_toNat, BitVec.toNat_ofNat]
  omega

theorem HoldsStream.readsFnlenHigh {t : State} (ht : Decoding u .dHdr 1 t)
    (hLow : t.fnlen.toNat = s.fnlen.toNat % 256) :
    Decoding u .dHdr 2 (engineStep t) ∧ (engineStep t).fnlen = s.fnlen := by
  obtain ⟨hPair, hByte⟩ := h.headerByte ht (by omega)
  have hRange : (t.passPair t.cursor).fnlen.toNat < 256 := by
    rw [State.passPair_fnlen, hLow]
    exact Nat.mod_lt _ (by decide)
  have hValue : (t.passPair t.cursor).fnlen.toNat + 256 * (digit256 s.fnlen.toNat 1).toNat = s.fnlen.toNat := by
    have := s.fnlen.isLt
    rw [State.passPair_fnlen, hLow, digit256_toNat]
    omega
  have hRoom : ((t.passPair t.cursor).writeFnlenHigh (digit256 s.fnlen.toNat 1)).hdrcnt.toNat
      ≤ (t.passPair t.cursor).maxbytes.toNat := by
    obtain ⟨hMax, -⟩ := (State.seqOk_dHdr ht.seq).1 ht.seqOk
    have := h.fits
    rw [State.writeFnlenHigh_hdrcnt_exact hRange, hValue, State.passPair_maxbytes, hMax, ht.npix]
    omega
  have hStep : engineStep t = ((t.passPair t.cursor).writeFnlenHigh (digit256 s.fnlen.toNat 1)).setIdx 2 := by
    rw [engineStep_fnlenHigh ht.seq hPair ht.idx, hByte, s.streamByte_fnlen L (by decide),
      State.takeFnlenHigh_fits hRoom]
  refine ⟨ht.next (by decide) rfl (by rw [hStep]; exact ht.seq) (by rw [hStep]; rfl), BitVec.eq_of_toNat_eq ?_⟩
  rw [hStep, State.setIdx_fnlen, State.writeFnlenHigh_fnlen_toNat hRange, hValue]

theorem HoldsStream.readsNameByte {t : State} {k : Nat} (ht : Decoding u .dHdr (2 + k) t) (hName : HasName s k t)
    (hk : k < s.fnlen.toNat) :
    Decoding u .dHdr (2 + (k + 1)) (engineStep t) ∧ HasName s (k + 1) (engineStep t) := by
  obtain ⟨hFnlen, hBefore⟩ := hName
  obtain ⟨hPair, hByte⟩ := h.headerByte ht (by omega)
  have hIdx := ht.idx
  have hStep : engineStep t = ((t.passPair t.cursor).memWrite .name k (s.memRead .name k)).setIdx (t.idx + 1) := by
    have hAddress : t.idx.toNat - 2 = k := by omega
    rw [engineStep_dHdr ht.seq, stepDHdr_name hPair (by omega) (by rw [hFnlen]; omega), hByte,
      show 12 + (2 + k) = 14 + k by omega, State.streamByte_name L hk, State.takeNameByte, State.passPair_idx, hAddress]
  refine ⟨ht.next (by decide) rfl (by rw [hStep]; exact ht.seq) ?_, ?_⟩
  · rw [hStep, State.setIdx_idx, ht.seqOk.dHdr_idx_succ ht.seq (by omega), hIdx, Nat.add_assoc]
  · rw [hStep]
    exact ⟨hFnlen, State.memRead_memWrite_next (t := t.passPair t.cursor) hBefore⟩

theorem HoldsStream.readsName {k : Nat} (hk : k ≤ s.fnlen.toNat) :
    Decoding u .dHdr (2 + k) (engineRun (16 + k) u) ∧ HasName s k (engineRun (16 + k) u) := by
  induction k with
  | zero =>
    obtain ⟨hOne, hLow⟩ := h.readsFnlenLow h.readsMagic
    obtain ⟨hTwo, hFnlen⟩ := h.readsFnlenHigh hOne hLow
    rw [← engineRun_succ, ← engineRun_succ] at hTwo hFnlen
    exact ⟨hTwo, hFnlen, fun i hi => absurd hi (Nat.not_lt_zero i)⟩
  | succ k ih =>
    obtain ⟨ht, hName⟩ := ih (by omega)
    have hNext := h.readsNameByte ht hName (by omega)
    rwa [← engineRun_succ] at hNext

/-- Each byte of the payload length but the last, on which the second check follows. -/
theorem HoldsStream.readsPaylenByte {t : State} {k : Nat} (ht : Decoding u .dHdr (2 + s.fnlen.toNat + k) t)
    (hName : HasName s s.fnlen.toNat t) (hPaycnt : k ≠ 0 → t.paycnt.toNat = L % 256 ^ k) (hk : k < 3) :
    Decoding u .dHdr (2 + s.fnlen.toNat + (k + 1)) (engineStep t) ∧ HasName s s.fnlen.toNat (engineStep t)
    ∧ (engineStep t).paycnt.toNat = L % 256 ^ (k + 1) := by
  have hFnlen := hName.fnlen_eq
  obtain ⟨hPair, hByte⟩ := h.headerByte ht (by omega)
  have hIdx := ht.idx
  have hStep : engineStep t = ((t.passPair t.cursor).writePaylen k (digit256 L k)).setIdx (t.idx + 1) := by
    rw [engineStep_paylen_more ht.seq hPair (by omega) (by rw [hFnlen]; exact hIdx) hk, hByte,
      show 12 + (2 + s.fnlen.toNat + k) = 14 + s.fnlen.toNat + k by omega, s.streamByte_paylen L (by omega)]
  refine ⟨ht.next (by decide) rfl (by rw [hStep]; exact ht.seq) ?_, ?_, ?_⟩
  · rw [hStep, State.setIdx_idx, ht.seqOk.dHdr_idx_succ ht.seq (by omega), hIdx, Nat.add_assoc]
  · rw [hStep]
    exact hName
  · rw [hStep]
    exact State.writePaylen_digit (t := t.passPair t.cursor) hk.le hPaycnt

theorem HoldsStream.readsPaylen {k : Nat} (hk : k ≤ 3) :
    Decoding u .dHdr (2 + s.fnlen.toNat + k) (engineRun (16 + s.fnlen.toNat + k) u)
    ∧ HasName s s.fnlen.toNat (engineRun (16 + s.fnlen.toNat + k) u)
    ∧ (k ≠ 0 → (engineRun (16 + s.fnlen.toNat + k) u).paycnt.toNat = L % 256 ^ k) := by
  induction k with
  | zero =>
    obtain ⟨ht, hName⟩ := h.readsName le_rfl
    exact ⟨ht, hName, fun h0 => absurd rfl h0⟩
  | succ k ih =>
    obtain ⟨ht, hName, hPaycnt⟩ := ih (by omega)
    obtain ⟨hNext, hName', hPaycnt'⟩ := h.readsPaylenByte ht hName hPaycnt (by omega)
    rw [← engineRun_succ] at hNext hName' hPaycnt'
    exact ⟨hNext, hName', fun _ => hPaycnt'⟩

/-- The header and the payload together fit, so the second check passes. -/
theorem HoldsStream.readsLastPaylenByte {t : State} (ht : Decoding u .dHdr (2 + s.fnlen.toNat + 3) t)
    (hName : HasName s s.fnlen.toNat t) (hPaycnt : t.paycnt.toNat = L % 256 ^ 3) :
    Decoding u .dSkip 0 (engineStep t) ∧ HasHeader s L (engineStep t) := by
  have hFnlen := hName.fnlen_eq
  obtain ⟨hPair, hByte⟩ := h.headerByte ht (by omega)
  have hIdx := ht.idx
  have hLength : ((t.passPair t.cursor).writePaylen 3 (digit256 L 3)).paycnt.toNat = L := by
    have hDigits := State.writePaylen_digit (t := t.passPair t.cursor) le_rfl fun _ => hPaycnt
    rwa [Nat.mod_eq_of_lt (show L < 256 ^ (3 + 1) from h.length_lt)] at hDigits
  have hRoom : (t.passPair t.cursor).hdrcnt.toNat
      + ((t.passPair t.cursor).writePaylen 3 (digit256 L 3)).paycnt.toNat ≤ (t.passPair t.cursor).maxbytes.toNat := by
    obtain ⟨hMax, -, -, -, hHeader, -⟩ := (State.seqOk_dHdr ht.seq).1 ht.seqOk
    obtain ⟨hHdr, -⟩ := hHeader (by omega)
    have := h.fits
    rw [hLength, State.passPair_hdrcnt, State.passPair_maxbytes, hHdr, hFnlen, hMax, ht.npix]
    exact this
  have hStep : engineStep t = ((t.passPair t.cursor).writePaylen 3 (digit256 L 3)).goto .dSkip := by
    have hDigit : (t.passPair t.cursor).idx.toNat - 2 - (t.passPair t.cursor).fnlen.toNat = 3 :=
      State.paylen_digit (by rw [hFnlen]; exact hIdx) _
    rw [engineStep_paylen ht.seq hPair (by omega) (by rw [hFnlen]; omega), hByte,
      show 12 + (2 + s.fnlen.toNat + 3) = 14 + s.fnlen.toNat + 3 by omega, s.streamByte_paylen L (by decide),
      State.takePaylen_last_fits 3 hDigit le_rfl hRoom]
  refine ⟨ht.next (by decide) rfl (by rw [hStep]; rfl) (by rw [hStep]; rfl), ?_⟩
  rw [hStep]
  exact ⟨hName, hLength⟩

/-! #### D_SKIP and D_PAY -/

/-- Four steps after the name, D_SKIP is reached, and one step after that the payload. -/
theorem HoldsStream.startsPayload :
    Decoding u .dPay 0 (engineRun (21 + s.fnlen.toNat) u) ∧ HasHeader s L (engineRun (21 + s.fnlen.toNat) u) := by
  obtain ⟨hThree, hName, hPaycnt⟩ := h.readsPaylen le_rfl
  obtain ⟨hSkip, hHeader⟩ := h.readsLastPaylenByte hThree hName (hPaycnt (by decide))
  have hPay := hHeader.skips hSkip
  rw [← engineRun_succ, ← engineRun_succ] at hPay
  rwa [show 21 + s.fnlen.toNat = 16 + s.fnlen.toNat + 3 + 1 + 1 by omega]

/-- In D_PAY the pair at the cursor is payload byte IDX. -/
theorem HoldsStream.payloadByte {t : State} {k : Nat} (ht : Decoding u .dPay k t) (hHeader : HasHeader s L t)
    (hk : k < L) :
    t.idx ≠ t.paycnt ∧ t.cursor + 2 ≤ t.npix ∧ unpackPair t.cursor t.car = s.memRead .pay k := by
  obtain ⟨⟨hFnlen, -⟩, hPaycnt⟩ := hHeader
  have hMore : t.idx ≠ t.paycnt := fun e => Nat.ne_of_lt hk (by rw [← ht.idx, ← hPaycnt, e])
  obtain ⟨⟨-, hHdr, -⟩, -, hCursor⟩ := (State.seqOk_payload (.inr ht.seq)).1 ht.seqOk
  refine ⟨hMore, ht.seqOk.pair (.inr (.inr (.inr (.inr ⟨ht.seq, hMore⟩)))), ?_⟩
  rw [hCursor, hHdr, hFnlen, ht.idx, ht.car, h.carries _ (by omega), s.streamByte_payload hk]

theorem HoldsStream.readsPayloadByte {t : State} {k : Nat} (ht : Decoding u .dPay k t) (hHeader : HasHeader s L t)
    (hPay : ∀ i < k, t.memRead .pay i = s.memRead .pay i) (hk : k < L) :
    Decoding u .dPay (k + 1) (engineStep t) ∧ HasHeader s L (engineStep t)
    ∧ ∀ i < k + 1, (engineStep t).memRead .pay i = s.memRead .pay i := by
  obtain ⟨hMore, hPair, hByte⟩ := h.payloadByte ht hHeader hk
  have hStep : engineStep t = ((t.passPair t.cursor).memWrite .pay k (s.memRead .pay k)).setIdx (t.idx + 1) := by
    rw [engineStep_dPay ht.seq, stepDPay_more hPair hMore, hByte, ht.idx]
  refine ⟨ht.next (by decide) rfl (by rw [hStep]; exact ht.seq) ?_, ?_, ?_⟩
  · have hLt := h.length_lt
    have hIdx := ht.idx
    rw [hStep, State.setIdx_idx, idx_succ _ (by omega), hIdx]
  · rw [hStep]
    exact hHeader
  · rw [hStep]
    exact State.memRead_memWrite_next (t := t.passPair t.cursor) hPay

theorem HoldsStream.readsPayload {k : Nat} (hk : k ≤ L) :
    Decoding u .dPay k (engineRun (21 + s.fnlen.toNat + k) u) ∧ HasHeader s L (engineRun (21 + s.fnlen.toNat + k) u)
    ∧ ∀ i < k, (engineRun (21 + s.fnlen.toNat + k) u).memRead .pay i = s.memRead .pay i := by
  induction k with
  | zero =>
    obtain ⟨ht, hHeader⟩ := h.startsPayload
    exact ⟨ht, hHeader, fun i hi => absurd hi (Nat.not_lt_zero i)⟩
  | succ k ih =>
    obtain ⟨ht, hHeader, hPay⟩ := ih (by omega)
    have hNext := h.readsPayloadByte ht hHeader hPay (by omega)
    rwa [← engineRun_succ] at hNext

/-- With the last byte the session is over. -/
theorem HoldsStream.ends :
    engineRun (22 + s.fnlen.toNat + L) u = (engineRun (21 + s.fnlen.toNat + L) u).enterDone := by
  obtain ⟨ht, ⟨-, hPaycnt⟩, -⟩ := h.readsPayload le_rfl
  rw [show 22 + s.fnlen.toNat + L = 21 + s.fnlen.toNat + L + 1 by omega, engineRun_succ, engineStep_dPay ht.seq,
    stepDPay_last (BitVec.eq_of_toNat_eq (ht.idx.trans hPaycnt.symm))]

end RoundTrip

/-- A carrier that reads as ENCODE left it holds the stream. -/
theorem holdsStream_of_encode {s u : State} (hq : s.seq = .ePlan) (hFits : 18 + s.fnlen.toNat ≤ s.npix / 2)
    (hSeq : u.seq = .dDepth) (hMismatch : u.mismatch = false) (hAlpha : u.alphaPresent = true)
    (hNpix : u.npix = s.npix)
    (hCar : ∀ a, memByte .car u.car a
      = memByte .car (engineRun (2 + (18 + s.fnlen.toNat) + s.plannedPay) s).car a) :
    HoldsStream s u s.plannedPay where
  seq := hSeq
  mismatch := hMismatch
  alphaPresent := hAlpha
  length_lt := Nat.lt_of_le_of_lt (Nat.min_le_left _ _) s.filesize.isLt
  fits := hNpix ▸ State.plannedStream_le hFits
  carries j hj := by
    refine unpackPair_of_parities _ _ _ fun i hi => ?_
    rw [hCar, engineRun_encode_car hFits hq, show 4 * (2 * j) + i = 8 * j + i by omega, memByte_embed_byte _ _ hj hi,
      setLSB_mod _ _ (bitOf_lt _ i)]

/-- Settles O52: the carrier holds the stream, whose fields the decode session reads one after another. -/
theorem decodeRecoversWhatEncodeEmbedded : Obligations.DecodeRecoversWhatEncodeEmbedded := by
  intro s u hq maxB hdr L hFits hSeq hMismatch hAlpha hWidth hHeight hCar
  have hHolds := holdsStream_of_encode hq hFits hSeq hMismatch hAlpha (State.npix_of_eq hWidth hHeight) hCar
  obtain ⟨ht, ⟨⟨hFnlen, hName⟩, hPaycnt⟩, hPay⟩ := hHolds.readsPayload le_rfl
  intro v
  have hv : v = (engineRun (21 + s.fnlen.toNat + L) u).enterDone := hHolds.ends
  rw [hv]
  exact ⟨rfl, rfl, ht.err, hFnlen, hPaycnt, hName, hPay, ht.car⟩

end Sys2Proof.Machine

/-!
PROOFS. Reset (70_reset_and_hazards.md): the state after reset meets the invariant of a run, and a reset in any state
clears the registers and writes no memory.
-/
namespace Sys2Proof.Machine

/-- Each register is one field or more at its reset value, and the code of that value is 0 (R168). -/
@[simp] theorem State.resetBlock_readReg (s : State) (r : Reg) : s.resetBlock.readReg r = 0 := by
  cases r <;> rfl

@[simp] theorem State.resetBlock_busy (s : State) : s.resetBlock.busy = false := rfl

theorem step_reset {s : State} {rest : List Turn} (h : s.turns = .reset :: rest) :
    step s = .next (s.withTurns rest).resetBlock := step_turn h

/-- Nothing is written yet, so the memories are canonical and inside their spaces. -/
theorem State.MemOk_reset : State.reset.MemOk := by
  intro sp
  cases sp <;> exact ⟨rfl, nofun⟩

theorem State.inv_reset : State.reset.Inv where
  mem := State.MemOk_reset
  cursorOk := State.CursorOk_reset
  statusOk := .of_clear rfl rfl rfl nofun nofun
  seqOk := .of_idle rfl

/-- Settles O49: the state after reset is its own reset, so each register reads 0 in it. -/
theorem resetMeetsTheRunInvariant : Obligations.ResetMeetsTheRunInvariant :=
  ⟨State.inv_reset, State.reset.resetBlock_readReg⟩

/-- Settles O58: the step is `resetBlock`, and at power-up no memory lists a byte. -/
theorem resetClearsRegistersAndKeepsMemory : Obligations.ResetClearsRegistersAndKeepsMemory := by
  refine ⟨fun sp a => ?_, fun s rest hTurn => ?_⟩
  · cases sp <;> rfl
  · exact ⟨_, step_reset hTurn, rfl, State.resetBlock_readReg _, State.resetBlock_busy _⟩

end Sys2Proof.Machine
